-- ==== Sys2Proof/Word.lean ====
section
/-! DEFINITION. The byte, the only word type of the block (00_scope.md R14: "A *byte* is an unsigned integer 0 to 255"). -/

namespace Sys2Proof

/-- A byte: 8 bits, bit 0 least significant (00_scope.md R14, R15). -/
abbrev Byte := BitVec 8

end Sys2Proof
end

