-- ==== Sys2Proof/Config.lean ====
section
/-! DEFINITION. What an implementation fixes (00_scope.md R11 to R13), the vocabulary of transport answers and transport
calls (00_scope.md R18, 20_memory.md R60 to R65), and the free values: constants with no body, of which nothing can be
proved. The parameters' default VALUES are `Sys2Proof.Machine.params` and `Sys2Proof.Machine.catalogParams`. -/

namespace Sys2Proof

/-- The block's parameters, the table of 00_scope.md R11 row by row.
`busId` and `devAddr` have no default there (92_eei_decisions.md D25). -/
structure Params where
  preamble : Byte
  start1 : Byte
  start2 : Byte
  postamble : Byte
  tfiH2D : Byte
  tfiD2H : Byte
  lenBias : Nat
  ackLen : Nat
  ackPattern : List Byte
  maxPayload : Nat
  envPre : Nat
  envPost : Nat
  rdyMask : Byte
  pollLen : Nat
  tickMs : Nat
  maxRead : Nat
  busId : Nat
  devAddr : Nat
  chkEnReset : Bool
  deriving DecidableEq, Repr

/-- The constraints between parameters of 00_scope.md R13, with `LEN_BIAS = 1`, which 30_encoding.md R96 (c) builds
into the Frame predicate, and the one status byte and one pad byte of 30_encoding.md R101. -/
structure Params.Valid (P : Params) : Prop where
  lenBias_one : P.lenBias = 1
  payload_fits : P.maxPayload + P.lenBias ≤ 255
  ack_length : P.ackPattern.length = P.ackLen
  envPre_one : P.envPre = 1
  envPost_one : P.envPost = 1
  poll_pos : 1 ≤ P.pollLen
  tick_pos : 1 ≤ P.tickMs

/-- The constants of the Command Catalog, host software above the block (43_host_sequences.md R191 to R196,
92_eei_decisions.md D22). -/
structure CatalogParams where
  gfvOp : Byte
  gfvSignature : List Byte
  gfvLen : Nat
  gfvOff : Nat
  samPayload : List Byte
  samLen : Nat
  samOff : Nat
  samSentinel : Byte
  rfCfgStart : List Byte
  rptStart : List Byte
  rptLen : Nat
  tagCountOff : Nat
  uidLenOff : Nat
  atqaOff : Nat
  sakOff : Nat
  deriving DecidableEq, Repr

/-- What `MemRead(RX, n)` yields: `ERR`, or a byte sequence (00_scope.md R18, 20_memory.md R64). -/
inductive ReadAns where
  | err
  | bytes (bs : List Byte)
  deriving DecidableEq, Repr, Inhabited

/-- One transport call with its answer, or one `Sleep` (00_scope.md R18, 20_memory.md R60). The list of these is the
"history of transport calls and answers" of 70_reset_and_hazards.md R262. -/
inductive Event where
  /-- `open(BUS_ID) -> bool` -/
  | busOpen (bus : Nat) (ok : Bool)
  /-- `set_address(BUS_ID, DEV_ADDR) -> bool` -/
  | setAddress (bus addr : Nat) (ok : Bool)
  /-- `write(BUS_ID, v) -> bool` -/
  | write (bus : Nat) (v : List Byte) (ok : Bool)
  /-- `read(BUS_ID, buffer, n)` and what it yielded -/
  | read (bus n : Nat) (ans : ReadAns)
  /-- `close(BUS_ID)`, no result -/
  | busClose (bus : Nat)
  /-- `Sleep(ms)`, no result -/
  | sleep (ms : Nat)
  deriving DecidableEq, Repr

/-- FREE VALUE. The transport's bus identifier: open (00_scope.md R11, 92_eei_decisions.md D25; log entry 4). -/
opaque Config.busId : Nat

/-- FREE VALUE. The device address given to `set_address`: open (00_scope.md R11, 92_eei_decisions.md D25; log entry 4). -/
opaque Config.devAddr : Nat

/-- FREE VALUE. The transport oracle's answer to a read where State's script of the environment has none left: any
function of everything that happened before and of the number of bytes asked (20_memory.md R66; log entry 3). -/
opaque Config.oracleRead : List Event → Nat → ReadAns

/-- FREE VALUE. The transport oracle's answer to `open` (20_memory.md R65, R66; log entry 3). -/
opaque Config.oracleOpen : List Event → Bool

/-- FREE VALUE. The transport oracle's answer to `set_address` (20_memory.md R65, R66; log entry 3). -/
opaque Config.oracleSetAddress : List Event → Bool

/-- FREE VALUE. The transport oracle's answer to a write of these bytes (20_memory.md R65, R66; log entry 3). -/
opaque Config.oracleWrite : List Event → List Byte → Bool

/-- FREE VALUE. What an index of `TXBUF` that nothing has written would read as inside the block; no rule makes such a
read (70_reset_and_hazards.md R242, 93_implementation_defined.md U1; log entry 8). -/
opaque Config.unwrittenTx : Nat → Byte

/-- FREE VALUE. The same for `RXBUF` (70_reset_and_hazards.md R242, 93_implementation_defined.md U1; log entry 8). -/
opaque Config.unwrittenRx : Nat → Byte

/-- FREE VALUE. Bytes the device or the transport puts around a frame and no rule fixes: the status bits other than the
ready bit, the status byte of a data read, the trailing pad (93_implementation_defined.md U6; log entry 11). Applied to
a counter in State, so that each use is a fresh value. -/
opaque Config.freeByte : Nat → Byte

end Sys2Proof
end

