-- ==== Sys2Proof/Machine/Params.lean ====
section
/-! DEFINITION. The default values of the parameters (00_scope.md R11) and of the Command Catalog's constants
(43_host_sequences.md, 92_eei_decisions.md D22). -/

namespace Sys2Proof.Machine

/-- The parameters at the values of the table of 00_scope.md R11. `ACK_LEN`, `ENV_PRE`, `ENV_POST` and `TICK_MS` are the
source's; the others are the spec's decisions D1 to D6, D11, D20 (log entries 1, 2), `BUS_ID` and `DEV_ADDR` are free
(log entry 4). -/
def params : Params where
  preamble := 0x00#8
  start1 := 0x00#8
  start2 := 0xFF#8
  postamble := 0x00#8
  tfiH2D := 0xD4#8
  tfiD2H := 0xD5#8
  lenBias := 1
  ackLen := 6
  ackPattern := [0x00#8, 0x00#8, 0xFF#8, 0x00#8, 0xFF#8, 0x00#8]
  maxPayload := 254
  envPre := 1
  envPost := 1
  rdyMask := 0x01#8
  pollLen := 1
  tickMs := 1
  maxRead := 262
  busId := Config.busId
  devAddr := Config.devAddr
  chkEnReset := false

/-- The Command Catalog's constants: lengths 12 and 8 and offsets 6 and 7 are the source's, the rest 92_eei_decisions.md
D22 (log entry 12). -/
def catalogParams : CatalogParams where
  gfvOp := 0x02#8
  gfvSignature := [0x00#8, 0x00#8, 0xFF#8, 0x06#8, 0xFA#8, 0xD5#8]
  gfvLen := 12
  gfvOff := 7
  samPayload := [0x14#8, 0x01#8, 0x14#8, 0x01#8]
  samLen := 8
  samOff := 6
  samSentinel := 0x15#8
  rfCfgStart := [0x32#8, 0x05#8, 0xFF#8, 0x01#8]
  rptStart := [0x4A#8, 0x01#8]
  rptLen := 20
  tagCountOff := 7
  uidLenOff := 12
  atqaOff := 9
  sakOff := 11

end Sys2Proof.Machine
end

