-- ==== Sys2Proof/Machine/Flags.lean ====
section
/-! DEFINITION. The block's arithmetic and its yes-or-no computations: `sum8`, `neg8`, the two checksums, checksum
validation, acknowledgement recognition, the ready bit (00_scope.md R16; 40_codec_ops.md R130, R134, R137;
41_handshake_ops.md R154). Pure functions of their operands and the parameters (40_codec_ops.md R142). -/

namespace Sys2Proof.Machine

/-- The sum of the bytes as integers, before any reduction (00_scope.md R16). -/
def byteSum : List Byte → Nat
  | [] => 0
  | b :: bs => b.toNat + byteSum bs

/-- `sum8(b)`: the sum of the bytes mod 256, 0 for the empty sequence (00_scope.md R16, 40_codec_ops.md R130). -/
def sum8 (bs : List Byte) : Byte := BitVec.ofNat 8 (byteSum bs % 256)

/-- `neg8(v) = (256 - (v mod 256)) mod 256` (00_scope.md R16, 40_codec_ops.md R130). -/
def neg8 (v : Byte) : Byte := BitVec.ofNat 8 ((256 - v.toNat) % 256)

/-- The length byte `LEN = p + LEN_BIAS` (30_encoding.md R93). -/
def lenByte (P : Params) (p : Nat) : Byte := BitVec.ofNat 8 (p + P.lenBias)

/-- The length checksum `LCS = neg8(LEN)` (30_encoding.md R94). -/
def lcsByte (len : Byte) : Byte := neg8 len

/-- The payload checksum `DCS = neg8(sum8([TFI] ++ P))` (30_encoding.md R95). -/
def dcsByte (tfi : Byte) (payload : List Byte) : Byte := neg8 (sum8 (tfi :: payload))

/-- `b[i..j]` given by its first index and its length (00_scope.md R14). -/
def sub (bs : List Byte) (i len : Nat) : List Byte := (bs.drop i).take len

/-- `b[i]` as a number. Used only at an index the caller has checked to be in range. -/
def byteNat (bs : List Byte) (i : Nat) : Nat :=
  match bs[i]? with
  | some b => b.toNat
  | none => 0

/-- `ChecksumsOk(X)`, the five tests of 40_codec_ops.md R137 in their order. -/
def checksumsOk (x : List Byte) : Bool :=
  if x.length < 6 then false
  else if byteNat x 3 = 0 then false
  else if (byteNat x 3 + byteNat x 4) % 256 ≠ 0 then false
  else if x.length - 1 < 5 + byteNat x 3 then false
  else if sum8 (sub x 5 (byteNat x 3 + 1)) ≠ 0#8 then false
  else true

/-- `AckMatches(bytes)`: length `ACK_LEN` and equal to `ACK_PATTERN` byte for byte (40_codec_ops.md R134). -/
def ackMatches (P : Params) (bs : List Byte) : Bool :=
  bs.length == P.ackLen && bs == P.ackPattern

/-- The ready test of a poll: `len(r) >= 1 and (r[0] & RDY_MASK) != 0` (41_handshake_ops.md R154). -/
def isReady (P : Params) (r : List Byte) : Bool :=
  match r with
  | [] => false
  | b :: _ => (b &&& P.rdyMask) != 0#8

end Sys2Proof.Machine
end

