-- ==== Sys2Proof/Machine/Operands.lean ====
section
/-! DEFINITION. The wire formats as byte sequences: the Frame and its predicate, the read envelope, and the decoding of
one data read (30_encoding.md R91 to R101; 40_codec_ops.md R131, R135). Pure functions (40_codec_ops.md R142). -/

namespace Sys2Proof.Machine

/-- The Frame around `payload` with direction byte `tfi`, in the layout of 30_encoding.md R91. -/
def buildFrame (P : Params) (tfi : Byte) (payload : List Byte) : List Byte :=
  [P.preamble, P.start1, P.start2, lenByte P payload.length, lcsByte (lenByte P payload.length), tfi] ++
    payload ++ [dcsByte tfi payload, P.postamble]

/-- `EncodeFrame(payload)`, the host-to-device Frame (40_codec_ops.md R131). -/
def encodeFrame (P : Params) (payload : List Byte) : List Byte := buildFrame P P.tfiH2D payload

/-- `WellFormedFrame(F, d)`, clauses (a) to (g) of 30_encoding.md R96. -/
def wellFormedFrame (P : Params) (f : List Byte) (d : Byte) : Bool :=
  decide (8 ≤ f.length)
    && (f[0]? == some P.preamble && f[1]? == some P.start1 && f[2]? == some P.start2)
    && (decide (1 ≤ byteNat f 3) && f.length == byteNat f 3 + 7)
    && ((byteNat f 3 + byteNat f 4) % 256 == 0)
    && (f[5]? == some d)
    && (sum8 (sub f 5 (byteNat f 3 + 1)) == 0#8)
    && (f[6 + byteNat f 3]? == some P.postamble)

/-- `FramePayload(F) = F[6 .. 4+F[3]]` (30_encoding.md R97). -/
def framePayload (f : List Byte) : List Byte := sub f 6 (byteNat f 3 - 1)

/-- One data read's bytes: status prefix, inner bytes, trailing pad (30_encoding.md R101). -/
def buildEnvelope (status : Byte) (inner : List Byte) (pad : Byte) : List Byte := status :: (inner ++ [pad])

/-- The inner bytes of a data read: `b[ENV_PRE .. ENV_PRE+n-1]` (30_encoding.md R101, 40_codec_ops.md R135). -/
def innerBytes (P : Params) (bs : List Byte) (n : Nat) : List Byte := sub bs P.envPre n

/-- What `DecodeEnvelope` returns (40_codec_ops.md R135). -/
inductive DecodeResult where
  | ok (x : List Byte)
  | shortRead
  | checksumMismatch
  deriving DecidableEq, Repr

/-- `DecodeEnvelope(bytes, n, check)` (40_codec_ops.md R135 to R137; the threshold of 90_conflicts.md C2). -/
def decodeEnvelope (P : Params) (bs : List Byte) (n : Nat) (check : Bool) : DecodeResult :=
  if bs.length < P.envPre + n + P.envPost then .shortRead
  else if check && !checksumsOk (innerBytes P bs n) then .checksumMismatch
  else .ok (innerBytes P bs n)

end Sys2Proof.Machine
end

