-- ==== Sys2Proof/Syntax.lean ====
section
/-! DEFINITION. One constructor per row of spec/opcode_table.json: the eight operations of 30_encoding.md R107 with the
operand forms of R108, and the four wire formats of R90 and R116. -/

namespace Sys2Proof

/-- What a step of the machine is given. The first eight are the operations the host issues to the block
(00_scope.md R3). The last four are the table's wire-format rows, each taken as the act of the one that builds the format
(30_encoding.md R90, column "built by"; log entry 10): `ENC` builds a command frame, the device builds a response frame
and an ACK frame, the transport and the device build a read envelope. -/
inductive Instr where
  /-- `ENC(payload)`, 40_codec_ops.md R131. -/
  | enc (payload : List Byte)
  /-- `VACK(bytes)`, 40_codec_ops.md R134. -/
  | vack (bytes : List Byte)
  /-- `DEC(bytes, expected_len, check)`, 40_codec_ops.md R135. -/
  | dec (bytes : List Byte) (expectedLen : Nat) (check : Bool)
  /-- `SNDACK(ack_timeout_ms)`, 41_handshake_ops.md R160; the Frame operand is `TXBUF[0..TXLEN-1]`. -/
  | sndack (ackTimeoutMs : BitVec 32)
  /-- `RDRSP(n_bytes, timeout_ms)`, 41_handshake_ops.md R164. -/
  | rdrsp (nBytes : Nat) (timeoutMs : BitVec 32)
  /-- `OPEN()`, 42_session_ops.md R181. -/
  | openSession
  /-- `CLOSE()`, 42_session_ops.md R183. -/
  | closeSession
  /-- `WRCTRL(v)`, 42_session_ops.md R185. -/
  | wrctrl (v : Byte)
  /-- `FRAME.CMD`, 30_encoding.md R91: the command frame around `payload`, built by `ENC`. -/
  | frameCmd (payload : List Byte)
  /-- `FRAME.RSP`, 30_encoding.md R96: the response frame around `payload`, sent by the device. -/
  | frameRsp (payload : List Byte)
  /-- `FRAME.ACK`, 30_encoding.md R99: the acknowledgement frame, sent by the device. -/
  | frameAck
  /-- `ENVELOPE`, 30_encoding.md R101: status prefix, inner bytes, trailing pad of one data read. -/
  | envelope (status : Byte) (inner : List Byte) (pad : Byte)
  deriving DecidableEq, Repr

end Sys2Proof
end

