-- ==== Sys2Proof/WellFormed.lean ====
section
/-! DEFINITION. Which terms of Instr the encodings can carry. The operations' operands are unrestricted (30_encoding.md
R108: any byte sequence, any natural number); the wire formats are bounded by their one-byte length field and by the
receive buffer. -/

namespace Sys2Proof

/-- The check, constructor by constructor. An over-long `ENC` payload or `RDRSP` length is no ill-formed operation: it is
answered `Refused` (40_codec_ops.md R132, 41_handshake_ops.md R164). -/
def Instr.wellFormed : Instr → Bool
  | .enc _ => true
  | .vack _ => true
  | .dec _ _ _ => true
  | .sndack _ => true
  | .rdrsp _ _ => true
  | .openSession => true
  | .closeSession => true
  | .wrctrl _ => true
  -- FRAME.CMD is built by ENC, which refuses more than MAX_PAYLOAD bytes (40_codec_ops.md R132).
  | .frameCmd payload => decide (payload.length ≤ Machine.params.maxPayload)
  -- FRAME.RSP: LEN is one byte and counts the direction byte too (30_encoding.md R93).
  | .frameRsp payload => decide (payload.length + Machine.params.lenBias ≤ 255)
  | .frameAck => true
  -- ENVELOPE: one data read holds at most MAX_READ inner bytes (10_state.md R34, 41_handshake_ops.md R156).
  | .envelope _ inner _ => decide (inner.length ≤ Machine.params.maxRead)

/-- The same as a proposition. -/
abbrev WellFormed (i : Instr) : Prop := i.wellFormed = true

end Sys2Proof
end

