-- ==== Sys2Proof/Decode.lean ====
section
/-! DEFINITION. The host's issue port as bytes: a total decoder that rejects by name, and after it the encoder.

The spec gives each operation a 3-bit select code (30_encoding.md R107), says that byte-sequence operands "are passed as
a length and the bytes in index order" (R108) and gives the wire formats as bytes (R91, R99, R101). What it leaves open
is the model's container (log entry 9): one lead byte, whose bits 2:0 are the select code and whose bits 7:3 are 0 for an
operation, and which is 08, 09 or 0A before a wire format of the table's classes FRAME, ACK, ENVELOPE; natural numbers in
7-bit groups, least significant first; 32-bit timeouts in four bytes, least significant first. -/

namespace Sys2Proof

open Machine

/-- Why bytes at the issue port are rejected. -/
inductive DecodeError where
  /-- The bytes end inside an item. -/
  | truncated
  /-- A lead byte that is neither a select code nor a wire-format lead. -/
  | unknownLead (b : Byte)
  /-- A natural number with a leading zero group: it has a shorter spelling. -/
  | nonCanonicalNat
  /-- `DEC`'s check operand is one bit, so 0 or 1 (30_encoding.md R108). -/
  | badCheckOperand (b : Byte)
  /-- A Frame's first byte is not `PREAMBLE` (30_encoding.md R96 (b)). -/
  | badPreamble
  /-- A Frame's start code is not `START1`, `START2` (30_encoding.md R96 (b)). -/
  | badStartCode
  /-- A Frame's direction byte is neither `TFI_H2D` nor `TFI_D2H` (30_encoding.md R96 (e)). -/
  | badDirection
  /-- A Frame's `LEN` does not cover its direction byte (30_encoding.md R96 (c)). -/
  | lengthTooSmall
  /-- `LEN + LCS` is not 0 mod 256 (30_encoding.md R96 (d)). -/
  | badLengthChecksum
  /-- Direction, payload and `DCS` do not sum to 0 mod 256 (30_encoding.md R96 (f)). -/
  | badPayloadChecksum
  /-- A Frame's last byte is not `POSTAMBLE` (30_encoding.md R96 (g)). -/
  | badPostamble
  /-- A command frame with more than `MAX_PAYLOAD` payload bytes: `ENC` builds none (40_codec_ops.md R132). -/
  | payloadTooLong
  /-- Six bytes that are not `ACK_PATTERN` (30_encoding.md R100). -/
  | notAck
  /-- An envelope of more than `MAX_READ` inner bytes. -/
  | envelopeTooLong
  deriving DecidableEq, Repr

/-- A decoded value with the bytes that follow it, or the reason there is none. -/
abbrev Parse (α : Type) := Except DecodeError (α × List Byte)

/-- The next `n` bytes. -/
def takeBytes (n : Nat) (bs : List Byte) : Parse (List Byte) :=
  if n ≤ bs.length then .ok (bs.take n, bs.drop n) else .error .truncated

/-- A natural number in 7-bit groups, least significant first; bit 7 of a byte says that another group follows. -/
def decodeNat : List Byte → Parse Nat
  | [] => .error .truncated
  | b :: bs =>
    if b.toNat < 128 then .ok (b.toNat, bs)
    else
      match decodeNat bs with
      | .error e => .error e
      | .ok (m, rest) => if m = 0 then .error .nonCanonicalNat else .ok (b.toNat - 128 + 128 * m, rest)

/-- A byte sequence: its length and then its bytes in index order (30_encoding.md R108). -/
def decodeSeq (bs : List Byte) : Parse (List Byte) :=
  match decodeNat bs with
  | .error e => .error e
  | .ok (n, rest) => takeBytes n rest

/-- An unsigned 32-bit operand (00_scope.md R12) in four bytes, least significant first. -/
def decodeU32 : List Byte → Parse (BitVec 32)
  | a :: b :: c :: d :: rest => .ok (d ++ c ++ b ++ a, rest)
  | _ => .error .truncated

/-- `DEC`'s check operand (30_encoding.md R108: "one bit"). -/
def decodeCheck : List Byte → Parse Bool
  | [] => .error .truncated
  | b :: rest =>
    if b = 0#8 then .ok (false, rest) else if b = 1#8 then .ok (true, rest) else .error (.badCheckOperand b)

/-- The part of a Frame after its six leading bytes: payload, `DCS`, postamble (30_encoding.md R91, R96 (f), (g)). -/
def decodeFrameTail (P : Params) (tfi : Byte) (n : Nat) (bs : List Byte) : Parse (List Byte) :=
  match takeBytes n bs with
  | .error e => .error e
  | .ok (payload, dcs :: post :: rest) =>
    if dcs ≠ dcsByte tfi payload then .error .badPayloadChecksum
    else if post ≠ P.postamble then .error .badPostamble
    else .ok (payload, rest)
  | .ok (_, _) => .error .truncated

/-- A Frame: every clause of 30_encoding.md R96, its direction byte telling a command frame from a response frame. -/
def decodeFrame (P : Params) : List Byte → Parse Instr
  | pre :: s1 :: s2 :: len :: lcs :: tfi :: rest =>
    if pre ≠ P.preamble then .error .badPreamble
    else if s1 ≠ P.start1 ∨ s2 ≠ P.start2 then .error .badStartCode
    else if len.toNat < P.lenBias then .error .lengthTooSmall
    else if lcs ≠ lcsByte len then .error .badLengthChecksum
    else if tfi ≠ P.tfiH2D ∧ tfi ≠ P.tfiD2H then .error .badDirection
    else
      match decodeFrameTail P tfi (len.toNat - P.lenBias) rest with
      | .error e => .error e
      | .ok (payload, rest') =>
        if tfi = P.tfiH2D then
          if payload.length ≤ P.maxPayload then .ok (.frameCmd payload, rest') else .error .payloadTooLong
        else .ok (.frameRsp payload, rest')
  | _ => .error .truncated

/-- An ACK frame, compared byte for byte (30_encoding.md R99, R100). -/
def decodeAck (P : Params) (bs : List Byte) : Parse Instr :=
  match takeBytes P.ackLen bs with
  | .error e => .error e
  | .ok (x, rest) => if ackMatches P x then .ok (.frameAck, rest) else .error .notAck

/-- A read envelope of a stated number of inner bytes (30_encoding.md R101). -/
def decodeEnvelopeItem (P : Params) (bs : List Byte) : Parse Instr :=
  match decodeNat bs with
  | .error e => .error e
  | .ok (_, []) => .error .truncated
  | .ok (n, status :: rest) =>
    match takeBytes n rest with
    | .error e => .error e
    | .ok (_, []) => .error .truncated
    | .ok (inner, pad :: rest') =>
      if inner.length ≤ P.maxRead then .ok (.envelope status inner pad, rest') else .error .envelopeTooLong

/-- The operands of one item after its lead byte. Lead bytes 0 to 7 are the select codes of 30_encoding.md R107, each the
`match` of its row of spec/opcode_table.json. -/
def decodeBody (lead : Byte) (bs : List Byte) : Parse Instr :=
  match lead.toNat with
  | 0 =>
    match decodeSeq bs with
    | .error e => .error e
    | .ok (payload, rest) => .ok (.enc payload, rest)
  | 1 =>
    match decodeSeq bs with
    | .error e => .error e
    | .ok (x, rest) => .ok (.vack x, rest)
  | 2 =>
    match decodeSeq bs with
    | .error e => .error e
    | .ok (x, rest) =>
      match decodeNat rest with
      | .error e => .error e
      | .ok (n, rest') =>
        match decodeCheck rest' with
        | .error e => .error e
        | .ok (c, rest'') => .ok (.dec x n c, rest'')
  | 3 =>
    match decodeU32 bs with
    | .error e => .error e
    | .ok (t, rest) => .ok (.sndack t, rest)
  | 4 =>
    match decodeNat bs with
    | .error e => .error e
    | .ok (n, rest) =>
      match decodeU32 rest with
      | .error e => .error e
      | .ok (t, rest') => .ok (.rdrsp n t, rest')
  | 5 => .ok (.openSession, bs)
  | 6 => .ok (.closeSession, bs)
  | 7 =>
    match bs with
    | [] => .error .truncated
    | v :: rest => .ok (.wrctrl v, rest)
  | 8 => decodeFrame params bs
  | 9 => decodeAck params bs
  | 10 => decodeEnvelopeItem params bs
  | _ => .error (.unknownLead lead)

/-- The first item of the bytes at the issue port, with the bytes after it. -/
def decode : List Byte → Parse Instr
  | [] => .error .truncated
  | lead :: bs => decodeBody lead bs

/-! ### The encoder -/

/-- 7-bit groups of `n`; the first argument bounds their number. -/
def encodeNatGroups : Nat → Nat → List Byte
  | 0, n => [BitVec.ofNat 8 n]
  | k + 1, n => if n < 128 then [BitVec.ofNat 8 n] else BitVec.ofNat 8 (128 + n % 128) :: encodeNatGroups k (n / 128)

/-- A natural number in 7-bit groups, least significant first. -/
def encodeNat (n : Nat) : List Byte := encodeNatGroups n n

/-- A byte sequence: its length and its bytes (30_encoding.md R108). -/
def encodeSeq (bs : List Byte) : List Byte := encodeNat bs.length ++ bs

/-- Four bytes, least significant first. -/
def encodeU32 (t : BitVec 32) : List Byte :=
  [t.extractLsb' 0 8, t.extractLsb' 8 8, t.extractLsb' 16 8, t.extractLsb' 24 8]

/-- `DEC`'s check operand. -/
def encodeCheck (c : Bool) : List Byte := if c then [1#8] else [0#8]

/-- The bytes of an instruction at the issue port. -/
def encode : Instr → List Byte
  | .enc payload => 0#8 :: encodeSeq payload
  | .vack x => 1#8 :: encodeSeq x
  | .dec x n c => 2#8 :: (encodeSeq x ++ encodeNat n ++ encodeCheck c)
  | .sndack t => 3#8 :: encodeU32 t
  | .rdrsp n t => 4#8 :: (encodeNat n ++ encodeU32 t)
  | .openSession => [5#8]
  | .closeSession => [6#8]
  | .wrctrl v => [7#8, v]
  | .frameCmd payload => 8#8 :: encodeFrame params payload
  | .frameRsp payload => 8#8 :: buildFrame params params.tfiD2H payload
  | .frameAck => 9#8 :: params.ackPattern
  | .envelope status inner pad => 10#8 :: (encodeNat inner.length ++ buildEnvelope status inner pad)

/-! ### Words of the opcode table -/

/-- Byte `j` of a table word is its bits `8j+7 .. 8j`: transmission order (30_encoding.md R117). -/
def wordBytes (count w : Nat) : List Byte := (List.range count).map fun j => BitVec.ofNat 8 (w >>> (8 * j))

/-- Eight zero bytes: more than the longest operation has after its lead byte when every operand is zero. -/
def zeroOperands : List Byte := List.replicate 8 0#8

/-- Whether six leading bytes are under the table's `match` and `mask` for FRAME.CMD or FRAME.RSP. -/
def looksLikeFrame (P : Params) (bs : List Byte) : Bool :=
  bs[0]? == some P.preamble && bs[1]? == some P.start1 && bs[2]? == some P.start2
    && (bs[5]? == some P.tfiH2D || bs[5]? == some P.tfiD2H)

/-- The Frame a FRAME row's word stands for. The row's `mask` gives no bits to `LEN` and `LCS`, nor has it any for `DCS`:
they are computed fields, not operands (30_encoding.md R109). A word that leaves `LEN` and `LCS` zero, which no Frame has
(R96 (c)), stands for the row with an empty payload; any other is taken byte for byte (log entry 9). -/
def rowFrame (P : Params) (bs : List Byte) : List Byte :=
  if bs[3]? = some 0#8 ∧ bs[4]? = some 0#8 then buildFrame P (bs[5]?.getD P.tfiH2D) [] else bs

/-- The bytes at the issue port for a word of the table's ACK or FRAME rows. -/
def wireImage (P : Params) (bs : List Byte) : Option (List Byte) :=
  if ackMatches P bs then some (9#8 :: (bs ++ zeroOperands))
  else if looksLikeFrame P bs then some (8#8 :: (rowFrame P bs ++ zeroOperands))
  else none

/-- The bytes at the issue port for a row of spec/opcode_table.json whose given bits are `w`, `nbits` of them, every
later bit 0. One byte or less is a select code, 3 bits under the table's mask (format OPSEL, 30_encoding.md R116); more is
a wire format: ACK, FRAME, or else ENVELOPE, whose first and last byte are the status prefix and the pad. The table writes
ACK and FRAME rows as strings of bytes, first byte leftmost (R117); a word that numbers such a string from its right end is
read too. -/
def tableImage (nbits w : Nat) : List Byte :=
  if nbits ≤ 8 then BitVec.ofNat 8 (w % 8) :: zeroOperands
  else
    match wireImage params (wordBytes ((nbits + 7) / 8) w) with
    | some image => image
    | none =>
      match wireImage params (wordBytes ((nbits + 7) / 8) w).reverse with
      | some image => image
      | none => 10#8 :: (encodeNat ((nbits + 7) / 8 - 2) ++ wordBytes ((nbits + 7) / 8) w ++ zeroOperands)

/-- The instruction the decoder reads from a row's word (bit 0 is the least significant bit of its first byte). -/
def decodeTableWord (nbits w : Nat) : Option Instr :=
  match decode (tableImage nbits w) with
  | .ok (i, _) => some i
  | .error _ => none

end Sys2Proof
end

