-- ==== Sys2Proof/Machine/State.lean ====
section
/-! DEFINITION. The machine's state: the block's registers and buffers (10_state.md), the environment's side of the
transport (20_memory.md R61, R66), the host's side (70_reset_and_hazards.md R262), the reasons a step or a host read stops,
and the state after reset (70_reset_and_hazards.md R241). -/

namespace Sys2Proof.Machine

/-- `HS_STATE`, the seven values of 10_state.md R37 (code 7 is reserved and never produced: no constructor). -/
inductive HsState where
  | idle
  | sending
  | awaitingAck
  | awaitingResponse
  | done
  | timedOut
  | busError
  deriving DecidableEq, Repr

/-- `RESULT`, the seven results of 30_encoding.md R113 (code 7 is reserved and never produced: no constructor). -/
inductive ResultCode where
  | ok
  | timedOut
  | busError
  | ackMismatch
  | shortRead
  | checksumMismatch
  | refused
  deriving DecidableEq, Repr

/-- The value an operation returns to the host beside its result (00_scope.md R19). -/
inductive RetVal where
  | noValue
  | flag (b : Bool)
  | bytes (bs : List Byte)
  deriving DecidableEq, Repr

/-- A byte buffer: index and byte pairs, indexes strictly rising. An index that is not listed has not been written and
reads as no value (10_state.md R31, R34; 70_reset_and_hazards.md R242; log entry 8). -/
abbrev Memory := List Host.Cell

/-- The environment's side of the transport, as far as it is laid down (20_memory.md R49, R66; log entry 3). Each list
is oldest first; past its end the oracle of Config answers. `rx` holds what the device offers to the coming reads: one
entry ends one read's answer, and a read takes at most the bytes it asked for, the rest staying offered. -/
structure Env where
  rx : List ReadAns
  opens : List Bool
  addresses : List Bool
  writes : List Bool
  deriving DecidableEq, Repr

/-- The reset input (70_reset_and_hazards.md R240; log entry 13): none, before the next operation, or during the next
operation, after that many of its transport calls and sleeps. -/
inductive ResetIn where
  | none
  | atBoundary
  | during (calls : Nat)
  deriving DecidableEq, Repr

/-- The whole machine. The block's own state is the fields up to `rxBuf`. -/
structure State where
  /-- `HS_STATE` (10_state.md R36, R37) -/
  hsState : HsState
  /-- `SESSION_OPEN` (10_state.md R40) -/
  sessionOpen : Bool
  /-- `TXVALID` (10_state.md R33) -/
  txValid : Bool
  /-- `RSPVALID` (10_state.md R35) -/
  rspValid : Bool
  /-- `TXLEN` (10_state.md R32) -/
  txLen : Nat
  /-- `RXLEN` (10_state.md R35) -/
  rxLen : Nat
  /-- `RSPLEN` (10_state.md R35) -/
  rspLen : Nat
  /-- `ELAPSED`, "a model should make it a natural number" (10_state.md R45) -/
  elapsed : Nat
  /-- `RESULT` (10_state.md R39) -/
  result : ResultCode
  /-- `CTRL` (10_state.md R41) -/
  ctrl : BitVec 8
  /-- `TXBUF` (10_state.md R31) -/
  txBuf : Memory
  /-- `RXBUF` (10_state.md R34) -/
  rxBuf : Memory
  /-- The value the most recent operation returned (00_scope.md R19; the model's own field, log entry 6). -/
  value : RetVal
  /-- The environment's script (the environment's, not the block's). -/
  env : Env
  /-- The transport calls and sleeps made so far with their answers, newest first (60_exceptions.md R222,
  70_reset_and_hazards.md R262). -/
  history : List Event
  /-- The bytes of the operations the host has yet to issue (70_reset_and_hazards.md R262; log entry 5). -/
  issue : List Byte
  /-- The reset input (the outside world's). -/
  resetIn : ResetIn
  /-- The model's own counter of free bytes used (log entry 11). -/
  freeCtr : Nat
  deriving DecidableEq, Repr

/-- Why a host read of a buffer stops (70_reset_and_hazards.md R242, 93_implementation_defined.md U1, U2). Raised by
`State.readTx` and `State.readRx` (Machine/Ops.lean) and by nothing else: no step ends in a fault (60_exceptions.md R232:
"None of the seven results is a crash of the block"). Every one is safe: the model gives no value where the spec gives
none. -/
inductive Fault where
  /-- A host read of a `TXBUF` byte that `TXVALID` and `TXLEN` do not cover. Safe. -/
  | unwrittenTx (index : Nat)
  /-- A host read of an `RXBUF` byte that `RSPVALID` does not cover, outside the two diagnostic cases. Safe. -/
  | unwrittenRx (index : Nat)
  /-- A host read at an index outside the buffer (20_memory.md R63). Safe. -/
  | outsideBuffer (index : Nat)
  deriving DecidableEq, Repr

/-- Why a step gives an instruction no meaning. Raised by `exec`'s dispatch (an instruction without a meaning yet: none is
left) and by `step` (bytes at the issue port that are no instruction). -/
inductive Refusal where
  /-- Raised by `exec`: no meaning for this instruction yet. Safe. -/
  | notModelled (mnemonic : String)
  /-- Raised by `step`: the host's bytes do not decode, for the reason named. Safe: nothing is done. -/
  | undecodable (why : DecodeError)
  deriving DecidableEq, Repr

/-- The state after reset, the table of 70_reset_and_hazards.md R241: `Idle`, no session, nothing valid, every length and
counter 0, `RESULT = Ok`, `CTRL = 0`, both buffers unwritten. The environment has laid nothing down, no call has been
made and the host has nothing to issue (log entries 3, 5, 6, 11, 13). -/
def State.reset : State where
  hsState := .idle
  sessionOpen := false
  txValid := false
  rspValid := false
  txLen := 0
  rxLen := 0
  rspLen := 0
  elapsed := 0
  result := .ok
  ctrl := if params.chkEnReset then 1#8 else 0#8
  txBuf := []
  rxBuf := []
  value := .noValue
  env := { rx := [], opens := [], addresses := [], writes := [] }
  history := []
  issue := []
  resetIn := .none
  freeCtr := 0

end Sys2Proof.Machine
end

