-- ==== Sys2Proof/Machine/Ops.lean ====
section
/-! DEFINITION. The shared operations: buffer access, the five transport primitives and `Sleep`, ending an operation, the
error entry, reset of the block, and the host's register and buffer reads. -/

namespace Sys2Proof.Machine

/-! ### Buffers (20_memory.md R61, R63, R68) -/

/-- The byte written last at index `a`, if any was. -/
def Memory.read : Memory → Nat → Option Byte
  | [], _ => none
  | (k, b) :: m, a => if a = k then some b else Memory.read m a

/-- `BUF[a] <- v` (00_scope.md R17), keeping the indexes strictly rising. -/
def Memory.write : Memory → Nat → Byte → Memory
  | [], a, v => [(a, v)]
  | (k, b) :: m, a, v =>
    if a < k then (a, v) :: (k, b) :: m else if a = k then (a, v) :: m else (k, b) :: Memory.write m a v

/-- Bytes stored in arrival order from index `a` on (20_memory.md R68). -/
def Memory.writeSeq : Memory → Nat → List Byte → Memory
  | m, _, [] => m
  | m, a, b :: bs => Memory.writeSeq (m.write a b) (a + 1) bs

/-- `BUF[a .. a+n-1]`. An index nothing has written gives the free value; no rule of the block makes such a read
(70_reset_and_hazards.md R242). -/
def Memory.slice (unwritten : Nat → Byte) (m : Memory) (a : Nat) : Nat → List Byte
  | 0 => []
  | n + 1 => (m.read a).getD (unwritten a) :: Memory.slice unwritten m (a + 1) n

/-- The canonical form: indexes strictly rising. An unlisted index has no value, so no entry can equal it. -/
abbrev Memory.wf (m : Memory) : Prop := (m.map Prod.fst).Pairwise (· < ·)

/-- The first `n` bytes of `TXBUF`, in index order. -/
def State.txBytes (s : State) (n : Nat) : List Byte := s.txBuf.slice Config.unwrittenTx 0 n

/-- `RXBUF[a .. a+n-1]`. -/
def State.rxBytes (s : State) (a n : Nat) : List Byte := s.rxBuf.slice Config.unwrittenRx a n

/-! ### Transport primitives (00_scope.md R18, 20_memory.md R60, R64 to R67, R75)

Each makes one call: it is recorded in the history with its answer before anything else happens. -/

/-- An answer of at most `n` bytes: a longer one is outside the interface (20_memory.md R64). -/
def ReadAns.clip (n : Nat) : ReadAns → ReadAns
  | .err => .err
  | .bytes bs => .bytes (bs.take n)

/-- What `MemRead(RX, n)` yields here and now. -/
def State.readAns (s : State) (n : Nat) : ReadAns :=
  match s.env.rx with
  | a :: _ => ReadAns.clip n a
  | [] => ReadAns.clip n (Config.oracleRead s.history n)

/-- What is still offered after a read of `n` bytes: the entry is used up, or its tail stays. -/
def restOffered (n : Nat) : List ReadAns → List ReadAns
  | [] => []
  | .err :: rest => rest
  | .bytes bs :: rest => if bs.length ≤ n then rest else .bytes (bs.drop n) :: rest

/-- `MemRead(RX, n)`: the call itself; what it yields is `State.readAns`. -/
def State.memRead (P : Params) (n : Nat) (s : State) : State :=
  { s with
    env := { s.env with rx := restOffered n s.env.rx }
    history := .read P.busId n (s.readAns n) :: s.history }

/-- What `MemWrite(TX, n, v)` yields here and now. -/
def State.writeAns (s : State) (v : List Byte) : Bool :=
  match s.env.writes with
  | b :: _ => b
  | [] => Config.oracleWrite s.history v

/-- `MemWrite(TX, n, v)`. -/
def State.memWrite (P : Params) (v : List Byte) (s : State) : State :=
  { s with
    env := { s.env with writes := s.env.writes.tail }
    history := .write P.busId v (s.writeAns v) :: s.history }

/-- What `TOpen()` yields here and now. -/
def State.openAns (s : State) : Bool :=
  match s.env.opens with
  | b :: _ => b
  | [] => Config.oracleOpen s.history

/-- `TOpen()`. -/
def State.tOpen (P : Params) (s : State) : State :=
  { s with
    env := { s.env with opens := s.env.opens.tail }
    history := .busOpen P.busId s.openAns :: s.history }

/-- What `TSetAddr()` yields here and now. -/
def State.addrAns (s : State) : Bool :=
  match s.env.addresses with
  | b :: _ => b
  | [] => Config.oracleSetAddress s.history

/-- `TSetAddr()`. -/
def State.tSetAddr (P : Params) (s : State) : State :=
  { s with
    env := { s.env with addresses := s.env.addresses.tail }
    history := .setAddress P.busId P.devAddr s.addrAns :: s.history }

/-- `TClose()`: no result, cannot fail (20_memory.md R65). -/
def State.tClose (P : Params) (s : State) : State := { s with history := .busClose P.busId :: s.history }

/-- `Sleep(TICK_MS); ELAPSED <- ELAPSED + TICK_MS`: the two always stand together (41_handshake_ops.md R153). -/
def State.sleepTick (P : Params) (s : State) : State :=
  { s with elapsed := s.elapsed + P.tickMs, history := .sleep P.tickMs :: s.history }

/-! ### Ending an operation -/

/-- An operation's result and the value it returns: the last thing every operation does (10_state.md R39). -/
def State.finish (r : ResultCode) (v : RetVal) (s : State) : State := { s with result := r, value := v }

/-- The two results that are raised (60_exceptions.md R221). -/
inductive Raised where
  | timedOut
  | busError
  deriving DecidableEq, Repr

/-- How a procedure inside an operation ends (41_handshake_ops.md R158): it returns, or it raises. -/
inductive ProcOut where
  | returned (s : State)
  | raised (e : Raised) (s : State)
  deriving DecidableEq, Repr

/-- The session's end on a `BusError`: one `close`, only if the session was open (60_exceptions.md R221, D27). -/
def State.tearDown (P : Params) (s : State) : State := if s.sessionOpen then s.tClose P else s

/-- TAKING AN ERROR: the error entry of 60_exceptions.md R221, shared by `SNDACK` and `RDRSP`. `RXBUF` becomes unwritten:
its content is unspecified after `TimedOut` and `BusError` (10_state.md R34, 92_eei_decisions.md D28; log entry 8). There
is no return from it: the host goes on by issuing its next operation (60_exceptions.md R223). -/
def State.errorEntry (P : Params) (e : Raised) (s : State) : State :=
  match e with
  | .timedOut => { s with hsState := .timedOut, result := .timedOut, value := .noValue, rxBuf := [] }
  | .busError =>
    { s.tearDown P with
      sessionOpen := false, txValid := false, rspValid := false
      hsState := .busError, result := .busError, value := .noValue, rxBuf := [] }

/-- `CTRL.CHK_EN` (10_state.md R41). -/
def State.chkEn (s : State) : Bool := s.ctrl.getLsbD 0

/-! ### Reset (70_reset_and_hazards.md R240 to R243) -/

/-- Reset of the block: every piece of 10_state.md at the value of R241. "Reset makes **no transport call**" (R240) and
"The environment is not reset" (R243): the environment, the history, what the host still has to issue and the model's
counter stay. -/
def State.resetBlock (s : State) : State :=
  { State.reset with env := s.env, history := s.history, issue := s.issue, freeCtr := s.freeCtr }

/-- What one transport call uses up of the environment's script. -/
def Env.after (v : Env) (e : Event) : Env :=
  match e with
  | .busOpen _ _ => { v with opens := v.opens.tail }
  | .setAddress _ _ _ => { v with addresses := v.addresses.tail }
  | .write _ _ _ => { v with writes := v.writes.tail }
  | .read _ n _ => { v with rx := restOffered n v.rx }
  | .busClose _ => v
  | .sleep _ => v

/-- A reset that arrives during an operation that would have led from `s` to `t`, after `calls` of its transport calls and
sleeps: the operation is abandoned, "the transport calls already made stay in the history; state becomes the reset state"
(93_implementation_defined.md U16). An operation that makes no more calls than that has made all of them. -/
def State.abandon (calls : Nat) (s t : State) : State :=
  if t.history.length - s.history.length ≤ calls then t.resetBlock
  else
    { t.resetBlock with
      history := t.history.drop (t.history.length - s.history.length - calls)
      env := ((t.history.take (t.history.length - s.history.length)).reverse.take calls).foldl Env.after s.env
      freeCtr := s.freeCtr }

/-! ### What the host reads at an operation boundary (42_session_ops.md R186) -/

/-- The code of `HS_STATE` (10_state.md R37). -/
def HsState.code : HsState → Nat
  | .idle => 0
  | .sending => 1
  | .awaitingAck => 2
  | .awaitingResponse => 3
  | .done => 4
  | .timedOut => 5
  | .busError => 6

/-- The states the block can be in between operations (10_state.md R37). -/
def HsState.resting : HsState → Bool
  | .sending => false
  | .awaitingAck => false
  | _ => true

/-- The code of `RESULT` (30_encoding.md R113). -/
def ResultCode.code : ResultCode → Nat
  | .ok => 0
  | .timedOut => 1
  | .busError => 2
  | .ackMismatch => 3
  | .shortRead => 4
  | .checksumMismatch => 5
  | .refused => 6

/-- `STATUS`, the derived view of 10_state.md R44: `HS_STATE` in bits 2:0, `SESSION_OPEN` 3, `TXVALID` 4, `RSPVALID` 5. -/
def State.status (s : State) : BitVec 8 :=
  BitVec.ofNat 8 s.hsState.code ||| (BitVec.ofBool s.sessionOpen).zeroExtend 8 <<< 3
    ||| (BitVec.ofBool s.txValid).zeroExtend 8 <<< 4 ||| (BitVec.ofBool s.rspValid).zeroExtend 8 <<< 5

/-- The numbered registers of 10_state.md R43. -/
inductive HostReg where
  | ctrl
  | status
  | result
  | elapsed
  | txLen
  | rxLen
  | rspLen
  deriving DecidableEq, Repr

/-- A register's number (10_state.md R43). -/
def HostReg.number : HostReg → Nat
  | .ctrl => 0
  | .status => 1
  | .result => 2
  | .elapsed => 3
  | .txLen => 4
  | .rxLen => 5
  | .rspLen => 6

/-- The host's read of a register: no side effect, no operation needed (42_session_ops.md R186). `CTRL[7:1]` reads as 0
(10_state.md R41). -/
def State.readReg (s : State) : HostReg → Nat
  | .ctrl => (s.ctrl &&& 0x01#8).toNat
  | .status => s.status.toNat
  | .result => s.result.code
  | .elapsed => s.elapsed
  | .txLen => s.txLen
  | .rxLen => s.rxLen
  | .rspLen => s.rspLen

/-- The host's read of `TXBUF[i]`: covered by `TXVALID` up to `TXLEN` (10_state.md R31, R33; U1, U2). -/
def State.readTx (P : Params) (s : State) (i : Nat) : Except Fault Byte :=
  if P.maxPayload + 8 ≤ i then .error (.outsideBuffer i)
  else if s.txValid && decide (i < s.txLen) then
    match s.txBuf.read i with
    | some b => .ok b
    | none => .error (.unwrittenTx i)
  else .error (.unwrittenTx i)

/-- Which indexes of `RXBUF` the host may read (10_state.md R34, R35; 92_eei_decisions.md D28): the inner bytes of a
response while `RSPVALID = 1`; after `AckMismatch` or `RDRSP`'s `ChecksumMismatch`, which leave `HS_STATE = Done` with
`RSPVALID = 0` and are alone in doing so (log entry 14), all `RXLEN` bytes just collected; nothing else. -/
def State.rxReadable (P : Params) (s : State) (i : Nat) : Bool :=
  if s.rspValid then decide (P.envPre ≤ i) && decide (i < P.envPre + s.rspLen)
  else s.hsState == .done && decide (i < s.rxLen)

/-- The host's read of `RXBUF[i]`. -/
def State.readRx (P : Params) (s : State) (i : Nat) : Except Fault Byte :=
  if P.maxRead + P.envPre + P.envPost ≤ i then .error (.outsideBuffer i)
  else if s.rxReadable P i then
    match s.rxBuf.read i with
    | some b => .ok b
    | none => .error (.unwrittenRx i)
  else .error (.unwrittenRx i)

end Sys2Proof.Machine
end

