-- ==== Sys2Proof/Machine/Codec.lean ====
section
/-! DEFINITION. The Frame Codec operations ENC, VACK, DEC (40_codec_ops.md R130 to R142). -/

namespace Sys2Proof.Machine

/-- `ENC(payload)` over any parameters (40_codec_ops.md R131, R132). -/
def encOp (P : Params) (payload : List Byte) (s : State) : State :=
  if P.maxPayload < payload.length then s.finish .refused .noValue
  else
    State.finish .ok (.bytes (encodeFrame P payload))
      { s with
        txBuf := s.txBuf.writeSeq 0 (encodeFrame P payload)
        txLen := (encodeFrame P payload).length
        txValid := true }

/-- `VACK(bytes)` (40_codec_ops.md R134): the answer is a value, the result always `Ok`. -/
def vackOp (P : Params) (bytes : List Byte) (s : State) : State := s.finish .ok (.flag (ackMatches P bytes))

/-- `DEC(bytes, expected_len, check)` (40_codec_ops.md R135): `RESULT <- kind of r; return r`. -/
def decOp (P : Params) (bytes : List Byte) (expectedLen : Nat) (check : Bool) (s : State) : State :=
  match decodeEnvelope P bytes expectedLen check with
  | .ok x => s.finish .ok (.bytes x)
  | .shortRead => s.finish .shortRead .noValue
  | .checksumMismatch => s.finish .checksumMismatch .noValue

/-- `ENC`. -/
def execEnc (payload : List Byte) (s : State) : Host.Outcome State Fault Refusal := .next (encOp params payload s)

/-- `VACK`. -/
def execVack (bytes : List Byte) (s : State) : Host.Outcome State Fault Refusal := .next (vackOp params bytes s)

/-- `DEC`. -/
def execDec (bytes : List Byte) (expectedLen : Nat) (check : Bool) (s : State) : Host.Outcome State Fault Refusal :=
  .next (decOp params bytes expectedLen check s)

end Sys2Proof.Machine
end

