-- ==== Sys2Proof/Machine/Handshake.lean ====
section
/-! DEFINITION. The Transport Handshake: `WaitReady`, `Collect`, SNDACK, RDRSP (41_handshake_ops.md R150 to R172). -/

namespace Sys2Proof.Machine

/-- The loop of `WaitReady(T)` (41_handshake_ops.md R154). The first argument bounds the passes; `T + 1` are enough,
since every pass but the last adds a tick (R155 (f)), so the bound itself never ends the loop. -/
def waitReadyLoop (P : Params) (T : Nat) : Nat → State → ProcOut
  | 0, s => .raised .timedOut s
  | k + 1, s =>
    match s.readAns P.pollLen with
    | .err => .raised .busError (s.memRead P P.pollLen)
    | .bytes r =>
      if isReady P r then .returned (s.memRead P P.pollLen)
      else if T < ((s.memRead P P.pollLen).sleepTick P).elapsed then
        .raised .timedOut ((s.memRead P P.pollLen).sleepTick P)
      else waitReadyLoop P T k ((s.memRead P P.pollLen).sleepTick P)

/-- `WaitReady(T)` (41_handshake_ops.md R154). -/
def waitReady (P : Params) (T : Nat) (s : State) : ProcOut := waitReadyLoop P T (T + 1) { s with elapsed := 0 }

/-- `RXBUF[RXLEN + i] <- r[i]` for every byte, then `RXLEN <- RXLEN + len(r)` (41_handshake_ops.md R156). -/
def State.accumulate (r : List Byte) (s : State) : State :=
  { s with rxBuf := s.rxBuf.writeSeq s.rxLen r, rxLen := s.rxLen + r.length }

/-- The loop of `Collect(need, T)` (41_handshake_ops.md R156, 90_conflicts.md C3). The first argument bounds the passes;
`need + T + 2` are enough, since every pass stores a byte, adds a tick or ends (R157 (c)). -/
def collectLoop (P : Params) (need T : Nat) : Nat → State → ProcOut
  | 0, s => .raised .timedOut s
  | k + 1, s =>
    if need ≤ s.rxLen then .returned s
    else
      match s.readAns (need - s.rxLen) with
      | .err => .raised .busError (s.memRead P (need - s.rxLen))
      | .bytes [] =>
        if T < ((s.memRead P (need - s.rxLen)).sleepTick P).elapsed then
          .raised .timedOut ((s.memRead P (need - s.rxLen)).sleepTick P)
        else collectLoop P need T k ((s.memRead P (need - s.rxLen)).sleepTick P)
      | .bytes (b :: bs) => collectLoop P need T k ((s.memRead P (need - s.rxLen)).accumulate (b :: bs))

/-- `Collect(need, T)` (41_handshake_ops.md R156): `ELAPSED` carries over from `WaitReady`. -/
def collect (P : Params) (need T : Nat) (s : State) : ProcOut :=
  collectLoop P need T (need + T + 2) { s with rxLen := 0 }

/-- `WaitReady(T)`, then `Collect(need, T)`: one wait and its data read, the shared middle of `SNDACK` and `RDRSP`. -/
def readData (P : Params) (need T : Nat) (s : State) : ProcOut :=
  match waitReady P T s with
  | .raised e s' => .raised e s'
  | .returned s' => collect P need T s'

/-- `SNDACK`'s ending when the ACK read is complete: rows T8 and T9 of 41_handshake_ops.md R151. -/
def ackVerdict (P : Params) (s : State) : State :=
  if ackMatches P (s.rxBytes P.envPre P.ackLen) then State.finish .ok .noValue { s with hsState := .awaitingResponse }
  else State.finish .ackMismatch .noValue { s with hsState := .done }

/-- `SNDACK` from the moment the frame has been written: rows T5 to T9 of 41_handshake_ops.md R151. -/
def awaitAck (P : Params) (T : Nat) (s : State) : State :=
  match readData P (P.ackLen + P.envPre + P.envPost) T { s with hsState := .awaitingAck } with
  | .raised e s' => s'.errorEntry P e
  | .returned s' => ackVerdict P s'

/-- `SNDACK`'s frame write: `HS_STATE` to `Idle` and at once to `Sending`, the whole frame in one call, and `TXVALID`
cleared whatever the answer (41_handshake_ops.md R160; 10_state.md R33). -/
def writeFrame (P : Params) (s : State) : State :=
  { State.memWrite P (s.txBytes s.txLen) { { s with hsState := .idle } with hsState := .sending } with
    txValid := false }

/-- `SNDACK(T)` (41_handshake_ops.md R160, R161). -/
def sndAckOp (P : Params) (T : Nat) (s : State) : State :=
  if s.txValid = false then s.finish .refused .noValue
  else if s.sessionOpen = false then State.errorEntry P .busError { s with rspValid := false }
  else if s.writeAns (s.txBytes s.txLen) = false then
    State.errorEntry P .busError (writeFrame P { s with rspValid := false })
  else awaitAck P T (writeFrame P { s with rspValid := false })

/-- `RDRSP`'s ending when the response read is complete: rows T14 and T15 of 41_handshake_ops.md R151. -/
def responseVerdict (P : Params) (n : Nat) (s : State) : State :=
  match decodeEnvelope P (s.rxBytes 0 s.rxLen) n s.chkEn with
  | .ok _ =>
    State.finish .ok (.bytes (s.rxBytes P.envPre n)) { s with hsState := .done, rspLen := n, rspValid := true }
  | .checksumMismatch => State.finish .checksumMismatch .noValue { s with hsState := .done }
  -- Cannot arise: `RXLEN = n + 2` (60_exceptions.md R215). The kind is the decoder's.
  | .shortRead => State.finish .shortRead .noValue { s with hsState := .done }

/-- `RDRSP(n, T)` (41_handshake_ops.md R164). -/
def rdRspOp (P : Params) (n T : Nat) (s : State) : State :=
  if s.hsState ≠ .awaitingResponse then s.finish .refused .noValue
  else if P.maxRead < n then s.finish .refused .noValue
  else
    match readData P (P.envPre + n + P.envPost) T { s with rspValid := false } with
    | .raised e s' => s'.errorEntry P e
    | .returned s' => responseVerdict P n s'

/-- `SNDACK`. -/
def execSndack (ackTimeoutMs : BitVec 32) (s : State) : Host.Outcome State Fault Refusal :=
  .next (sndAckOp params ackTimeoutMs.toNat s)

/-- `RDRSP`. -/
def execRdrsp (nBytes : Nat) (timeoutMs : BitVec 32) (s : State) : Host.Outcome State Fault Refusal :=
  .next (rdRspOp params nBytes timeoutMs.toNat s)

end Sys2Proof.Machine
end

