-- ==== Sys2Proof/Machine/Session.lean ====
section
/-! DEFINITION. The session and control operations OPEN, CLOSE, WRCTRL (42_session_ops.md R180 to R186). -/

namespace Sys2Proof.Machine

/-- `OPEN()` (42_session_ops.md R181): `open`, then `set_address`, then `close` if that failed. -/
def openOp (P : Params) (s : State) : State :=
  if s.sessionOpen then s.finish .refused .noValue
  else if s.openAns = false then
    State.finish .busError .noValue
      { s.tOpen P with txValid := false, rspValid := false, hsState := .busError }
  else if (s.tOpen P).addrAns = false then
    State.finish .busError .noValue
      { ((s.tOpen P).tSetAddr P).tClose P with txValid := false, rspValid := false, hsState := .busError }
  else
    State.finish .ok .noValue
      { (s.tOpen P).tSetAddr P with
        txValid := false, rspValid := false, sessionOpen := true, hsState := .idle }

/-- `CLOSE()` (42_session_ops.md R183). -/
def closeOp (P : Params) (s : State) : State :=
  State.finish .ok .noValue
    { s.tearDown P with sessionOpen := false, txValid := false, rspValid := false, hsState := .idle }

/-- `WRCTRL(v)`: `CTRL <- v & 0x01` (42_session_ops.md R185). -/
def wrctrlOp (v : Byte) (s : State) : State := State.finish .ok .noValue { s with ctrl := v &&& 0x01#8 }

/-- `OPEN`. -/
def execOpen (s : State) : Host.Outcome State Fault Refusal := .next (openOp params s)

/-- `CLOSE`. -/
def execClose (s : State) : Host.Outcome State Fault Refusal := .next (closeOp params s)

/-- `WRCTRL`. -/
def execWrctrl (v : Byte) (s : State) : Host.Outcome State Fault Refusal := .next (wrctrlOp v s)

end Sys2Proof.Machine
end

