-- ==== Sys2Proof/Machine/Wire.lean ====
section
/-! DEFINITION. The wire-format rows of the opcode table, each as the act of the format's builder (30_encoding.md R90,
column "built by"; log entry 10). `ENC` builds a command frame: FRAME.CMD is that `ENC`. The device builds a response
frame and an ACK frame: FRAME.RSP and FRAME.ACK are the device offering one, in its envelope (R101), with its ready bit
raised before it (20_memory.md R76: "the ready bit orders "device has data" before the data read"). The transport and the
device build an envelope: ENVELOPE is the bytes of one data read being offered. The last three touch nothing of the
block's own state (10_state.md R51); they lay down what coming reads may meet (20_memory.md R49, R66). -/

namespace Sys2Proof.Machine

/-- The environment adds to what it offers to the coming reads. -/
def State.offer (items : List ReadAns) (s : State) : State :=
  { s with env := { s.env with rx := s.env.rx ++ items } }

/-- What the device offers when it sends the frame `f`: a poll byte with the ready bit set, then the envelope. The poll
byte's other bits, the status prefix and the pad are free (93_implementation_defined.md U6). -/
def deviceSends (P : Params) (f : List Byte) (s : State) : State :=
  { s.offer
      [.bytes [Config.freeByte s.freeCtr ||| P.rdyMask],
       .bytes (buildEnvelope (Config.freeByte (s.freeCtr + 1)) f (Config.freeByte (s.freeCtr + 2)))] with
    freeCtr := s.freeCtr + 3 }

/-- FRAME.CMD, "built by ENC (R131)" (spec/opcode_table.json): the `ENC` that builds it. -/
def execFrameCmd (payload : List Byte) (s : State) : Host.Outcome State Fault Refusal :=
  .next (encOp params payload s)

/-- FRAME.RSP, "sent by the device" (spec/opcode_table.json; 30_encoding.md R90). -/
def execFrameRsp (payload : List Byte) (s : State) : Host.Outcome State Fault Refusal :=
  .next (deviceSends params (buildFrame params params.tfiD2H payload) s)

/-- FRAME.ACK, the frame "the device sends after accepting a command" (30_encoding.md R99). -/
def execFrameAck (s : State) : Host.Outcome State Fault Refusal := .next (deviceSends params params.ackPattern s)

/-- ENVELOPE, the "container of one data read" (30_encoding.md R90, R101). -/
def execEnvelope (status : Byte) (inner : List Byte) (pad : Byte) (s : State) : Host.Outcome State Fault Refusal :=
  .next (s.offer [.bytes (buildEnvelope status inner pad)])

end Sys2Proof.Machine
end

