-- ==== Sys2Proof/Machine/Dispatch.lean ====
section
/-! DEFINITION. One arm per constructor of Instr. -/

namespace Sys2Proof.Machine

def exec (i : Instr) (s : State) : Host.Outcome State Fault Refusal :=
  match i with
  -- Frame Codec
  | .enc payload => Sys2Proof.Machine.execEnc payload s
  | .vack bytes => Sys2Proof.Machine.execVack bytes s
  | .dec bytes expectedLen check => Sys2Proof.Machine.execDec bytes expectedLen check s
  -- Transport Handshake
  | .sndack ackTimeoutMs => Sys2Proof.Machine.execSndack ackTimeoutMs s
  | .rdrsp nBytes timeoutMs => Sys2Proof.Machine.execRdrsp nBytes timeoutMs s
  -- session and control
  | .openSession => Sys2Proof.Machine.execOpen s
  | .closeSession => Sys2Proof.Machine.execClose s
  | .wrctrl v => Sys2Proof.Machine.execWrctrl v s
  -- wire formats
  | .frameCmd payload => Sys2Proof.Machine.execFrameCmd payload s
  | .frameRsp payload => Sys2Proof.Machine.execFrameRsp payload s
  | .frameAck => Sys2Proof.Machine.execFrameAck s
  | .envelope status inner pad => Sys2Proof.Machine.execEnvelope status inner pad s

end Sys2Proof.Machine
end

