-- ==== Sys2Proof/Machine/Step.lean ====
section
/-! DEFINITION. One step: the next item at the issue port is decoded and run, unless a reset arrives
(70_reset_and_hazards.md R240, R244, R262). -/

namespace Sys2Proof.Machine

/-- The host issues its next operation. With nothing to issue the block "is idle and waits for the host's first operation"
(70_reset_and_hazards.md R244): nothing changes. -/
def runIssued (s : State) : Host.Outcome State Fault Refusal :=
  match s.issue with
  | [] => .next s
  | b :: bs =>
    match decode (b :: bs) with
    | .error e => .refused (.undecodable e)
    | .ok (i, rest) => exec i { s with issue := rest }

/-- One step of the machine. -/
def step (s : State) : Host.Outcome State Fault Refusal :=
  match s.resetIn with
  | .none => runIssued s
  | .atBoundary => .next s.resetBlock
  | .during calls =>
    match runIssued { s with resetIn := .none } with
    | .next t => .next (State.abandon calls s t)
    | .fault f => .fault f
    | .refused r => .refused r

/-- `s` with a row's word, its operand bytes zero, at the issue port, and no reset pending: the next step runs it. The
block fetches nothing and runs no program of its own (10_state.md R36): this stands for the host issuing the operation
(log entry 5). -/
def State.withFetchWord (s : State) (nbits w : Nat) : State :=
  { s with issue := tableImage nbits w, resetIn := .none }

end Sys2Proof.Machine
end

