-- ==== Sys2Proof/Machine/Catalog.lean ====
section
/-! DEFINITION. The Command Catalog, host software above the block, as sequences of block operations
(43_host_sequences.md R190 to R203; 70_reset_and_hazards.md R246). No rule of the block depends on it (00_scope.md R8) and
`exec` does not use it. -/

namespace Sys2Proof.Machine

/-- How a catalog command fails: a block result passed on unchanged (43_host_sequences.md R198), or one of the
catalog's own kinds (R199). -/
inductive CatalogError where
  | block (r : ResultCode)
  | unexpectedSignature
  | configRejected
  | noTagPresent
  | malformedUid
  deriving DecidableEq, Repr

/-- A tag read's result: the UID in transmission order, ATQA and SAK (43_host_sequences.md R196, R197). -/
structure TargetId where
  uid : List Byte
  atqa : List Byte
  sak : Byte
  deriving DecidableEq, Repr

/-- `ENC(payload)`, then `SNDACK(tAck)`; the host stops at the first result that is not `Ok` (43_host_sequences.md R190). -/
def sendCommand (P : Params) (payload : List Byte) (tAck : Nat) (s : State) : Except CatalogError Unit × State :=
  let s1 := encOp P payload s
  if s1.result ≠ .ok then (.error (.block s1.result), s1)
  else
    let s2 := sndAckOp P tAck s1
    if s2.result ≠ .ok then (.error (.block s2.result), s2) else (.ok (), s2)

/-- `sendCommand`, then `RDRSP(n, tRsp)` and the inner bytes it returns (43_host_sequences.md R190). -/
def commandWithResponse (P : Params) (payload : List Byte) (tAck n tRsp : Nat) (s : State) :
    Except CatalogError (List Byte) × State :=
  match sendCommand P payload tAck s with
  | (.error e, s2) => (.error e, s2)
  | (.ok _, s2) =>
    let s3 := rdRspOp P n tRsp s2
    if s3.result ≠ .ok then (.error (.block s3.result), s3) else (.ok (s3.rxBytes P.envPre s3.rspLen), s3)

/-- Four bytes from offset `i` on as a number, most significant first (43_host_sequences.md R193, 20_memory.md R70). -/
def bigEndianWord (x : List Byte) (i : Nat) : Nat :=
  byteNat x i * 2 ^ 24 + byteNat x (i + 1) * 2 ^ 16 + byteNat x (i + 2) * 2 ^ 8 + byteNat x (i + 3)

/-- The decode of `get_firmware_version` (43_host_sequences.md R192, R193). -/
def decodeFirmware (K : CatalogParams) (x : List Byte) : Except CatalogError Nat :=
  if sub x 0 K.gfvSignature.length ≠ K.gfvSignature then .error .unexpectedSignature
  else .ok (bigEndianWord x K.gfvOff)

/-- The decode of `configure_sam` (43_host_sequences.md R194). -/
def decodeSam (K : CatalogParams) (x : List Byte) : Except CatalogError Unit :=
  if byteNat x K.samOff ≠ K.samSentinel.toNat then .error .configRejected else .ok ()

/-- The decode of `read_passive_target`: tag count, then UID length, then the fields (43_host_sequences.md R196, R200). -/
def decodeTarget (K : CatalogParams) (x : List Byte) : Except CatalogError TargetId :=
  if byteNat x K.tagCountOff ≠ 1 then .error .noTagPresent
  else if byteNat x K.uidLenOff ≠ 4 ∧ byteNat x K.uidLenOff ≠ 7 then .error .malformedUid
  else
    .ok
      { uid := sub x (K.uidLenOff + 1) (byteNat x K.uidLenOff)
        atqa := sub x K.atqaOff 2
        sak := BitVec.ofNat 8 (byteNat x K.sakOff) }

/-- `get_firmware_version()` (43_host_sequences.md R192). -/
def getFirmwareVersion (P : Params) (K : CatalogParams) (tAck tRsp : Nat) (s : State) : Except CatalogError Nat × State :=
  match commandWithResponse P [K.gfvOp] tAck K.gfvLen tRsp s with
  | (.error e, t) => (.error e, t)
  | (.ok x, t) => (decodeFirmware K x, t)

/-- `configure_sam()` (43_host_sequences.md R194). -/
def configureSam (P : Params) (K : CatalogParams) (tAck tRsp : Nat) (s : State) : Except CatalogError Unit × State :=
  match commandWithResponse P K.samPayload tAck K.samLen tRsp s with
  | (.error e, t) => (.error e, t)
  | (.ok x, t) => (decodeSam K x, t)

/-- `set_passive_activation_retries(max_retries)`: no `RDRSP` (43_host_sequences.md R195). -/
def setPassiveActivationRetries (P : Params) (K : CatalogParams) (maxRetries : Byte) (tAck : Nat) (s : State) :
    Except CatalogError Unit × State :=
  sendCommand P (K.rfCfgStart ++ [maxRetries]) tAck s

/-- `read_passive_target(baud_rate, timeout_ms)` (43_host_sequences.md R196). -/
def readPassiveTarget (P : Params) (K : CatalogParams) (baudRate : Byte) (tAck timeoutMs : Nat) (s : State) :
    Except CatalogError TargetId × State :=
  match commandWithResponse P (K.rptStart ++ [baudRate]) tAck K.rptLen timeoutMs s with
  | (.error e, t) => (.error e, t)
  | (.ok x, t) => (decodeTarget K x, t)

/-- Bring-up in the order of 43_host_sequences.md R203 and 70_reset_and_hazards.md R245, R246: `OPEN`, then the three
commands, each to success. The value is the firmware version word. DESIGN CHOICE (log entry 28): the rules give no
timeout and 00_scope.md R12 lets the host give one with every call, so every `SNDACK` and every `RDRSP` of the sequence has
a timeout of its own, fixed before the sequence starts: the suffix names the command it belongs to. -/
def bringUp (P : Params) (K : CatalogParams) (maxRetries : Byte) (tAckFw tRspFw tAckSam tRspSam tAckRetries : Nat)
    (s : State) : Except CatalogError Nat × State :=
  let s1 := openOp P s
  if s1.result ≠ .ok then (.error (.block s1.result), s1)
  else
    match getFirmwareVersion P K tAckFw tRspFw s1 with
    | (.error e, s2) => (.error e, s2)
    | (.ok version, s2) =>
      match configureSam P K tAckSam tRspSam s2 with
      | (.error e, s3) => (.error e, s3)
      | (.ok _, s3) =>
        match setPassiveActivationRetries P K maxRetries tAckRetries s3 with
        | (.error e, s4) => (.error e, s4)
        | (.ok _, s4) => (.ok version, s4)

end Sys2Proof.Machine
end

