-- ==== Sys2Proof/Safety.lean ====
section
/-! DEFINITION. What holds of the block at every operation boundary (10_state.md R50), in the terms the statements
use; and what the catalog's commands leave behind (43_host_sequences.md R202). -/

namespace Sys2Proof.Machine

/-- Every index from `a` on, `n` of them, has been written. -/
def Memory.Filled (m : Memory) (a n : Nat) : Prop := ∀ i, a ≤ i → i < a + n → (m.read i).isSome

/-- No index at or above `size` has been written (20_memory.md R63). -/
def Memory.Within (m : Memory) (size : Nat) : Prop := ∀ i, size ≤ i → m.read i = none

/-- The invariants of 10_state.md R50, the register ranges of R31 to R35 and R45, the reserved bits of R41, the buffers'
canonical form and bounds (20_memory.md R63), and that what a rule or the host may read has been written
(70_reset_and_hazards.md R242). -/
structure Inv (P : Params) (s : State) : Prop where
  resting : s.hsState.resting = true
  busError_closed : s.hsState = .busError → s.sessionOpen = false
  awaiting_open : s.hsState = .awaitingResponse → s.sessionOpen = true
  done_open : s.hsState = .done → s.sessionOpen = true
  rsp_done : s.rspValid = true → s.hsState = .done
  tx_frame : s.txValid = true → 8 ≤ s.txLen ∧ wellFormedFrame P (s.txBytes s.txLen) P.tfiH2D = true
  tx_filled : s.txValid = true → s.txBuf.Filled 0 s.txLen
  rx_filled : s.hsState = .done → s.rxBuf.Filled 0 s.rxLen
  rsp_length : s.rspValid = true → s.rxLen = P.envPre + s.rspLen + P.envPost
  tx_range : s.txLen ≤ P.maxPayload + 8
  rx_range : s.rxLen ≤ P.maxRead + P.envPre + P.envPost
  rsp_range : s.rspLen ≤ P.maxRead
  ctrl_reserved : s.ctrl &&& 0xFE#8 = 0#8
  tx_wf : s.txBuf.wf
  rx_wf : s.rxBuf.wf
  tx_within : s.txBuf.Within (P.maxPayload + 8)
  rx_within : s.rxBuf.Within (P.maxRead + P.envPre + P.envPost)
  elapsed_range : s.elapsed ≤ 2 ^ 32

/-- The operations of the block, `FRAME.CMD` among them as the `ENC` that builds it; the other wire formats are acts of
the environment. -/
def operation : Instr → Bool
  | .enc _ => true
  | .vack _ => true
  | .dec _ _ _ => true
  | .sndack _ => true
  | .rdrsp _ _ => true
  | .openSession => true
  | .closeSession => true
  | .wrctrl _ => true
  | .frameCmd _ => true
  | .frameRsp _ => false
  | .frameAck => false
  | .envelope _ _ _ => false

/-- The causes of `Refused`, "all of them" (60_exceptions.md R216). -/
def RefusalCause (P : Params) (s : State) : Instr → Prop
  | .enc payload => P.maxPayload < payload.length
  | .frameCmd payload => P.maxPayload < payload.length
  | .sndack _ => s.txValid = false
  | .rdrsp n _ => s.hsState ≠ .awaitingResponse ∨ P.maxRead < n
  | .openSession => s.sessionOpen = true
  | .vack _ => False
  | .dec _ _ _ => False
  | .closeSession => False
  | .wrctrl _ => False
  | .frameRsp _ => False
  | .frameAck => False
  | .envelope _ _ _ => False

/-- Milliseconds slept in a list of events. -/
def sleptMs : List Event → Nat
  | [] => 0
  | .sleep ms :: es => ms + sleptMs es
  | _ :: es => sleptMs es

/-- The number of reads in a list of events. -/
def readCount : List Event → Nat
  | [] => 0
  | .read _ _ _ :: es => readCount es + 1
  | _ :: es => readCount es

/-- The number of `close` calls in a list of events. -/
def closeCount : List Event → Nat
  | [] => 0
  | .busClose _ :: es => closeCount es + 1
  | _ :: es => closeCount es

/-- The frames written in a list of events (newest first), newest first. -/
def writtenFrames : List Event → List (List Byte)
  | [] => []
  | .write _ v _ :: es => v :: writtenFrames es
  | _ :: es => writtenFrames es

/-- The bytes read in a list of events (newest first), in the order they arrived. -/
def readBytes : List Event → List Byte
  | [] => []
  | .read _ _ (.bytes bs) :: es => readBytes es ++ bs
  | _ :: es => readBytes es

/-- The number of sleeps in a list of events. -/
def sleepCount : List Event → Nat
  | [] => 0
  | .sleep _ :: es => sleepCount es + 1
  | _ :: es => sleepCount es

/-- Every recorded read yielded `ERR` or at most the bytes asked (20_memory.md R64). -/
def ReadsFit (es : List Event) : Prop := ∀ bus n bs, Event.read bus n (.bytes bs) ∈ es → bs.length ≤ n

/-- The entries by which the environment answers `polls.length` polls and finds each not ready (41_handshake_ops.md
R154). -/
abbrev NotReady (P : Params) (polls : List (List Byte)) : Prop :=
  ∀ p ∈ polls, p.length ≤ P.pollLen ∧ isReady P p = false

/-- The environment has laid down, for the coming reads, polls that are not ready, one that is, and then a data read in
`chunks`, the last of which brings a byte; `rest` is what comes after. A chunk may be empty: a read without progress. -/
structure Offers (P : Params) (v : Env) (polls : List (List Byte)) (ready : List Byte) (chunks : List (List Byte))
    (rest : List ReadAns) : Prop where
  script : v.rx = polls.map .bytes ++ .bytes ready :: (chunks.map .bytes ++ rest)
  notReady : NotReady P polls
  ready_fits : ready.length ≤ P.pollLen
  ready_set : isReady P ready = true
  last_progress : ∀ c, chunks.getLast? = some c → c ≠ []

/-- The reads of `chunks` that bring no byte (41_handshake_ops.md R156). -/
def emptyCount (chunks : List (List Byte)) : Nat := (chunks.filter List.isEmpty).length

/-- A read of `asked` bytes that answers `ERR` ends `i` then and there (41_handshake_ops.md R155 (e); 60_exceptions.md R214,
R220, R221): it is the operation's last read, no sleep comes after it, and the one call after it is the `close` of an open
session. `ms` milliseconds had been slept, one per tick, and the environment is left with `rest`. -/
def EndsAtErr (i : Instr) (s : State) (asked ms : Nat) (rest : List ReadAns) : Prop :=
  ∃ t evs, exec i s = .next t ∧
    t.result = .busError ∧ t.hsState = .busError ∧ t.sessionOpen = false ∧ t.txValid = false ∧ t.rspValid = false ∧
    t.value = .noValue ∧ t.env.rx = rest ∧ t.elapsed = ms ∧
    t.history =
      (if s.sessionOpen then [Event.busClose Config.busId] else []) ++ .read Config.busId asked .err :: (evs ++ s.history) ∧
    closeCount evs = 0 ∧ sleepCount evs = ms ∧ sleptMs evs = ms

/-! ### What the catalog's commands leave behind (43_host_sequences.md R202) -/

/-- After a command with a response of `n` inner bytes. -/
structure LeftDone (n : Nat) (t : State) : Prop where
  done : t.hsState = .done
  rsp_valid : t.rspValid = true
  rsp_len : t.rspLen = n
  no_frame : t.txValid = false
  session : t.sessionOpen = true

/-- After a command without one. -/
structure LeftAwaiting (t : State) : Prop where
  awaiting : t.hsState = .awaitingResponse
  no_rsp : t.rspValid = false
  no_frame : t.txValid = false
  session : t.sessionOpen = true

/-- How a command with a response of `n` bytes ended: if the block answered `Ok` throughout, the answer is the decode of the
returned bytes, success and catalog error alike, over the same state (43_host_sequences.md R202); if not, it is the
block's result unchanged (R198). -/
structure CommandEnds {α : Type} (n : Nat) (decoded : List Byte → Except CatalogError α) (r : Except CatalogError α)
    (t : State) : Prop where
  block_ok : t.result = .ok → LeftDone n t ∧ r = decoded (t.rxBytes 1 n)
  block_error : t.result ≠ .ok → r = .error (.block t.result)

end Sys2Proof.Machine
end

