-- ==== Sys2Proof/Certificates/Slice0/Obligations.lean ====
section
/-! DEFINITION. The statements for the provers. Each docstring names the rules of spec/ it formalises. -/

open Sys2Proof Sys2Proof.Machine

/-! ### Encoding -/

/-- Decoding an encoded well-formed instruction gives it back, whatever follows it: no operand bit is dropped. The
container is the model's (log entry 9); the select codes and wire formats are 30_encoding.md R91, R99, R101, R107, R108. -/
def Obligations.DecodeOfEncode : Prop :=
  ∀ (i : Instr) (rest : List Byte), WellFormed i → decode (encode i ++ rest) = .ok (i, rest)

/-- Whatever decodes is the encoding of the well-formed instruction it decodes to: no instruction has two spellings and no
reserved encoding falls through (log entry 9; 30_encoding.md R96, R107). -/
def Obligations.EncodeOfDecode : Prop :=
  ∀ (bs : List Byte) (i : Instr) (rest : List Byte), decode bs = .ok (i, rest) → WellFormed i ∧ encode i ++ rest = bs

/-- The eight select codes of 30_encoding.md R107 and words of the four wire formats (R98, R99, R101; 40_codec_ops.md
R137's example) decode to the rows they stand for. The lead byte 08, the zero operands behind a select code and the
images of table words are the model's container (log entry 9). The words are numbered as the host interface numbers them,
bit 0 the least significant of the first byte; R117 writes byte offset 0 leftmost. -/
def Obligations.SpecWordsDecode : Prop :=
  decodeTableWord 3 0 = some (.enc []) ∧ decodeTableWord 3 1 = some (.vack []) ∧
  decodeTableWord 3 2 = some (.dec [] 0 false) ∧ decodeTableWord 3 3 = some (.sndack 0#32) ∧
  decodeTableWord 3 4 = some (.rdrsp 0 0#32) ∧ decodeTableWord 3 5 = some .openSession ∧
  decodeTableWord 3 6 = some .closeSession ∧ decodeTableWord 3 7 = some (.wrctrl 0#8) ∧
  decodeTableWord 48 0x00FF00FF0000 = some .frameAck ∧
  decodeTableWord 64 0x002CD4FF01FF0000 = some (.frameCmd []) ∧
  decodeTableWord 16 0xAA01 = some (.envelope 0x01#8 [] 0xAA#8) ∧
  decode [0x08#8, 0x00#8, 0x00#8, 0xFF#8, 0x02#8, 0xFE#8, 0xD4#8, 0x02#8, 0x2A#8, 0x00#8] =
    .ok (.frameCmd [0x02#8], []) ∧
  decode [0x08#8, 0x00#8, 0x00#8, 0xFF#8, 0x02#8, 0xFE#8, 0xD5#8, 0x15#8, 0x16#8, 0x00#8] =
    .ok (.frameRsp [0x15#8], [])

/-! ### The step -/

/-- One step runs the decoded instruction with the item taken off the issue port; bytes that do not decode are refused by
name; with nothing to issue the block idles (70_reset_and_hazards.md R244, R262). The issue port is the model's choice (log
entry 5), and so is the refusal of bytes that are no item of it (log entry 9). -/
def Obligations.StepRunsDecodedInstruction : Prop :=
  ∀ s : State, s.resetIn = .none →
    (∀ i rest, decode s.issue = .ok (i, rest) → step s = exec i { s with issue := rest }) ∧
    (∀ e, s.issue ≠ [] → decode s.issue = .error e → step s = .refused (.undecodable e)) ∧
    (s.issue = [] → step s = .next s)

/-- The state after reset, the table of 70_reset_and_hazards.md R241: every register at its value, `STATUS` 0x00, and no
index of either buffer with a value. -/
def Obligations.ResetGivesTableValues : Prop :=
  State.reset.hsState = .idle ∧ State.reset.sessionOpen = false ∧ State.reset.txValid = false ∧
  State.reset.rspValid = false ∧ State.reset.txLen = 0 ∧ State.reset.rxLen = 0 ∧ State.reset.rspLen = 0 ∧
  State.reset.elapsed = 0 ∧ State.reset.result = .ok ∧ State.reset.ctrl = 0x00#8 ∧ State.reset.status = 0x00#8 ∧
  ∀ i, State.reset.txBuf.read i = none ∧ State.reset.rxBuf.read i = none

/-- A reset between operations puts every piece of the block at its reset value, makes no transport call and leaves the
environment as it is (70_reset_and_hazards.md R240, R243). -/
def Obligations.ResetMakesNoTransportCall : Prop :=
  ∀ s : State, s.resetIn = .atBoundary →
    step s =
      .next
        { State.reset with env := s.env, history := s.history, issue := s.issue, freeCtr := s.freeCtr }

/-- A reset during an operation abandons it: the block is at its reset values, and the history is what it was before the
operation with the operation's first calls added, at most as many as had been made when reset arrived
(70_reset_and_hazards.md R240; 93_implementation_defined.md U16; log entry 13). -/
def Obligations.ResetAbandonsOperation : Prop :=
  ∀ (s t u : State) (k : Nat), s.resetIn = .none → step s = .next t → step { s with resetIn := .during k } = .next u →
    ∃ kept lost, t.history = lost ++ u.history ∧ u.history = kept ++ s.history ∧ kept.length ≤ k ∧
      (lost = [] ∨ kept.length = k) ∧
      u = { State.reset with env := u.env, history := u.history, issue := t.issue, freeCtr := u.freeCtr }

/-! ### Frame Codec -/

/-- `sum8` is the sum of the bytes mod 256, a byte alone being its own sum, and it adds mod 256 over a concatenation;
`neg8` is `(256 - v) mod 256`, so a byte and its negation sum to 0 mod 256 and negation undoes itself (40_codec_ops.md
R130; 00_scope.md R16). -/
def Obligations.ChecksumArithmeticLaws : Prop :=
  (∀ v : Byte, (neg8 v).toNat = (256 - v.toNat) % 256 ∧ neg8 (neg8 v) = v ∧
    (v.toNat + (neg8 v).toNat) % 256 = 0) ∧
  neg8 0x00#8 = 0x00#8 ∧ neg8 0x01#8 = 0xFF#8 ∧ neg8 0x80#8 = 0x80#8 ∧ sum8 [] = 0x00#8 ∧
  (∀ v : Byte, sum8 [v] = v) ∧ (∀ b : List Byte, (sum8 b).toNat = byteSum b % 256) ∧
  ∀ a b : List Byte, (sum8 (a ++ b)).toNat = ((sum8 a).toNat + (sum8 b).toNat) % 256

/-- 40_codec_ops.md R133: what `EncodeFrame` builds is a well-formed host-to-device Frame, 8 bytes longer than the
payload, from which the payload is got back; it is injective; the corner cases; `ENC` overwrites an earlier Frame. -/
def Obligations.EncodedFrameIsWellFormed : Prop :=
  (∀ P : Params, P.Valid → ∀ p : List Byte, p.length ≤ P.maxPayload →
    wellFormedFrame P (encodeFrame P p) P.tfiH2D = true ∧ (encodeFrame P p).length = p.length + 8 ∧
    framePayload (encodeFrame P p) = p) ∧
  (∀ P : Params, P.Valid → ∀ p q : List Byte, p.length ≤ P.maxPayload → q.length ≤ P.maxPayload →
    encodeFrame P p = encodeFrame P q → p = q) ∧
  encodeFrame params [] = [0x00#8, 0x00#8, 0xFF#8, 0x01#8, 0xFF#8, 0xD4#8, 0x2C#8, 0x00#8] ∧
  (∀ p : List Byte, (0xD4 + byteSum p) % 256 = 0 → (encodeFrame params p)[6 + p.length]? = some 0x00#8) ∧
  encodeFrame params [0x2C#8] = [0x00#8, 0x00#8, 0xFF#8, 0x02#8, 0xFE#8, 0xD4#8, 0x2C#8, 0x00#8, 0x00#8] ∧
  (∀ p : List Byte, p.length = 254 →
    (encodeFrame params p)[3]? = some 0xFF#8 ∧ (encodeFrame params p)[4]? = some 0x01#8 ∧
    (encodeFrame params p).length = 262) ∧
  (∀ p : List Byte, p.length = 127 →
    (encodeFrame params p)[3]? = some 0x80#8 ∧ (encodeFrame params p)[4]? = some 0x80#8) ∧
  (∀ (p : List Byte) (s : State), p.length ≤ params.maxPayload → s.txValid = true →
    ∃ t, exec (.enc p) s = .next t ∧ t.txValid = true ∧ t.txBytes t.txLen = encodeFrame params p)

/-- `ENC(payload)` with a payload the block accepts (40_codec_ops.md R131): the Frame, byte for byte in the layout of
30_encoding.md R91, in `TXBUF` from index 0; `TXLEN`, `TXVALID`, `RESULT` and the returned value; every byte of `TXBUF`
beyond it and every other piece of state unchanged. In every state. -/
def Obligations.EncBuildsFrame : Prop :=
  ∀ (p : List Byte) (s : State), p.length ≤ params.maxPayload →
    ∃ t, exec (.enc p) s = .next t ∧
      t = { s with
            txBuf := t.txBuf, txLen := p.length + 8, txValid := true, result := .ok
            value := .bytes (encodeFrame params p) } ∧
      t.txBytes (p.length + 8) = encodeFrame params p ∧
      (∀ i, p.length + 8 ≤ i → t.txBuf.read i = s.txBuf.read i) ∧
      encodeFrame params p =
        [0x00#8, 0x00#8, 0xFF#8, BitVec.ofNat 8 (p.length + 1), neg8 (BitVec.ofNat 8 (p.length + 1)), 0xD4#8] ++ p ++
          [neg8 (sum8 (0xD4#8 :: p)), 0x00#8]

/-- `ENC` with more than `MAX_PAYLOAD` bytes is `Refused` and changes nothing but `RESULT` (40_codec_ops.md R132); the
returned value, the model's field, is none. -/
def Obligations.EncRefusesLongPayload : Prop :=
  ∀ (p : List Byte) (s : State), 254 < p.length →
    exec (.enc p) s = .next { s with result := .refused, value := .noValue }

/-- FRAME.CMD completes as the `ENC` that builds it: the model's reading of the table's row (log entry 10;
30_encoding.md R90, 40_codec_ops.md R131). -/
def Obligations.FrameCmdIsBuiltByEnc : Prop :=
  ∀ (p : List Byte) (s : State), WellFormed (.frameCmd p) →
    ∃ t, exec (.frameCmd p) s = .next t ∧ exec (.enc p) s = .next t ∧ t.txValid = true ∧
      t.txBytes t.txLen = encodeFrame params p ∧ encode (.frameCmd p) = 0x08#8 :: t.txBytes t.txLen

/-- `VACK(bytes)` (40_codec_ops.md R134): `RESULT` is always `Ok`, the value says whether the bytes are six and equal to
`ACK_PATTERN` one by one, nothing else changes. -/
def Obligations.VackComparesSixBytes : Prop :=
  ∀ (bs : List Byte) (s : State), ∃ answer : Bool,
    exec (.vack bs) s = .next { s with result := .ok, value := .flag answer } ∧
    (answer = true ↔ bs.length = 6 ∧ ∀ i, i < 6 → bs[i]? = params.ackPattern[i]?)

/-- `DEC(bytes, n, check)` (40_codec_ops.md R135, R136): `ShortRead` exactly when fewer than `n + 2` bytes were supplied,
tested first; then `ChecksumMismatch` when checking is on and fails; else `Ok` with the `n` bytes after the status
prefix. Only `RESULT` and the returned value change. -/
def Obligations.DecStripsEnvelope : Prop :=
  ∀ (bs : List Byte) (n : Nat) (check : Bool) (s : State),
    (bs.length < n + 2 → exec (.dec bs n check) s = .next { s with result := .shortRead, value := .noValue }) ∧
    (n + 2 ≤ bs.length → check = true → checksumsOk ((bs.drop 1).take n) = false →
      exec (.dec bs n check) s = .next { s with result := .checksumMismatch, value := .noValue }) ∧
    (n + 2 ≤ bs.length → (check = true → checksumsOk ((bs.drop 1).take n) = true) →
      exec (.dec bs n check) s = .next { s with result := .ok, value := .bytes ((bs.drop 1).take n) })

/-- What `ChecksumsOk` accepts, in integers (40_codec_ops.md R137): at least six bytes, `LEN ≥ 1`, `LEN + LCS` 0 mod 256,
the `DCS` among the bytes, and direction, payload and `DCS` summing to 0 mod 256; nothing else is compared. -/
def Obligations.ChecksumsOkMeansTwoSums : Prop :=
  ∀ x : List Byte,
    checksumsOk x = true ↔
      6 ≤ x.length ∧ 1 ≤ byteNat x 3 ∧ (byteNat x 3 + byteNat x 4) % 256 = 0 ∧ 5 + byteNat x 3 ≤ x.length - 1 ∧
        byteSum ((x.drop 5).take (byteNat x 3 + 1)) % 256 = 0

/-- 40_codec_ops.md R139: wrapping any bytes in a status byte and a pad and decoding gives them back; for a well-formed
response Frame also with checking on; and the payload of a response Frame is got back from it. -/
def Obligations.EnvelopeRoundTrip : Prop :=
  ∀ P : Params, P.Valid →
    (∀ (st pad : Byte) (x : List Byte), decodeEnvelope P ([st] ++ x ++ [pad]) x.length false = .ok x) ∧
    (∀ (st pad : Byte) (x : List Byte), wellFormedFrame P x P.tfiD2H = true →
      decodeEnvelope P ([st] ++ x ++ [pad]) x.length true = .ok x) ∧
    (∀ p : List Byte, p.length ≤ P.maxPayload →
      wellFormedFrame P (buildFrame P P.tfiD2H p) P.tfiD2H = true ∧ framePayload (buildFrame P P.tfiD2H p) = p)

/-- `DEC` examines neither the status prefix, nor the trailing pad, nor any byte after it (40_codec_ops.md R135, R136,
R138). -/
def Obligations.DecIgnoresPrefixPadAndTail : Prop :=
  ∀ (st st' pad pad' : Byte) (x tail tail' : List Byte) (check : Bool) (s : State),
    exec (.dec ([st] ++ x ++ [pad] ++ tail) x.length check) s =
      exec (.dec ([st'] ++ x ++ [pad'] ++ tail') x.length check) s

/-- A response Frame with any one byte wrong from its `LCS` to its `DCS` fails checksum validation (a consequence of
30_encoding.md R94, R95 and 40_codec_ops.md R137). -/
def Obligations.CheckFindsOneWrongByte : Prop :=
  ∀ (f : List Byte) (i : Nat) (b : Byte), wellFormedFrame params f params.tfiD2H = true →
    4 ≤ i → i ≤ 5 + byteNat f 3 → f[i]? ≠ some b → checksumsOk (f.set i b) = false

/-! ### Session and control -/

/-- `WRCTRL(v)` (42_session_ops.md R185): `CTRL <- v & 0x01`, `RESULT <- Ok`, nothing else. In every state. -/
def Obligations.WrctrlWritesCheckEnable : Prop :=
  ∀ (v : Byte) (s : State),
    exec (.wrctrl v) s = .next { s with ctrl := v &&& 0x01#8, result := .ok, value := .noValue } ∧
    (v &&& 0x01#8).getLsbD 0 = v.getLsbD 0

/-- `OPEN()` by the answers of the transport (42_session_ops.md R181), with its calls in order. -/
def Obligations.OpenBringsUpSession : Prop :=
  ∀ s : State,
    (s.sessionOpen = true → exec .openSession s = .next { s with result := .refused, value := .noValue }) ∧
    (s.sessionOpen = false → s.openAns = false →
      exec .openSession s =
        .next
          { s with
            txValid := false, rspValid := false, hsState := .busError, result := .busError, value := .noValue
            env := { s.env with opens := s.env.opens.tail }
            history := .busOpen Config.busId false :: s.history }) ∧
    (s.sessionOpen = false → s.openAns = true → (s.tOpen params).addrAns = false →
      exec .openSession s =
        .next
          { s with
            txValid := false, rspValid := false, hsState := .busError, result := .busError, value := .noValue
            env := { s.env with opens := s.env.opens.tail, addresses := s.env.addresses.tail }
            history :=
              .busClose Config.busId :: .setAddress Config.busId Config.devAddr false ::
                .busOpen Config.busId true :: s.history }) ∧
    (s.sessionOpen = false → s.openAns = true → (s.tOpen params).addrAns = true →
      exec .openSession s =
        .next
          { s with
            txValid := false, rspValid := false, sessionOpen := true, hsState := .idle, result := .ok
            value := .noValue
            env := { s.env with opens := s.env.opens.tail, addresses := s.env.addresses.tail }
            history := .setAddress Config.busId Config.devAddr true :: .busOpen Config.busId true :: s.history })

/-- `CLOSE()` (42_session_ops.md R183): one `close` if the session was open, always `Ok`. In every state. -/
def Obligations.CloseEndsSession : Prop :=
  ∀ s : State,
    exec .closeSession s =
      .next
        { s with
          sessionOpen := false, txValid := false, rspValid := false, hsState := .idle, result := .ok, value := .noValue
          history := if s.sessionOpen then .busClose Config.busId :: s.history else s.history }

/-- 42_session_ops.md R184: nothing opens a closed session but `OPEN`, and on a closed session `SNDACK` answers `BusError`,
or `Refused` without a Frame, without touching the transport. -/
def Obligations.OnlyOpenReopens : Prop :=
  (∀ (i : Instr) (s t : State), i ≠ .openSession → s.sessionOpen = false → exec i s = .next t →
    t.sessionOpen = false) ∧
  (∀ (T : BitVec 32) (s : State), s.sessionOpen = false →
    ∃ t, exec (.sndack T) s = .next t ∧ t.history = s.history ∧ t.env = s.env ∧ t.sessionOpen = false ∧
      t.result = if s.txValid then .busError else .refused)

/-! ### SNDACK -/

/-- The entry checks of `SNDACK` and their order (41_handshake_ops.md R161): `TXVALID` first, then `SESSION_OPEN`, which
goes through the `BusError` error entry (60_exceptions.md R221) and discards the Frame, with no transport call. `RXBUF` is then
unspecified (10_state.md R34); that it is unwritten is the model's rendering of that (log entry 8). -/
def Obligations.SndackEntryChecks : Prop :=
  ∀ (T : BitVec 32) (s : State),
    (s.txValid = false → exec (.sndack T) s = .next { s with result := .refused, value := .noValue }) ∧
    (s.txValid = true → s.sessionOpen = false →
      exec (.sndack T) s =
        .next
          { s with
            sessionOpen := false, txValid := false, rspValid := false, hsState := .busError, result := .busError
            value := .noValue, rxBuf := [] })

/-- A frame write that answers `false` (row T4 of 41_handshake_ops.md R151; 60_exceptions.md R214 (b), R221): the whole
frame was written in one call, one `close` follows, the session and the Frame are gone (10_state.md R33; 41_handshake_ops.md
R160). `RXBUF` is then unspecified (10_state.md R34); that it is unwritten is the model's rendering (log entry 8). -/
def Obligations.SndackFailedWriteTearsDown : Prop :=
  ∀ (T : BitVec 32) (s : State), s.txValid = true → s.sessionOpen = true → s.writeAns (s.txBytes s.txLen) = false →
    exec (.sndack T) s =
      .next
        { s with
          sessionOpen := false, txValid := false, rspValid := false, hsState := .busError, result := .busError
          value := .noValue, rxBuf := [], env := { s.env with writes := s.env.writes.tail }
          history := .busClose Config.busId :: .write Config.busId (s.txBytes s.txLen) false :: s.history }

/-- `SNDACK` completes (41_handshake_ops.md R160; rows T8 and T9 of R151): with a Frame, an open session, an accepted
write, and a device that shows ready within the budget and delivers the envelope of six inner bytes `x`, in any pieces,
the budget shared between the polls and the reads without progress (R163 (b)). `Ok` and `AwaitingResponse` when `x` is
`ACK_PATTERN`, `AckMismatch` and `Done` when it is not; the session stays open. Whatever `CTRL` holds. -/
def Obligations.SndackCompletesOnAck : Prop :=
  ∀ (T : BitVec 32) (s : State) (polls chunks : List (List Byte)) (ready x : List Byte) (st pad : Byte)
    (rest : List ReadAns),
    s.txValid = true → s.sessionOpen = true → s.writeAns (s.txBytes s.txLen) = true →
    Offers params s.env polls ready chunks rest → chunks.flatten = [st] ++ x ++ [pad] → x.length = 6 →
    polls.length + emptyCount chunks ≤ T.toNat →
    ∃ t, exec (.sndack T) s = .next t ∧
      t = { s with
            hsState := if x = params.ackPattern then .awaitingResponse else .done
            result := if x = params.ackPattern then .ok else .ackMismatch
            txValid := false, rspValid := false, elapsed := polls.length + emptyCount chunks, value := .noValue
            rxBuf := t.rxBuf, rxLen := 8, history := t.history
            env := { s.env with rx := rest, writes := s.env.writes.tail } } ∧
      t.rxBytes 0 8 = [st] ++ x ++ [pad] ∧ ∀ i, 8 ≤ i → t.rxBuf.read i = s.rxBuf.read i

/-- If no poll of a `SNDACK` shows ready and none answers `ERR`, exactly `T + 1` polls and `T + 1` sleeps are made and
`TimedOut` is raised at `ELAPSED = T + 1` (41_handshake_ops.md R155 (a); 70_reset_and_hazards.md R260); `TXVALID` and
`RSPVALID` are cleared (R160), the session stays open. `RXBUF` is then unspecified (10_state.md R34); that it is unwritten
is the model's rendering (log entry 8). -/
def Obligations.SndackTimesOutWhenNeverReady : Prop :=
  ∀ (T : BitVec 32) (s : State) (polls : List (List Byte)) (rest : List ReadAns),
    s.txValid = true → s.sessionOpen = true → s.writeAns (s.txBytes s.txLen) = true →
    s.env.rx = polls.map .bytes ++ rest → NotReady params polls → polls.length = T.toNat + 1 →
    ∃ t evs, exec (.sndack T) s = .next t ∧
      t = { s with
            hsState := .timedOut, result := .timedOut, txValid := false, rspValid := false, elapsed := T.toNat + 1
            value := .noValue, rxBuf := [], history := t.history
            env := { s.env with rx := rest, writes := s.env.writes.tail } } ∧
      t.history = evs ++ .write Config.busId (s.txBytes s.txLen) true :: s.history ∧
      readCount evs = T.toNat + 1 ∧ sleepCount evs = T.toNat + 1 ∧ sleptMs evs = T.toNat + 1 ∧
      evs.length = 2 * (T.toNat + 1)

/-- Every way `SNDACK` can end, for every environment (rows T1 to T9 of 41_handshake_ops.md R151): it always answers, and
the state, the session and the Frame's validity go with the result. -/
def Obligations.SndackOutcomes : Prop :=
  ∀ (T : BitVec 32) (s : State), ∃ t, exec (.sndack T) s = .next t ∧ t.value = .noValue ∧
    ((s.txValid = false ∧ t.result = .refused ∧ t.hsState = s.hsState) ∨
      (s.txValid = true ∧ t.txValid = false ∧ t.rspValid = false ∧
        ((t.result = .busError ∧ t.hsState = .busError ∧ t.sessionOpen = false) ∨
          (s.sessionOpen = true ∧ t.sessionOpen = true ∧ s.writeAns (s.txBytes s.txLen) = true ∧
            ((t.result = .timedOut ∧ t.hsState = .timedOut) ∨
              (t.result = .ackMismatch ∧ t.hsState = .done ∧ t.rxLen = 8 ∧ t.rxBytes 1 6 ≠ params.ackPattern) ∨
              (t.result = .ok ∧ t.hsState = .awaitingResponse ∧ t.rxLen = 8 ∧
                t.rxBytes 1 6 = params.ackPattern))))))

/-- What `SNDACK` leaves unchanged (41_handshake_ops.md R160, "State written"): `TXBUF`, `TXLEN`, `RSPLEN`, `CTRL` and the
host's side always; `RXBUF` beyond the eight bytes collected, unless it ended in `TimedOut` or `BusError`, after which the
content of `RXBUF` is unspecified (10_state.md R34). -/
def Obligations.SndackFrame : Prop :=
  ∀ (T : BitVec 32) (s t : State), exec (.sndack T) s = .next t →
    t.txBuf = s.txBuf ∧ t.txLen = s.txLen ∧ t.rspLen = s.rspLen ∧ t.ctrl = s.ctrl ∧ t.issue = s.issue ∧
    t.resetIn = s.resetIn ∧ t.freeCtr = s.freeCtr ∧ t.env.opens = s.env.opens ∧ t.env.addresses = s.env.addresses ∧
    (t.result ≠ .timedOut → t.result ≠ .busError → ∀ i, 8 ≤ i → t.rxBuf.read i = s.rxBuf.read i)

/-- Checksum validation is never applied to the ACK, whatever `CTRL` says (41_handshake_ops.md R160; 30_encoding.md
R100). -/
def Obligations.SndackIgnoresCheckEnable : Prop :=
  ∀ (T : BitVec 32) (s t : State) (c : Byte), exec (.sndack T) s = .next t →
    exec (.sndack T) { s with ctrl := c } = .next { t with ctrl := c }

/-- `SNDACK` writes the Frame `TXBUF[0..TXLEN-1]` in one call, first of all its calls, and never a second time
(20_memory.md R67, R72, R75, R79); without a Frame or a session it makes no call at all. -/
def Obligations.SndackWritesFrameOnce : Prop :=
  ∀ (T : BitVec 32) (s t : State), exec (.sndack T) s = .next t →
    ((s.txValid = false ∨ s.sessionOpen = false) → t.history = s.history) ∧
    (s.txValid = true → s.sessionOpen = true →
      ∃ evs, t.history =
          evs ++ .write Config.busId (s.txBytes s.txLen) (s.writeAns (s.txBytes s.txLen)) :: s.history ∧
        writtenFrames evs = [])

/-- A Frame is good for one write (70_reset_and_hazards.md R253; 10_state.md R33): after a `SNDACK` that was given one, the
next `SNDACK` is `Refused`, and nothing makes a Frame valid again but an `ENC`. FRAME.CMD is here the `ENC` that builds it:
the model's choice, no word of the rules (log entry 10). -/
def Obligations.FrameGoodForOneWrite : Prop :=
  (∀ (T T' : BitVec 32) (s t : State), s.txValid = true → exec (.sndack T) s = .next t →
    exec (.sndack T') t = .next { t with result := .refused, value := .noValue }) ∧
  ∀ (i : Instr) (s t : State), exec i s = .next t → s.txValid = false → t.txValid = true →
    ∃ p, i = .enc p ∨ i = .frameCmd p

/-! ### RDRSP -/

/-- `RDRSP` outside `AwaitingResponse`, or for more than `MAX_READ` bytes, is `Refused` with no other effect (rows T10 and
T11 of 41_handshake_ops.md R151; R166 (b)). -/
def Obligations.RdrspRefusals : Prop :=
  ∀ (n : Nat) (T : BitVec 32) (s : State), (s.hsState ≠ .awaitingResponse ∨ 262 < n) →
    exec (.rdrsp n T) s = .next { s with result := .refused, value := .noValue }

/-- `RDRSP` completes (41_handshake_ops.md R164; rows T14 and T15 of R151): with a device that shows ready within the
budget and delivers the envelope of `n` inner bytes `x` in any pieces. `ChecksumMismatch` with `RSPVALID = 0` and
`RSPLEN` kept if `CHK_EN = 1` and validation fails, else `Ok` with `x`, which stands in `RXBUF[1..n]`. -/
def Obligations.RdrspCompletesOnResponse : Prop :=
  ∀ (n : Nat) (T : BitVec 32) (s : State) (polls chunks : List (List Byte)) (ready x : List Byte) (st pad : Byte)
    (rest : List ReadAns),
    s.hsState = .awaitingResponse → n ≤ 262 → Offers params s.env polls ready chunks rest →
    chunks.flatten = [st] ++ x ++ [pad] → x.length = n → polls.length + emptyCount chunks ≤ T.toNat →
    ∃ t, exec (.rdrsp n T) s = .next t ∧
      t = { s with
            hsState := .done, elapsed := polls.length + emptyCount chunks
            rspValid := !(s.ctrl.getLsbD 0 && !checksumsOk x)
            rspLen := if s.ctrl.getLsbD 0 && !checksumsOk x then s.rspLen else n
            result := if s.ctrl.getLsbD 0 && !checksumsOk x then .checksumMismatch else .ok
            value := if s.ctrl.getLsbD 0 && !checksumsOk x then .noValue else .bytes x
            rxBuf := t.rxBuf, rxLen := n + 2, history := t.history, env := { s.env with rx := rest } } ∧
      t.rxBytes 1 n = x ∧ t.rxBytes 0 (n + 2) = [st] ++ x ++ [pad] ∧
      ∀ i, n + 2 ≤ i → t.rxBuf.read i = s.rxBuf.read i

/-- Every way an accepted `RDRSP` can end, for every environment (rows T12 to T15 of 41_handshake_ops.md R151; R165). -/
def Obligations.RdrspOutcomes : Prop :=
  ∀ (n : Nat) (T : BitVec 32) (s : State), s.hsState = .awaitingResponse → n ≤ 262 →
    ∃ t, exec (.rdrsp n T) s = .next t ∧
      ((t.result = .busError ∧ t.hsState = .busError ∧ t.sessionOpen = false ∧ t.txValid = false ∧
          t.rspValid = false ∧ t.value = .noValue) ∨
        (t.sessionOpen = s.sessionOpen ∧ t.txValid = s.txValid ∧
          ((t.result = .timedOut ∧ t.hsState = .timedOut ∧ t.rspValid = false ∧ t.value = .noValue) ∨
            (t.result = .checksumMismatch ∧ t.hsState = .done ∧ t.rspValid = false ∧ t.value = .noValue ∧
              t.rxLen = n + 2 ∧ s.ctrl.getLsbD 0 = true ∧ checksumsOk (t.rxBytes 1 n) = false) ∨
            (t.result = .ok ∧ t.hsState = .done ∧ t.rspValid = true ∧ t.rspLen = n ∧ t.rxLen = n + 2 ∧
              t.value = .bytes (t.rxBytes 1 n) ∧
              (s.ctrl.getLsbD 0 = true → checksumsOk (t.rxBytes 1 n) = true)))))

/-- What `RDRSP` leaves unchanged (41_handshake_ops.md R164, "State written"), for every environment. -/
def Obligations.RdrspFrame : Prop :=
  ∀ (n : Nat) (T : BitVec 32) (s t : State), exec (.rdrsp n T) s = .next t →
    t.txBuf = s.txBuf ∧ t.txLen = s.txLen ∧ t.ctrl = s.ctrl ∧ t.issue = s.issue ∧ t.resetIn = s.resetIn ∧
    t.freeCtr = s.freeCtr ∧ t.env.opens = s.env.opens ∧ t.env.addresses = s.env.addresses ∧
    t.env.writes = s.env.writes ∧ (t.result ≠ .ok → t.rspLen = s.rspLen) ∧
    (t.result ≠ .busError → t.txValid = s.txValid ∧ t.sessionOpen = s.sessionOpen) ∧
    (t.result ≠ .timedOut → t.result ≠ .busError → ∀ i, n + 2 ≤ i → t.rxBuf.read i = s.rxBuf.read i)

/-- A response is read at most once: after any `RDRSP` that was not refused, `RDRSP` is `Refused`, and nothing leads back to
`AwaitingResponse` but a `SNDACK` that ends in `Ok` (41_handshake_ops.md R151, R152; 70_reset_and_hazards.md R252). -/
def Obligations.ResponseIsReadOnce : Prop :=
  (∀ (n n' : Nat) (T T' : BitVec 32) (s t : State), exec (.rdrsp n T) s = .next t → t.result ≠ .refused →
    exec (.rdrsp n' T') t = .next { t with result := .refused, value := .noValue }) ∧
  ∀ (i : Instr) (s t : State), exec i s = .next t → s.hsState ≠ .awaitingResponse → t.hsState = .awaitingResponse →
    ∃ T, i = .sndack T ∧ t.result = .ok

/-! ### Waits, bounds, errors -/

/-- `Collect` keeps the bytes in the order they arrived, whatever the pieces (41_handshake_ops.md R157 (d); 20_memory.md
R68, R73), for any parameters within their constraints. -/
def Obligations.CollectConcatenatesReads : Prop :=
  ∀ (P : Params) (need T : Nat) (s t : State), P.Valid → s.elapsed ≤ T → collect P need T s = .returned t →
    t.rxLen = need ∧ t.elapsed ≤ T ∧
      ∃ evs, t.history = evs ++ s.history ∧ t.rxBytes 0 need = readBytes evs ∧ writtenFrames evs = [] ∧
        ∀ i, need ≤ i → t.rxBuf.read i = s.rxBuf.read i

/-- `TimedOut` is never early (60_exceptions.md R212; 41_handshake_ops.md R155): more than `T` milliseconds were slept,
`ELAPSED` holds a value that exceeded `T` (60_exceptions.md R211), nothing was closed and the session is as it was. For
every environment. -/
def Obligations.TimedOutIsNeverEarly : Prop :=
  ∀ (i : Instr) (T : BitVec 32) (s t : State), (i = .sndack T ∨ ∃ n, i = .rdrsp n T) → exec i s = .next t →
    t.result = .timedOut →
    T.toNat < t.elapsed ∧ t.hsState = .timedOut ∧ t.sessionOpen = s.sessionOpen ∧
      ∃ evs, t.history = evs ++ s.history ∧ T.toNat < sleptMs evs ∧ closeCount evs = 0

/-- The bound on how long an operation holds the host (41_handshake_ops.md R169, at the 1 ms tick): at most `T + 1` ms
slept, at most `(T + 1) + 1 + need` reads, at most one write, and a `close` only if it ended in `BusError`. For every
environment. -/
def Obligations.HandshakeIsBounded : Prop :=
  ∀ (i : Instr) (T : BitVec 32) (need : Nat) (s t : State),
    ((i = .sndack T ∧ need = 8) ∨ ∃ n, i = .rdrsp n T ∧ need = n + 2) → exec i s = .next t →
    ∃ evs, t.history = evs ++ s.history ∧ sleptMs evs ≤ T.toNat + 1 ∧ sleepCount evs ≤ T.toNat + 1 ∧
      readCount evs ≤ T.toNat + 1 + 1 + need ∧ (writtenFrames evs).length ≤ 1 ∧
      evs.length = sleepCount evs + readCount evs + (writtenFrames evs).length + closeCount evs ∧
      closeCount evs ≤ (if t.result = .busError then 1 else 0)

/-- `ELAPSED` counts slept ticks and nothing else (10_state.md R45; 41_handshake_ops.md R153): after a wait it is the time
slept in that operation. -/
def Obligations.ElapsedCountsSleeps : Prop :=
  (∀ (T : BitVec 32) (s t : State), s.txValid = true → s.sessionOpen = true →
    s.writeAns (s.txBytes s.txLen) = true → exec (.sndack T) s = .next t →
    ∃ evs, t.history = evs ++ s.history ∧ t.elapsed = sleptMs evs) ∧
  (∀ (n : Nat) (T : BitVec 32) (s t : State), s.hsState = .awaitingResponse → n ≤ 262 →
    exec (.rdrsp n T) s = .next t → ∃ evs, t.history = evs ++ s.history ∧ t.elapsed = sleptMs evs)

/-- A poll or a data read that answers `ERR` ends `SNDACK` in `BusError` at once, with one `close` (row T6 of
41_handshake_ops.md R151; R155 (e); 60_exceptions.md R214 (c), (d), R220, R221): the `ERR` is its last read, nothing is
slept after it, and only the `close` follows. First an `ERR` to a poll on an iteration within the budget, after
`polls.length` ticks; then an `ERR` to a data read that is not complete, after those and one tick for each read without
progress. -/
def Obligations.SndackReadErrorIsBusError : Prop :=
  ∀ (T : BitVec 32) (s : State) (polls : List (List Byte)) (rest : List ReadAns),
    s.txValid = true → s.sessionOpen = true → s.writeAns (s.txBytes s.txLen) = true → NotReady params polls →
    (s.env.rx = polls.map .bytes ++ .err :: rest → polls.length ≤ T.toNat →
      EndsAtErr (.sndack T) s params.pollLen polls.length rest) ∧
    ∀ (ready : List Byte) (chunks : List (List Byte)),
      s.env.rx = polls.map .bytes ++ .bytes ready :: (chunks.map .bytes ++ .err :: rest) →
      ready.length ≤ params.pollLen → isReady params ready = true → chunks.flatten.length < 8 →
      polls.length + emptyCount chunks ≤ T.toNat →
      EndsAtErr (.sndack T) s (8 - chunks.flatten.length) (polls.length + emptyCount chunks) rest

/-- The `BusError` error entry (60_exceptions.md R221, R224): whenever `SNDACK` or `RDRSP` ends in `BusError`, exactly one
`close` was made if the session was open and none if it was not, it was the last call, and session, Frame and response are
gone. For every environment. -/
def Obligations.BusErrorTearsDown : Prop :=
  ∀ (i : Instr) (s t : State), ((∃ T, i = .sndack T) ∨ ∃ n T, i = .rdrsp n T) → exec i s = .next t →
    t.result = .busError →
    t.hsState = .busError ∧ t.sessionOpen = false ∧ t.txValid = false ∧ t.rspValid = false ∧
      ∃ evs, closeCount evs = 0 ∧
        t.history = (if s.sessionOpen then [Event.busClose Config.busId] else []) ++ evs ++ s.history

/-- `Refused` has exactly the causes of 60_exceptions.md R216, and a refused operation changes `RESULT` and nothing else. The
model's choices: FRAME.CMD, which R216 does not list, counts as the `ENC` that builds it (log entry 10), and the returned
value, the model's own field, is none (log entry 6). -/
def Obligations.RefusedHasNoEffect : Prop :=
  ∀ (i : Instr) (s t : State), operation i = true → exec i s = .next t →
    (t.result = .refused ↔ RefusalCause params s i) ∧
    (RefusalCause params s i → t = { s with result := .refused, value := .noValue })

/-! ### The whole machine -/

/-- Who writes what, over all instructions (10_state.md R43, column "written by"; R33; 20_memory.md R61): `CTRL` only
`WRCTRL`; `TXBUF` and `TXLEN` only `ENC`; `RXBUF`, `RXLEN` and `ELAPSED` only `SNDACK` and `RDRSP`; `RSPLEN` only `RDRSP`.
FRAME.CMD is here the `ENC` that builds it: the model's choice, R43 names only `ENC` (log entry 10). -/
def Obligations.RegistersHaveTheirWriters : Prop :=
  ∀ (i : Instr) (s t : State), exec i s = .next t →
    ((∀ v, i ≠ .wrctrl v) → t.ctrl = s.ctrl) ∧
    ((∀ p, i ≠ .enc p) → (∀ p, i ≠ .frameCmd p) → t.txBuf = s.txBuf ∧ t.txLen = s.txLen) ∧
    ((∀ T, i ≠ .sndack T) → (∀ n T, i ≠ .rdrsp n T) →
      t.rxBuf = s.rxBuf ∧ t.rxLen = s.rxLen ∧ t.elapsed = s.elapsed) ∧
    ((∀ n T, i ≠ .rdrsp n T) → t.rspLen = s.rspLen)

/-- The codec operations and `WRCTRL` never change `HS_STATE`, `SESSION_OPEN` or `RSPVALID` and make no transport call
(40_codec_ops.md R141; 10_state.md R38; row T20 of 41_handshake_ops.md R151). FRAME.CMD is counted among them as the `ENC`
that builds it: the model's choice (log entry 10). -/
def Obligations.CodecLeavesExchangeAlone : Prop :=
  ∀ (i : Instr) (s t : State),
    ((∃ p, i = .enc p) ∨ (∃ b, i = .vack b) ∨ (∃ b n c, i = .dec b n c) ∨ (∃ v, i = .wrctrl v) ∨ ∃ p, i = .frameCmd p) →
    exec i s = .next t →
    t.hsState = s.hsState ∧ t.sessionOpen = s.sessionOpen ∧ t.rspValid = s.rspValid ∧ t.history = s.history ∧
      t.env = s.env ∧ t.rxBuf = s.rxBuf ∧ t.rxLen = s.rxLen

/-- The acts of the device and the transport complete and touch nothing of the block (10_state.md R51): they add to what
is offered to the coming reads, a frame as a poll byte with the ready bit set and then its envelope. The reading of these
three rows, and the free bytes, are the model's (log entries 10, 11; 30_encoding.md R90, R99, R101; 20_memory.md R76). -/
def Obligations.DeviceActsOfferBytes : Prop :=
  (∀ (p : List Byte) (s : State), ∃ r st pad : Byte,
    isReady params [r] = true ∧
    exec (.frameRsp p) s =
      .next
        { s with
          env := { s.env with rx := s.env.rx ++ [.bytes [r], .bytes ([st] ++ buildFrame params 0xD5#8 p ++ [pad])] }
          freeCtr := s.freeCtr + 3 }) ∧
  (∀ s : State, ∃ r st pad : Byte,
    isReady params [r] = true ∧
    exec .frameAck s =
      .next
        { s with
          env :=
            { s.env with
              rx := s.env.rx ++
                [.bytes [r], .bytes [st, 0x00#8, 0x00#8, 0xFF#8, 0x00#8, 0xFF#8, 0x00#8, pad]] }
          freeCtr := s.freeCtr + 3 }) ∧
  (∀ (st pad : Byte) (x : List Byte) (s : State),
    exec (.envelope st x pad) s =
      .next { s with env := { s.env with rx := s.env.rx ++ [.bytes ([st] ++ x ++ [pad])] } })

/-- A device that sends an ACK frame, with nothing else offered, has the waiting `SNDACK` end in `Ok`, whatever the free
bytes around the frame and whatever the timeout, even 0 (30_encoding.md R99; 41_handshake_ops.md R160; log entries 10,
11). -/
def Obligations.DeviceAckIsAccepted : Prop :=
  ∀ (T : BitVec 32) (s s' : State), s.txValid = true → s.sessionOpen = true → s.env.rx = [] →
    s.writeAns (s.txBytes s.txLen) = true → exec .frameAck s = .next s' →
    ∃ t, exec (.sndack T) s' = .next t ∧ t.result = .ok ∧ t.hsState = .awaitingResponse ∧ t.elapsed = 0 ∧
      t.sessionOpen = true ∧ t.env.rx = []

/-- A device that sends a response Frame, with nothing else offered, has `RDRSP` for any `n` up to the frame's length
return its first `n` bytes, with `CHK_EN = 0`, and its whole with `CHK_EN = 1` (30_encoding.md R102, R104;
41_handshake_ops.md R164, R165; log entries 10, 11). -/
def Obligations.DeviceResponseIsReturned : Prop :=
  ∀ (p : List Byte) (n : Nat) (T : BitVec 32) (s s' : State), WellFormed (.frameRsp p) → n ≤ p.length + 8 →
    s.hsState = .awaitingResponse → s.env.rx = [] → (s.ctrl.getLsbD 0 = true → n = p.length + 8) →
    exec (.frameRsp p) s = .next s' →
    ∃ t, exec (.rdrsp n T) s' = .next t ∧ t.result = .ok ∧ t.hsState = .done ∧ t.elapsed = 0 ∧
      t.value = .bytes ((buildFrame params 0xD5#8 p).take n)

/-- Every recorded read yielded `ERR` or at most the bytes asked (20_memory.md R64), and every step keeps it so. -/
def Obligations.StepKeepsReadsInInterface : Prop :=
  ∀ s s' : State, ReadsFit s.history → step s = .next s' → ReadsFit s'.history

/-- The invariants of 10_state.md R50, with the register ranges, the reserved bits, the buffers' canonical form and bounds
(R31 to R35, R41, R45; 20_memory.md R63; 70_reset_and_hazards.md R242), are kept by every step, resets and every answer of
the environment included. -/
def Obligations.StepKeepsBlockInvariants : Prop :=
  ∀ s s' : State, Inv params s → step s = .next s' → Inv params s'

/-- The reset state meets them (70_reset_and_hazards.md R241). -/
def Obligations.ResetMeetsBlockInvariants : Prop := Inv params State.reset

/-! ### What the host reads -/

/-- `STATUS` is the view of 10_state.md R44: `HS_STATE` in bits 2:0, `SESSION_OPEN` in 3, `TXVALID` in 4, `RSPVALID` in 5,
bits 7:6 zero. -/
def Obligations.StatusShowsFourPieces : Prop :=
  ∀ s : State,
    s.status.toNat % 8 = s.hsState.code ∧ s.status.getLsbD 3 = s.sessionOpen ∧ s.status.getLsbD 4 = s.txValid ∧
    s.status.getLsbD 5 = s.rspValid ∧ s.status.getLsbD 6 = false ∧ s.status.getLsbD 7 = false

/-- A host read of a buffer byte that the valid bits do not cover is a fault of the host, not a value
(70_reset_and_hazards.md R242; 93_implementation_defined.md U1, U2): `TXBUF` without `TXVALID` or at `TXLEN` and above;
`RXBUF` with `RSPVALID = 0` outside `Done`, at `RXLEN` and above there, and outside `RXBUF[1..RSPLEN]` with `RSPVALID =
1`. That the two diagnostic cases of 10_state.md R34 are told by `Done`, and that prefix and pad are not covered with
`RSPVALID = 1`, is the model's deduction (log entry 14). The reads that are allowed are `HostReadsOfValidBytes`. -/
def Obligations.HostReadsOfUnwrittenFault : Prop :=
  ∀ (s : State) (i : Nat),
    ((s.txValid = false ∨ s.txLen ≤ i) → ∃ f, s.readTx params i = .error f) ∧
    (s.rspValid = false → (s.hsState ≠ .done ∨ s.rxLen ≤ i) → ∃ f, s.readRx params i = .error f) ∧
    (s.rspValid = true → (i = 0 ∨ s.rspLen < i) → ∃ f, s.readRx params i = .error f)

/-- What the host may read of `RXBUF` after `SNDACK` (10_state.md R34; 92_eei_decisions.md D28): after `AckMismatch` all
eight bytes collected; after `TimedOut` and `BusError` nothing. For every environment. -/
def Obligations.DiagnosticBytesAfterSndack : Prop :=
  ∀ (T : BitVec 32) (s t : State), exec (.sndack T) s = .next t →
    (t.result = .ackMismatch → ∀ i, i < 8 → ∃ b, t.readRx params i = .ok b ∧ (t.rxBytes 0 8)[i]? = some b) ∧
    (t.result = .timedOut ∨ t.result = .busError → ∀ i, ∃ f, t.readRx params i = .error f)

/-! ### Host sequences (43_host_sequences.md) -/

/-- The firmware version decode (43_host_sequences.md R192, R193): the signature is compared first, and the word is the
four bytes at offsets 7 to 10, the first most significant; the source's example gives 0x32010607. The signature's bytes
are the catalog's constants (log entry 12). -/
def Obligations.FirmwareVersionIsBigEndian : Prop :=
  (∀ (b6 b7 b8 b9 b10 b11 : Byte),
    decodeFirmware catalogParams
        [0x00#8, 0x00#8, 0xFF#8, 0x06#8, 0xFA#8, 0xD5#8, b6, b7, b8, b9, b10, b11] =
      .ok (b7.toNat * 2 ^ 24 + b8.toNat * 2 ^ 16 + b9.toNat * 2 ^ 8 + b10.toNat)) ∧
  decodeFirmware catalogParams
      [0x00#8, 0x00#8, 0xFF#8, 0x06#8, 0xFA#8, 0xD5#8, 0x03#8, 0x32#8, 0x01#8, 0x06#8, 0x07#8, 0xE8#8] =
    .ok 0x32010607 ∧
  ∀ x : List Byte, x.take 6 ≠ catalogParams.gfvSignature → decodeFirmware catalogParams x = .error .unexpectedSignature

/-- State left behind by the catalog's commands (43_host_sequences.md R202), for every environment and every set of catalog
constants: the two shapes of command first, then the four commands. When every block operation returned `Ok`,
get_firmware_version, configure_sam and read_passive_target leave `Done` with `RSPVALID = 1` and the returned inner bytes
in `RXBUF`, and answer their decode of those bytes: a catalog error (R199) leaves the same state as success;
set_passive_activation_retries leaves `AwaitingResponse` with `RSPVALID = 0`. No Frame is left and the session is open.
A block result that is not `Ok` is passed on unchanged (R198), and a decode never gives one. The constants are
log entry 12, the timeouts as arguments log entry 28. -/
def Obligations.CatalogCommandsLeaveState : Prop :=
  (∀ (payload : List Byte) (tAck n tRsp : Nat) (s t : State) (x : List Byte),
    commandWithResponse params payload tAck n tRsp s = (.ok x, t) →
    LeftDone n t ∧ t.result = .ok ∧ x = t.rxBytes 1 n ∧ x.length = n) ∧
  (∀ (payload : List Byte) (tAck : Nat) (s t : State),
    sendCommand params payload tAck s = (.ok (), t) → LeftAwaiting t ∧ t.result = .ok) ∧
  (∀ (payload : List Byte) (tAck n tRsp : Nat) (s t : State) (e : CatalogError),
    commandWithResponse params payload tAck n tRsp s = (.error e, t) → e = .block t.result ∧ t.result ≠ .ok) ∧
  (∀ (K : CatalogParams) (tAck tRsp : Nat) (s t : State) (r : Except CatalogError Nat),
    getFirmwareVersion params K tAck tRsp s = (r, t) → CommandEnds K.gfvLen (decodeFirmware K) r t) ∧
  (∀ (K : CatalogParams) (tAck tRsp : Nat) (s t : State) (r : Except CatalogError Unit),
    configureSam params K tAck tRsp s = (r, t) → CommandEnds K.samLen (decodeSam K) r t) ∧
  (∀ (K : CatalogParams) (baudRate : Byte) (tAck timeoutMs : Nat) (s t : State) (r : Except CatalogError TargetId),
    readPassiveTarget params K baudRate tAck timeoutMs s = (r, t) → CommandEnds K.rptLen (decodeTarget K) r t) ∧
  (∀ (K : CatalogParams) (maxRetries : Byte) (tAck : Nat) (s t : State) (r : Except CatalogError Unit),
    setPassiveActivationRetries params K maxRetries tAck s = (r, t) →
    (t.result = .ok → LeftAwaiting t ∧ r = .ok ()) ∧ (t.result ≠ .ok → r = .error (.block t.result))) ∧
  ∀ (K : CatalogParams) (x : List Byte) (q : ResultCode),
    decodeFirmware K x ≠ .error (.block q) ∧ decodeSam K x ≠ .error (.block q) ∧ decodeTarget K x ≠ .error (.block q)

/-! ### RDRSP's waits, and the host's allowed reads -/

/-- If no poll of an accepted `RDRSP` shows ready and none answers `ERR`, exactly `T + 1` polls and `T + 1` sleeps are made
and `TimedOut` is raised at `ELAPSED = T + 1` (row T13 of 41_handshake_ops.md R151; R155 (a); 70_reset_and_hazards.md
R260); `RSPVALID` is cleared (R164), the session and the Frame in `TXBUF` stay. `RXBUF` is then unspecified (10_state.md
R34); that it is unwritten is the model's rendering (log entry 8). -/
def Obligations.RdrspTimesOutWhenNeverReady : Prop :=
  ∀ (n : Nat) (T : BitVec 32) (s : State) (polls : List (List Byte)) (rest : List ReadAns),
    s.hsState = .awaitingResponse → n ≤ 262 → s.env.rx = polls.map .bytes ++ rest → NotReady params polls →
    polls.length = T.toNat + 1 →
    ∃ t evs, exec (.rdrsp n T) s = .next t ∧
      t = { s with
            hsState := .timedOut, result := .timedOut, rspValid := false, elapsed := T.toNat + 1, value := .noValue
            rxBuf := [], history := t.history, env := { s.env with rx := rest } } ∧
      t.history = evs ++ s.history ∧ readCount evs = T.toNat + 1 ∧ sleepCount evs = T.toNat + 1 ∧
      sleptMs evs = T.toNat + 1 ∧ evs.length = 2 * (T.toNat + 1)

/-- A poll or a data read that answers `ERR` ends an accepted `RDRSP` in `BusError` at once, with one `close` if the session
is open (row T12 of 41_handshake_ops.md R151; R155 (e); 60_exceptions.md R214 (c), (d), R220, R221): the two cases of
`SndackReadErrorIsBusError`, for the `n + 2` bytes of a response. -/
def Obligations.RdrspReadErrorIsBusError : Prop :=
  ∀ (n : Nat) (T : BitVec 32) (s : State) (polls : List (List Byte)) (rest : List ReadAns),
    s.hsState = .awaitingResponse → n ≤ 262 → NotReady params polls →
    (s.env.rx = polls.map .bytes ++ .err :: rest → polls.length ≤ T.toNat →
      EndsAtErr (.rdrsp n T) s params.pollLen polls.length rest) ∧
    ∀ (ready : List Byte) (chunks : List (List Byte)),
      s.env.rx = polls.map .bytes ++ .bytes ready :: (chunks.map .bytes ++ .err :: rest) →
      ready.length ≤ params.pollLen → isReady params ready = true → chunks.flatten.length < n + 2 →
      polls.length + emptyCount chunks ≤ T.toNat →
      EndsAtErr (.rdrsp n T) s (n + 2 - chunks.flatten.length) (polls.length + emptyCount chunks) rest

/-- What the host may read gives the byte that is there (10_state.md R31, R33 to R35; 92_eei_decisions.md D28): in a state
that meets the invariants, `TXBUF[i]` below `TXLEN` while `TXVALID = 1` and `RXBUF[i]` from 1 to `RSPLEN` while `RSPVALID
= 1`. After `ENC` from any state, each byte of the Frame; after an `RDRSP` that ended in `Ok`, each byte it returned, and
after one that ended in `ChecksumMismatch`, each of the `n + 2` bytes collected, for every environment. -/
def Obligations.HostReadsOfValidBytes : Prop :=
  (∀ (s : State) (i : Nat), Inv params s →
    (s.txValid = true → i < s.txLen → ∃ b, s.readTx params i = .ok b ∧ (s.txBytes s.txLen)[i]? = some b) ∧
    (s.rspValid = true → 1 ≤ i → i ≤ s.rspLen →
      ∃ b, s.readRx params i = .ok b ∧ (s.rxBytes 1 s.rspLen)[i - 1]? = some b)) ∧
  (∀ (p : List Byte) (s t : State), p.length ≤ params.maxPayload → exec (.enc p) s = .next t →
    ∀ i b, (encodeFrame params p)[i]? = some b → t.readTx params i = .ok b) ∧
  ∀ (n : Nat) (T : BitVec 32) (s t : State), exec (.rdrsp n T) s = .next t →
    (t.result = .ok →
      ∃ x, t.value = .bytes x ∧ x.length = n ∧ ∀ i b, x[i]? = some b → t.readRx params (i + 1) = .ok b) ∧
    (t.result = .checksumMismatch → ∀ i, i < n + 2 → ∃ b, t.readRx params i = .ok b ∧ (t.rxBytes 0 (n + 2))[i]? = some b)

/-- What the host reads of the seven numbered registers, in any state (10_state.md R37, R39, R41, R43, R44; 30_encoding.md
R113; 42_session_ops.md R186): `CTRL` as its bit 0 alone, `STATUS` as the sum of its fields, `RESULT` as its code, the
others as they stand; the register numbers and the codes; the widths, in a state that meets the invariants; 0 in each
after reset; and what `WRCTRL` wrote. -/
def Obligations.HostRegisterReads : Prop :=
  (∀ s : State,
    s.readReg .ctrl = s.ctrl.toNat % 2 ∧
    s.readReg .status =
      s.hsState.code + 8 * s.sessionOpen.toNat + 16 * s.txValid.toNat + 32 * s.rspValid.toNat ∧
    s.readReg .result = s.result.code ∧ s.readReg .elapsed = s.elapsed ∧ s.readReg .txLen = s.txLen ∧
    s.readReg .rxLen = s.rxLen ∧ s.readReg .rspLen = s.rspLen) ∧
  [HostReg.ctrl, .status, .result, .elapsed, .txLen, .rxLen, .rspLen].map HostReg.number = [0, 1, 2, 3, 4, 5, 6] ∧
  [HsState.idle, .sending, .awaitingAck, .awaitingResponse, .done, .timedOut, .busError].map HsState.code =
    [0, 1, 2, 3, 4, 5, 6] ∧
  [ResultCode.ok, .timedOut, .busError, .ackMismatch, .shortRead, .checksumMismatch, .refused].map ResultCode.code =
    [0, 1, 2, 3, 4, 5, 6] ∧
  (∀ s : State, Inv params s →
    s.readReg .ctrl = s.ctrl.toNat ∧ s.readReg .status < 64 ∧ s.readReg .result ≤ 6 ∧ s.readReg .elapsed < 2 ^ 33 ∧
    s.readReg .txLen < 2 ^ 9 ∧ s.readReg .rxLen < 2 ^ 9 ∧ s.readReg .rspLen < 2 ^ 9) ∧
  (∀ r : HostReg, State.reset.readReg r = 0) ∧
  ∀ (v : Byte) (s t : State), exec (.wrctrl v) s = .next t → t.readReg .ctrl = v.toNat % 2 ∧ t.readReg .result = 0
end

