-- ==== Sys2Proof/Laws/Codec.lean ====
section
/-! SUPPORT. Small laws of the codec arithmetic and of the fields of a built Frame. -/

namespace Sys2Proof.Machine

theorem byteSum_append (a b : List Byte) : byteSum (a ++ b) = byteSum a + byteSum b := by
  induction a with
  | nil => simp [byteSum]
  | cons x a ih => simp [byteSum, ih, Nat.add_assoc]

@[simp] theorem sum8_toNat (bs : List Byte) : (sum8 bs).toNat = byteSum bs % 256 := by
  simp [sum8, BitVec.toNat_ofNat]

@[simp] theorem neg8_toNat (v : Byte) : (neg8 v).toNat = (256 - v.toNat) % 256 := by
  simp [neg8, BitVec.toNat_ofNat]

theorem sum8_eq_zero_iff (bs : List Byte) : sum8 bs = 0#8 ↔ byteSum bs % 256 = 0 := by
  rw [← BitVec.toNat_inj]; simp

/-- A byte and its negation sum to 0 mod 256 (40_codec_ops.md R130). -/
theorem add_neg8_mod (v : Byte) : (v.toNat + (neg8 v).toNat) % 256 = 0 := by
  have := v.isLt
  simp only [neg8_toNat]
  omega

/-- Direction, payload and `DCS` sum to 0 mod 256 (30_encoding.md R95). -/
theorem byteSum_dcs (tfi : Byte) (payload : List Byte) :
    byteSum (tfi :: (payload ++ [dcsByte tfi payload])) % 256 = 0 := by
  have h : (dcsByte tfi payload).toNat = (256 - (byteSum (tfi :: payload)) % 256) % 256 := by
    simp [dcsByte]
  have e : byteSum (tfi :: (payload ++ [dcsByte tfi payload])) = byteSum (tfi :: payload) + (dcsByte tfi payload).toNat := by
    simp [byteSum, byteSum_append, Nat.add_assoc]
  rw [e, h]
  omega

/-- `DCS` is the only byte that makes that sum 0. -/
theorem eq_dcsByte_of_sum {tfi d : Byte} {payload : List Byte}
    (h : byteSum (tfi :: (payload ++ [d])) % 256 = 0) : d = dcsByte tfi payload := by
  have e : byteSum (tfi :: (payload ++ [d])) = byteSum (tfi :: payload) + d.toNat := by
    simp [byteSum, byteSum_append, Nat.add_assoc]
  rw [← BitVec.toNat_inj]
  simp only [dcsByte, neg8_toNat, sum8_toNat]
  have := d.isLt
  omega

theorem byteNat_eq_of_getElem? {bs : List Byte} {i : Nat} {b : Byte} (h : bs[i]? = some b) : byteNat bs i = b.toNat := by
  simp [byteNat, h]

@[simp] theorem sub_length (bs : List Byte) (i n : Nat) : (sub bs i n).length = min n (bs.length - i) := by
  simp [sub]

@[simp] theorem buildFrame_length (P : Params) (tfi : Byte) (p : List Byte) :
    (buildFrame P tfi p).length = p.length + 8 := by
  simp [buildFrame]

@[simp] theorem encodeFrame_length (P : Params) (p : List Byte) : (encodeFrame P p).length = p.length + 8 := by
  simp [encodeFrame]

theorem lenByte_toNat {P : Params} {p : Nat} (h : p + P.lenBias ≤ 255) : (lenByte P p).toNat = p + P.lenBias := by
  simp only [lenByte, BitVec.toNat_ofNat]
  omega

/-- The fields of a built Frame by offset (30_encoding.md R91). -/
theorem buildFrame_fields (P : Params) (tfi : Byte) (p : List Byte) :
    (buildFrame P tfi p)[0]? = some P.preamble ∧ (buildFrame P tfi p)[1]? = some P.start1 ∧
    (buildFrame P tfi p)[2]? = some P.start2 ∧ (buildFrame P tfi p)[3]? = some (lenByte P p.length) ∧
    (buildFrame P tfi p)[4]? = some (lcsByte (lenByte P p.length)) ∧ (buildFrame P tfi p)[5]? = some tfi := by
  simp [buildFrame]

theorem buildFrame_last (P : Params) (tfi : Byte) (p : List Byte) :
    (buildFrame P tfi p)[6 + p.length]? = some (dcsByte tfi p) ∧
    (buildFrame P tfi p)[6 + p.length + 1]? = some P.postamble := by
  have e : buildFrame P tfi p =
      ([P.preamble, P.start1, P.start2, lenByte P p.length, lcsByte (lenByte P p.length), tfi] ++ p) ++
        [dcsByte tfi p, P.postamble] := by
    simp [buildFrame]
  rw [e]
  constructor
  · rw [List.getElem?_append_right (by simp; omega)]
    simp [show 6 + p.length - (p.length + 1 + 1 + 1 + 1 + 1 + 1) = 0 by omega]
  · rw [List.getElem?_append_right (by simp; omega)]
    simp [show 6 + p.length - (p.length + 5) = 1 by omega]

/-- Direction, payload and `DCS` as one stretch of the Frame. -/
theorem buildFrame_summed (P : Params) (tfi : Byte) (p : List Byte) :
    sub (buildFrame P tfi p) 5 (p.length + 2) = tfi :: (p ++ [dcsByte tfi p]) := by
  have e : buildFrame P tfi p =
      [P.preamble, P.start1, P.start2, lenByte P p.length, lcsByte (lenByte P p.length)] ++
        (tfi :: (p ++ [dcsByte tfi p]) ++ [P.postamble]) := by
    simp [buildFrame]
  rw [e, sub, List.drop_left' (by simp), List.take_left' (by simp)]

theorem buildFrame_payload (P : Params) (tfi : Byte) (p : List Byte) : sub (buildFrame P tfi p) 6 p.length = p := by
  simp [sub, buildFrame]

/-- The inner bytes of an envelope (30_encoding.md R101). -/
theorem innerBytes_envelope {P : Params} (h : P.envPre = 1) (st pad : Byte) (x tail : List Byte) :
    innerBytes P (buildEnvelope st x pad ++ tail) x.length = x := by
  simp [innerBytes, sub, buildEnvelope, h]

@[simp] theorem buildEnvelope_length (st pad : Byte) (x : List Byte) : (buildEnvelope st x pad).length = x.length + 2 := by
  simp [buildEnvelope]

/-- The five tests of 40_codec_ops.md R137 as one conjunction. -/
theorem checksumsOk_iff (x : List Byte) :
    checksumsOk x = true ↔
      6 ≤ x.length ∧ 1 ≤ byteNat x 3 ∧ (byteNat x 3 + byteNat x 4) % 256 = 0 ∧ 5 + byteNat x 3 < x.length ∧
        byteSum (sub x 5 (byteNat x 3 + 1)) % 256 = 0 := by
  unfold checksumsOk
  rw [← sum8_eq_zero_iff]
  split
  · simp; omega
  · split
    · simp; omega
    · split
      · simp; omega
      · split
        · simp; omega
        · split
          · simp; tauto
          · simp
            refine ⟨by omega, by omega, by omega, by omega, by tauto⟩

theorem ackMatches_iff {P : Params} (h : P.ackPattern.length = P.ackLen) (x : List Byte) :
    ackMatches P x = true ↔ x = P.ackPattern := by
  simp only [ackMatches, Bool.and_eq_true, beq_iff_eq]
  constructor
  · exact fun h => h.2
  · rintro rfl; exact ⟨h, rfl⟩

theorem params_valid : params.Valid where
  lenBias_one := rfl
  payload_fits := by decide
  ack_length := rfl
  envPre_one := rfl
  envPost_one := rfl
  poll_pos := by decide
  tick_pos := by decide

end Sys2Proof.Machine
end

