-- ==== Sys2Proof/Laws/Decode.lean ====
section
/-! SUPPORT. The decoder's pieces against the encoder's: each reads back what is written, and reads nothing else. -/

namespace Sys2Proof

open Machine

/-! ### Reading back what is written -/

theorem takeBytes_append (x rest : List Byte) : takeBytes x.length (x ++ rest) = .ok (x, rest) := by
  simp [takeBytes]

theorem encodeNatGroups_succ (k n : Nat) :
    encodeNatGroups (k + 1) n =
      if n < 128 then [BitVec.ofNat 8 n] else BitVec.ofNat 8 (128 + n % 128) :: encodeNatGroups k (n / 128) := rfl

theorem decodeNat_encodeNatGroups (rest : List Byte) :
    ∀ k n, n < 128 * (k + 1) → decodeNat (encodeNatGroups k n ++ rest) = .ok (n, rest) := by
  intro k
  induction k with
  | zero =>
    intro n h
    have h' : (BitVec.ofNat 8 n).toNat = n := by simp; omega
    simp only [encodeNatGroups, List.cons_append, List.nil_append, decodeNat, h']
    rw [if_pos (by omega)]
  | succ k ih =>
    intro n h
    rw [encodeNatGroups_succ]
    split
    · next hn =>
      have h' : (BitVec.ofNat 8 n).toNat = n := by simp; omega
      simp only [List.cons_append, List.nil_append, decodeNat, h']
      rw [if_pos hn]
    · next hn =>
      have h' : (BitVec.ofNat 8 (128 + n % 128)).toNat = 128 + n % 128 := by simp; omega
      simp only [List.cons_append, decodeNat, h', ih (n / 128) (by omega)]
      rw [if_neg (by omega), if_neg (by omega)]
      have e : 128 + n % 128 - 128 + 128 * (n / 128) = n := by omega
      rw [e]

theorem decodeNat_encodeNat (n : Nat) (rest : List Byte) : decodeNat (encodeNat n ++ rest) = .ok (n, rest) :=
  decodeNat_encodeNatGroups rest n n (by omega)

theorem decodeSeq_encodeSeq (x rest : List Byte) : decodeSeq (encodeSeq x ++ rest) = .ok (x, rest) := by
  simp only [decodeSeq, encodeSeq, List.append_assoc, decodeNat_encodeNat, takeBytes_append]

theorem decodeU32_encodeU32 (t : BitVec 32) (rest : List Byte) : decodeU32 (encodeU32 t ++ rest) = .ok (t, rest) := by
  simp only [encodeU32, List.cons_append, List.nil_append, decodeU32, Except.ok.injEq, Prod.mk.injEq, and_true]
  apply BitVec.eq_of_getLsbD_eq
  intro i hi
  simp only [BitVec.getLsbD_append, BitVec.getLsbD_extractLsb']
  split
  · next h => simp [h]
  · split
    · next h1 h2 => simp only [h2, decide_true, Bool.true_and]; congr 1; omega
    · split
      · next h1 h2 h3 => simp only [h3, decide_true, Bool.true_and]; congr 1; omega
      · next h1 h2 h3 =>
        have h4 : i - 8 - 8 - 8 < 8 := by omega
        simp only [h4, decide_true, Bool.true_and]; congr 1; omega

theorem decodeCheck_encodeCheck (c : Bool) (rest : List Byte) : decodeCheck (encodeCheck c ++ rest) = .ok (c, rest) := by
  cases c <;> rfl

/-- Either kind of Frame, with a payload the length byte can count (30_encoding.md R93, R96). -/
theorem decodeFrame_buildFrame {P : Params} {tfi : Byte} {payload : List Byte} (rest : List Byte)
    (ht : tfi = P.tfiH2D ∨ tfi = P.tfiD2H) (hp : payload.length + P.lenBias ≤ 255) :
    decodeFrame P (buildFrame P tfi payload ++ rest) =
      if tfi = P.tfiH2D then
        if payload.length ≤ P.maxPayload then .ok (.frameCmd payload, rest) else .error .payloadTooLong
      else .ok (.frameRsp payload, rest) := by
  have hl := lenByte_toNat hp
  have htail : decodeFrameTail P tfi payload.length (payload ++ ([dcsByte tfi payload, P.postamble] ++ rest)) =
      .ok (payload, rest) := by
    simp only [decodeFrameTail, takeBytes_append, List.cons_append, List.nil_append, ne_eq, not_true_eq_false, if_false]
  have h1 : ¬ (tfi ≠ P.tfiH2D ∧ tfi ≠ P.tfiD2H) := by
    rintro ⟨a, b⟩
    rcases ht with ht | ht
    · exact a ht
    · exact b ht
  simp only [buildFrame, List.cons_append, List.nil_append, List.append_assoc, decodeFrame, hl, Nat.add_sub_cancel]
  simp only [List.cons_append, List.nil_append] at htail
  rw [if_neg (by simp), if_neg (by simp), if_neg (by omega), if_neg (by simp), if_neg h1, htail]

theorem decodeAck_pattern {P : Params} (h : P.ackPattern.length = P.ackLen) (rest : List Byte) :
    decodeAck P (P.ackPattern ++ rest) = .ok (.frameAck, rest) := by
  have hm : ackMatches P P.ackPattern = true := by simp [ackMatches, h]
  simp only [decodeAck, ← h, takeBytes_append, hm, if_true]

theorem decodeEnvelopeItem_build {P : Params} {inner : List Byte} (h : inner.length ≤ P.maxRead) (status pad : Byte)
    (rest : List Byte) :
    decodeEnvelopeItem P (encodeNat inner.length ++ buildEnvelope status inner pad ++ rest) =
      .ok (.envelope status inner pad, rest) := by
  simp only [decodeEnvelopeItem, buildEnvelope, List.append_assoc, decodeNat_encodeNat, List.cons_append,
    takeBytes_append, List.nil_append, h, if_true]

/-! ### Reading nothing else -/

theorem takeBytes_eq {n : Nat} {bs x rest : List Byte} (h : takeBytes n bs = .ok (x, rest)) :
    x.length = n ∧ x ++ rest = bs := by
  unfold takeBytes at h
  split at h
  · next hn =>
    simp only [Except.ok.injEq, Prod.mk.injEq] at h
    obtain ⟨rfl, rfl⟩ := h
    exact ⟨by simp [hn], List.take_append_drop n bs⟩
  · simp at h

/-- More groups than are needed change nothing. -/
theorem encodeNatGroups_stable : ∀ k j n, n < 128 * (k + 1) → k ≤ j → encodeNatGroups j n = encodeNatGroups k n := by
  intro k
  induction k with
  | zero =>
    intro j n h hj
    cases j with
    | zero => rfl
    | succ j => rw [encodeNatGroups_succ, if_pos (by omega)]; rfl
  | succ k ih =>
    intro j n h hj
    obtain ⟨j, rfl⟩ : ∃ i, j = i + 1 := ⟨j - 1, by omega⟩
    rw [encodeNatGroups_succ, encodeNatGroups_succ]
    split
    · rfl
    · rw [ih j (n / 128) (by omega) (by omega)]

theorem encodeNat_of_lt {n : Nat} (h : n < 128) : encodeNat n = [BitVec.ofNat 8 n] := by
  rw [encodeNat, encodeNatGroups_stable 0 n n (by omega) (by omega)]; rfl

theorem encodeNat_of_ge {n : Nat} (h : 128 ≤ n) : encodeNat n = BitVec.ofNat 8 (128 + n % 128) :: encodeNat (n / 128) := by
  obtain ⟨m, rfl⟩ : ∃ m, n = m + 1 := ⟨n - 1, by omega⟩
  rw [encodeNat, encodeNatGroups_succ, if_neg (by omega), encodeNat,
    encodeNatGroups_stable ((m + 1) / 128) m ((m + 1) / 128) (by omega) (by omega)]

theorem decodeNat_eq {n : Nat} {rest : List Byte} : ∀ {bs : List Byte}, decodeNat bs = .ok (n, rest) → encodeNat n ++ rest = bs := by
  intro bs
  induction bs generalizing n with
  | nil => intro h; simp [decodeNat] at h
  | cons b bs ih =>
    intro h
    simp only [decodeNat] at h
    split at h
    · next hb =>
      simp only [Except.ok.injEq, Prod.mk.injEq] at h
      obtain ⟨rfl, rfl⟩ := h
      rw [encodeNat_of_lt hb]
      simp
    · next hb =>
      split at h
      · simp at h
      · next m r hd =>
        split at h
        · simp at h
        · next hm =>
          simp only [Except.ok.injEq, Prod.mk.injEq] at h
          obtain ⟨rfl, rfl⟩ := h
          have hlt := b.isLt
          rw [encodeNat_of_ge (by omega)]
          have e1 : (b.toNat - 128 + 128 * m) / 128 = m := by omega
          have e2 : 128 + (b.toNat - 128 + 128 * m) % 128 = b.toNat := by omega
          rw [e1, e2, List.cons_append, ih hd]
          simp

theorem decodeSeq_eq {bs x rest : List Byte} (h : decodeSeq bs = .ok (x, rest)) : encodeSeq x ++ rest = bs := by
  unfold decodeSeq at h
  split at h
  · simp at h
  · next n r hn =>
    obtain ⟨rfl, h2⟩ := takeBytes_eq h
    rw [encodeSeq, List.append_assoc, h2, decodeNat_eq hn]

theorem decodeU32_eq {bs rest : List Byte} {t : BitVec 32} (h : decodeU32 bs = .ok (t, rest)) :
    encodeU32 t ++ rest = bs := by
  unfold decodeU32 at h
  split at h
  · next a b c d r =>
    simp only [Except.ok.injEq, Prod.mk.injEq] at h
    obtain ⟨rfl, rfl⟩ := h
    have e : ∀ (x : BitVec 32) (k : Nat) (v : Byte), (∀ i, i < 8 → x.getLsbD (k + i) = v.getLsbD i) →
        x.extractLsb' k 8 = v := by
      intro x k v hx
      apply BitVec.eq_of_getLsbD_eq
      intro i hi
      rw [BitVec.getLsbD_extractLsb']
      simp [hi, hx i hi]
    simp only [encodeU32, List.cons_append, List.nil_append, List.cons.injEq, and_true]
    refine ⟨e _ _ _ ?_, e _ _ _ ?_, e _ _ _ ?_, e _ _ _ ?_⟩ <;> intro i hi <;>
      simp only [BitVec.getLsbD_append]
    · simp [hi]
    · rw [if_neg (by omega), if_pos (by omega)]; congr 1; omega
    · rw [if_neg (by omega), if_neg (by omega), if_pos (by omega)]; congr 1; omega
    · rw [if_neg (by omega), if_neg (by omega), if_neg (by omega)]; congr 1; omega
  · simp at h

theorem decodeCheck_eq {bs rest : List Byte} {c : Bool} (h : decodeCheck bs = .ok (c, rest)) :
    encodeCheck c ++ rest = bs := by
  unfold decodeCheck at h
  split at h
  · simp at h
  · split at h
    · next hb => simp only [Except.ok.injEq, Prod.mk.injEq] at h; obtain ⟨rfl, rfl⟩ := h; subst hb; rfl
    · split at h
      · next hb => simp only [Except.ok.injEq, Prod.mk.injEq] at h; obtain ⟨rfl, rfl⟩ := h; subst hb; rfl
      · simp at h

theorem decodeAck_eq {P : Params} (hP : P.ackPattern.length = P.ackLen) {bs rest : List Byte} {i : Instr}
    (h : decodeAck P bs = .ok (i, rest)) : i = .frameAck ∧ P.ackPattern ++ rest = bs := by
  unfold decodeAck at h
  split at h
  · simp at h
  · next x r hx =>
    split at h
    · next hm =>
      simp only [Except.ok.injEq, Prod.mk.injEq] at h
      obtain ⟨rfl, rfl⟩ := h
      rw [← (ackMatches_iff hP x).mp hm]
      exact ⟨rfl, (takeBytes_eq hx).2⟩
    · simp at h

theorem decodeEnvelopeItem_eq {P : Params} {bs rest : List Byte} {i : Instr}
    (h : decodeEnvelopeItem P bs = .ok (i, rest)) :
    ∃ status inner pad, i = .envelope status inner pad ∧ inner.length ≤ P.maxRead ∧
      encodeNat inner.length ++ buildEnvelope status inner pad ++ rest = bs := by
  unfold decodeEnvelopeItem at h
  split at h
  · simp at h
  · simp at h
  · next n status r hn =>
    split at h
    · simp at h
    · simp at h
    · next inner pad r' hi =>
      split at h
      · next hle =>
        simp only [Except.ok.injEq, Prod.mk.injEq] at h
        obtain ⟨rfl, rfl⟩ := h
        obtain ⟨hl, ha⟩ := takeBytes_eq hi
        refine ⟨status, inner, pad, rfl, hle, ?_⟩
        rw [hl, ← decodeNat_eq hn, ← ha]
        simp [buildEnvelope]
      · simp at h

/-- Whatever is accepted as a Frame is one of the two Frames, with its own fields (30_encoding.md R96). -/
theorem decodeFrame_eq {P : Params} {bs rest : List Byte} {i : Instr} (h : decodeFrame P bs = .ok (i, rest)) :
    (∃ payload, i = .frameCmd payload ∧ payload.length ≤ P.maxPayload ∧ payload.length + P.lenBias ≤ 255 ∧
        buildFrame P P.tfiH2D payload ++ rest = bs) ∨
      (∃ payload, i = .frameRsp payload ∧ payload.length + P.lenBias ≤ 255 ∧
        buildFrame P P.tfiD2H payload ++ rest = bs) := by
  unfold decodeFrame at h
  split at h
  · next pre s1 s2 len lcs tfi r =>
    split at h
    · simp at h
    · next hpre =>
    split at h
    · simp at h
    · next hst =>
    split at h
    · simp at h
    · next hlen =>
    split at h
    · simp at h
    · next hlcs =>
    split at h
    · simp at h
    · next htfi =>
    split at h
    · simp at h
    · next payload r' htail =>
      simp only [ne_eq, not_or, not_and, Decidable.not_not] at hpre hst hlcs htfi
      have hlt := len.isLt
      have hb : payload.length + P.lenBias ≤ 255 ∧ buildFrame P tfi payload ++ r' = pre :: s1 :: s2 :: len :: lcs :: tfi :: r := by
        unfold decodeFrameTail at htail
        split at htail
        · simp at htail
        · next x d p r'' hx =>
          split at htail
          · simp at htail
          · next hd =>
          split at htail
          · simp at htail
          · next hp =>
            simp only [Except.ok.injEq, Prod.mk.injEq] at htail
            obtain ⟨rfl, rfl⟩ := htail
            simp only [ne_eq, Decidable.not_not] at hd hp
            obtain ⟨hl, ha⟩ := takeBytes_eq hx
            have hlb : lenByte P x.length = len := by
              rw [lenByte, hl]
              have e : len.toNat - P.lenBias + P.lenBias = len.toNat := by omega
              rw [e]; simp
            refine ⟨by omega, ?_⟩
            rw [← ha, buildFrame, hlb]
            simp [hpre, hst.1, hst.2, hlcs, hd, hp]
        · simp at htail
      split at h
      · next ht =>
        split at h
        · next hm =>
          simp only [Except.ok.injEq, Prod.mk.injEq] at h
          obtain ⟨rfl, rfl⟩ := h
          exact Or.inl ⟨payload, rfl, hm, hb.1, ht ▸ hb.2⟩
        · simp at h
      · next ht =>
        simp only [Except.ok.injEq, Prod.mk.injEq] at h
        obtain ⟨rfl, rfl⟩ := h
        exact Or.inr ⟨payload, rfl, hb.1, htfi ht ▸ hb.2⟩
  · simp at h

end Sys2Proof
end

