-- ==== Sys2Proof/Laws/Memory.lean ====
section
/-! SUPPORT. The laws of the byte buffers: read after write, sequences and slices, and that every memory operation keeps
the canonical form. -/

namespace Sys2Proof.Machine

theorem Memory.read_write (m : Memory) (a i : Nat) (v : Byte) :
    (m.write a v).read i = if i = a then some v else m.read i := by
  induction m with
  | nil => simp [Memory.write, Memory.read]
  | cons c m ih =>
    obtain ⟨k, b⟩ := c
    simp only [Memory.write]
    split
    · simp [Memory.read]
    · split
      · subst_vars
        by_cases h : i = k <;> simp [Memory.read, h]
      · simp only [Memory.read, ih]
        by_cases h : i = k
        · have : ¬ i = a := by omega
          simp [h]
          intro h'
          omega
        · simp [h]

@[simp] theorem Memory.read_write_self (m : Memory) (a : Nat) (v : Byte) : (m.write a v).read a = some v := by
  simp [Memory.read_write]

theorem Memory.read_write_of_ne (m : Memory) {a i : Nat} (v : Byte) (h : i ≠ a) : (m.write a v).read i = m.read i := by
  simp [Memory.read_write, h]

theorem Memory.read_writeSeq_below (bs : List Byte) :
    ∀ (m : Memory) (a i : Nat), i < a → (m.writeSeq a bs).read i = m.read i := by
  induction bs with
  | nil => intro m a i _; rfl
  | cons b bs ih =>
    intro m a i h
    simp only [Memory.writeSeq]
    rw [ih _ _ _ (by omega), Memory.read_write_of_ne _ _ (by omega)]

theorem Memory.read_writeSeq_above (bs : List Byte) :
    ∀ (m : Memory) (a i : Nat), a + bs.length ≤ i → (m.writeSeq a bs).read i = m.read i := by
  induction bs with
  | nil => intro m a i _; rfl
  | cons b bs ih =>
    intro m a i h
    simp only [List.length_cons] at h
    simp only [Memory.writeSeq]
    rw [ih _ _ _ (by omega), Memory.read_write_of_ne _ _ (by omega)]

theorem Memory.read_writeSeq_inside (bs : List Byte) :
    ∀ (m : Memory) (a j : Nat), j < bs.length → (m.writeSeq a bs).read (a + j) = bs[j]? := by
  induction bs with
  | nil => intro m a j h; simp at h
  | cons b bs ih =>
    intro m a j h
    simp only [List.length_cons] at h
    simp only [Memory.writeSeq]
    cases j with
    | zero => simp [Memory.read_writeSeq_below]
    | succ j =>
      have e : a + (j + 1) = a + 1 + j := by omega
      rw [e, ih _ _ _ (by omega)]
      simp

/-- Every read after a sequence was stored, in one equation. -/
theorem Memory.read_writeSeq (m : Memory) (a i : Nat) (bs : List Byte) :
    (m.writeSeq a bs).read i = if a ≤ i ∧ i < a + bs.length then bs[i - a]? else m.read i := by
  split
  · next h =>
    have e : i = a + (i - a) := by omega
    rw [e, Memory.read_writeSeq_inside _ _ _ _ (by omega)]
    congr 1
    omega
  · next h =>
    by_cases h' : i < a
    · exact Memory.read_writeSeq_below _ _ _ _ h'
    · exact Memory.read_writeSeq_above _ _ _ _ (by omega)

@[simp] theorem Memory.slice_length (u : Nat → Byte) (m : Memory) (a n : Nat) : (m.slice u a n).length = n := by
  induction n generalizing a with
  | zero => rfl
  | succ n ih => simp [Memory.slice, ih]

theorem Memory.slice_getElem? (u : Nat → Byte) (m : Memory) (a n i : Nat) :
    (m.slice u a n)[i]? = if i < n then some ((m.read (a + i)).getD (u (a + i))) else none := by
  induction n generalizing a i with
  | zero => simp [Memory.slice]
  | succ n ih =>
    cases i with
    | zero => simp [Memory.slice]
    | succ i =>
      simp only [Memory.slice, List.getElem?_cons_succ, ih]
      have e : a + 1 + i = a + (i + 1) := by omega
      simp [e]

/-- Two slices agree where the reads under them do. -/
theorem Memory.slice_congr (u : Nat → Byte) (m m' : Memory) (a n : Nat)
    (h : ∀ i, a ≤ i → i < a + n → m.read i = m'.read i) : m.slice u a n = m'.slice u a n := by
  apply List.ext_getElem?
  intro i
  rw [Memory.slice_getElem?, Memory.slice_getElem?]
  split
  · next hi => rw [h _ (by omega) (by omega)]
  · rfl

/-- A sequence just stored is read back. -/
theorem Memory.slice_writeSeq (u : Nat → Byte) (m : Memory) (a : Nat) (bs : List Byte) :
    (m.writeSeq a bs).slice u a bs.length = bs := by
  apply List.ext_getElem?
  intro i
  rw [Memory.slice_getElem?]
  split
  · next h => rw [Memory.read_writeSeq_inside _ _ _ _ h, List.getElem?_eq_getElem h]; rfl
  · next h => rw [List.getElem?_eq_none (by omega)]

/-- A slice in two parts. -/
theorem Memory.slice_add (u : Nat → Byte) (m : Memory) (a n k : Nat) :
    m.slice u a (n + k) = m.slice u a n ++ m.slice u (a + n) k := by
  induction n generalizing a with
  | zero => simp [Memory.slice]
  | succ n ih =>
    have e : n + 1 + k = (n + k) + 1 := by omega
    have e' : a + 1 + n = a + (n + 1) := by omega
    rw [e]
    simp [Memory.slice, ih, e']

/-- A part of a slice. -/
theorem Memory.sub_slice (u : Nat → Byte) (m : Memory) (a n i k : Nat) (h : i + k ≤ n) :
    sub (m.slice u a n) i k = m.slice u (a + i) k := by
  have e : n = i + (k + (n - i - k)) := by omega
  rw [e, Memory.slice_add, Memory.slice_add]
  simp [sub]

theorem Memory.writeSeq_append (x y : List Byte) :
    ∀ (m : Memory) (a : Nat), m.writeSeq a (x ++ y) = (m.writeSeq a x).writeSeq (a + x.length) y := by
  induction x with
  | nil => intro m a; simp [Memory.writeSeq]
  | cons b x ih =>
    intro m a
    have e : a + (x.length + 1) = a + 1 + x.length := by omega
    simp [Memory.writeSeq, ih, e]

/-! ### The canonical form -/

theorem Memory.fst_mem_write {m : Memory} {a x : Nat} {v : Byte} (h : x ∈ (m.write a v).map Prod.fst) :
    x = a ∨ x ∈ m.map Prod.fst := by
  induction m with
  | nil => simpa [Memory.write] using h
  | cons c m ih =>
    obtain ⟨k, b⟩ := c
    simp only [Memory.write] at h
    split at h
    · simpa using h
    · split at h
      · simp only [List.map_cons, List.mem_cons] at h ⊢
        tauto
      · simp only [List.map_cons, List.mem_cons] at h ⊢
        rcases h with h | h
        · tauto
        · rcases ih h with h | h <;> tauto

theorem Memory.wf_write {m : Memory} (h : m.wf) (a : Nat) (v : Byte) : (m.write a v).wf := by
  induction m with
  | nil => simp [Memory.write, Memory.wf]
  | cons c m ih =>
    obtain ⟨k, b⟩ := c
    have hm : Memory.wf m := by
      simp only [Memory.wf, List.map_cons, List.pairwise_cons] at h
      exact h.2
    have hk : ∀ x ∈ m.map Prod.fst, k < x := by
      simp only [Memory.wf, List.map_cons, List.pairwise_cons] at h
      exact h.1
    simp only [Memory.write]
    split
    · next hlt =>
      simp only [Memory.wf, List.map_cons, List.pairwise_cons]
      refine ⟨?_, hk, hm⟩
      intro x hx
      rcases List.mem_cons.mp hx with rfl | hx
      · exact hlt
      · exact Nat.lt_trans hlt (hk x hx)
    · split
      · next he =>
        subst he
        simp only [Memory.wf, List.map_cons, List.pairwise_cons]
        exact ⟨hk, hm⟩
      · simp only [Memory.wf, List.map_cons, List.pairwise_cons]
        refine ⟨?_, ih hm⟩
        intro x hx
        rcases Memory.fst_mem_write hx with rfl | hx
        · omega
        · exact hk x hx

theorem Memory.wf_writeSeq (bs : List Byte) : ∀ {m : Memory}, m.wf → ∀ a, (m.writeSeq a bs).wf := by
  induction bs with
  | nil => intro m h a; exact h
  | cons b bs ih => intro m h a; exact ih (Memory.wf_write h a b) (a + 1)

theorem Memory.wf_empty : Memory.wf [] := by simp [Memory.wf]

/-- The reset state's buffers are in canonical form. -/
theorem reset_memory_wf : State.reset.txBuf.wf ∧ State.reset.rxBuf.wf := ⟨Memory.wf_empty, Memory.wf_empty⟩

/-! ### Bounds and filling -/

theorem Memory.within_empty (n : Nat) : Memory.Within [] n := by intro i _; rfl

theorem Memory.within_writeSeq {m : Memory} {n a : Nat} {bs : List Byte} (h : m.Within n) (hb : a + bs.length ≤ n) :
    (m.writeSeq a bs).Within n := by
  intro i hi
  rw [Memory.read_writeSeq_above _ _ _ _ (by omega)]
  exact h i hi

theorem Memory.filled_writeSeq {m : Memory} {a : Nat} {bs : List Byte} (h : m.Filled 0 a) :
    (m.writeSeq a bs).Filled 0 (a + bs.length) := by
  intro i _ hi
  rw [Memory.read_writeSeq]
  split
  · next h' => rw [List.getElem?_eq_getElem (by omega)]; rfl
  · exact h i (by omega) (by omega)

end Sys2Proof.Machine
end

