-- ==== Sys2Proof/Laws/State.lean ====
section
/-! SUPPORT. One lemma per field per update, each true by rfl, so that no later proof unfolds a record update. -/

namespace Sys2Proof.Machine

/-! ### `State.finish` -/

@[simp] theorem State.finish_hsState (r : ResultCode) (v : RetVal) (s : State) : (s.finish r v).hsState = s.hsState := rfl
@[simp] theorem State.finish_sessionOpen (r : ResultCode) (v : RetVal) (s : State) : (s.finish r v).sessionOpen = s.sessionOpen := rfl
@[simp] theorem State.finish_txValid (r : ResultCode) (v : RetVal) (s : State) : (s.finish r v).txValid = s.txValid := rfl
@[simp] theorem State.finish_rspValid (r : ResultCode) (v : RetVal) (s : State) : (s.finish r v).rspValid = s.rspValid := rfl
@[simp] theorem State.finish_txLen (r : ResultCode) (v : RetVal) (s : State) : (s.finish r v).txLen = s.txLen := rfl
@[simp] theorem State.finish_rxLen (r : ResultCode) (v : RetVal) (s : State) : (s.finish r v).rxLen = s.rxLen := rfl
@[simp] theorem State.finish_rspLen (r : ResultCode) (v : RetVal) (s : State) : (s.finish r v).rspLen = s.rspLen := rfl
@[simp] theorem State.finish_elapsed (r : ResultCode) (v : RetVal) (s : State) : (s.finish r v).elapsed = s.elapsed := rfl
@[simp] theorem State.finish_result (r : ResultCode) (v : RetVal) (s : State) : (s.finish r v).result = r := rfl
@[simp] theorem State.finish_ctrl (r : ResultCode) (v : RetVal) (s : State) : (s.finish r v).ctrl = s.ctrl := rfl
@[simp] theorem State.finish_txBuf (r : ResultCode) (v : RetVal) (s : State) : (s.finish r v).txBuf = s.txBuf := rfl
@[simp] theorem State.finish_rxBuf (r : ResultCode) (v : RetVal) (s : State) : (s.finish r v).rxBuf = s.rxBuf := rfl
@[simp] theorem State.finish_value (r : ResultCode) (v : RetVal) (s : State) : (s.finish r v).value = v := rfl
@[simp] theorem State.finish_env (r : ResultCode) (v : RetVal) (s : State) : (s.finish r v).env = s.env := rfl
@[simp] theorem State.finish_history (r : ResultCode) (v : RetVal) (s : State) : (s.finish r v).history = s.history := rfl
@[simp] theorem State.finish_issue (r : ResultCode) (v : RetVal) (s : State) : (s.finish r v).issue = s.issue := rfl
@[simp] theorem State.finish_resetIn (r : ResultCode) (v : RetVal) (s : State) : (s.finish r v).resetIn = s.resetIn := rfl
@[simp] theorem State.finish_freeCtr (r : ResultCode) (v : RetVal) (s : State) : (s.finish r v).freeCtr = s.freeCtr := rfl

/-! ### `State.memRead` -/

@[simp] theorem State.memRead_hsState (P : Params) (n : Nat) (s : State) : (s.memRead P n).hsState = s.hsState := rfl
@[simp] theorem State.memRead_sessionOpen (P : Params) (n : Nat) (s : State) : (s.memRead P n).sessionOpen = s.sessionOpen := rfl
@[simp] theorem State.memRead_txValid (P : Params) (n : Nat) (s : State) : (s.memRead P n).txValid = s.txValid := rfl
@[simp] theorem State.memRead_rspValid (P : Params) (n : Nat) (s : State) : (s.memRead P n).rspValid = s.rspValid := rfl
@[simp] theorem State.memRead_txLen (P : Params) (n : Nat) (s : State) : (s.memRead P n).txLen = s.txLen := rfl
@[simp] theorem State.memRead_rxLen (P : Params) (n : Nat) (s : State) : (s.memRead P n).rxLen = s.rxLen := rfl
@[simp] theorem State.memRead_rspLen (P : Params) (n : Nat) (s : State) : (s.memRead P n).rspLen = s.rspLen := rfl
@[simp] theorem State.memRead_elapsed (P : Params) (n : Nat) (s : State) : (s.memRead P n).elapsed = s.elapsed := rfl
@[simp] theorem State.memRead_result (P : Params) (n : Nat) (s : State) : (s.memRead P n).result = s.result := rfl
@[simp] theorem State.memRead_ctrl (P : Params) (n : Nat) (s : State) : (s.memRead P n).ctrl = s.ctrl := rfl
@[simp] theorem State.memRead_txBuf (P : Params) (n : Nat) (s : State) : (s.memRead P n).txBuf = s.txBuf := rfl
@[simp] theorem State.memRead_rxBuf (P : Params) (n : Nat) (s : State) : (s.memRead P n).rxBuf = s.rxBuf := rfl
@[simp] theorem State.memRead_value (P : Params) (n : Nat) (s : State) : (s.memRead P n).value = s.value := rfl
@[simp] theorem State.memRead_env (P : Params) (n : Nat) (s : State) :
    (s.memRead P n).env = { s.env with rx := restOffered n s.env.rx } := rfl
@[simp] theorem State.memRead_history (P : Params) (n : Nat) (s : State) :
    (s.memRead P n).history = .read P.busId n (s.readAns n) :: s.history := rfl
@[simp] theorem State.memRead_issue (P : Params) (n : Nat) (s : State) : (s.memRead P n).issue = s.issue := rfl
@[simp] theorem State.memRead_resetIn (P : Params) (n : Nat) (s : State) : (s.memRead P n).resetIn = s.resetIn := rfl
@[simp] theorem State.memRead_freeCtr (P : Params) (n : Nat) (s : State) : (s.memRead P n).freeCtr = s.freeCtr := rfl

/-! ### `State.memWrite` -/

@[simp] theorem State.memWrite_hsState (P : Params) (v : List Byte) (s : State) : (s.memWrite P v).hsState = s.hsState := rfl
@[simp] theorem State.memWrite_sessionOpen (P : Params) (v : List Byte) (s : State) : (s.memWrite P v).sessionOpen = s.sessionOpen := rfl
@[simp] theorem State.memWrite_txValid (P : Params) (v : List Byte) (s : State) : (s.memWrite P v).txValid = s.txValid := rfl
@[simp] theorem State.memWrite_rspValid (P : Params) (v : List Byte) (s : State) : (s.memWrite P v).rspValid = s.rspValid := rfl
@[simp] theorem State.memWrite_txLen (P : Params) (v : List Byte) (s : State) : (s.memWrite P v).txLen = s.txLen := rfl
@[simp] theorem State.memWrite_rxLen (P : Params) (v : List Byte) (s : State) : (s.memWrite P v).rxLen = s.rxLen := rfl
@[simp] theorem State.memWrite_rspLen (P : Params) (v : List Byte) (s : State) : (s.memWrite P v).rspLen = s.rspLen := rfl
@[simp] theorem State.memWrite_elapsed (P : Params) (v : List Byte) (s : State) : (s.memWrite P v).elapsed = s.elapsed := rfl
@[simp] theorem State.memWrite_result (P : Params) (v : List Byte) (s : State) : (s.memWrite P v).result = s.result := rfl
@[simp] theorem State.memWrite_ctrl (P : Params) (v : List Byte) (s : State) : (s.memWrite P v).ctrl = s.ctrl := rfl
@[simp] theorem State.memWrite_txBuf (P : Params) (v : List Byte) (s : State) : (s.memWrite P v).txBuf = s.txBuf := rfl
@[simp] theorem State.memWrite_rxBuf (P : Params) (v : List Byte) (s : State) : (s.memWrite P v).rxBuf = s.rxBuf := rfl
@[simp] theorem State.memWrite_value (P : Params) (v : List Byte) (s : State) : (s.memWrite P v).value = s.value := rfl
@[simp] theorem State.memWrite_env (P : Params) (v : List Byte) (s : State) :
    (s.memWrite P v).env = { s.env with writes := s.env.writes.tail } := rfl
@[simp] theorem State.memWrite_history (P : Params) (v : List Byte) (s : State) :
    (s.memWrite P v).history = .write P.busId v (s.writeAns v) :: s.history := rfl
@[simp] theorem State.memWrite_issue (P : Params) (v : List Byte) (s : State) : (s.memWrite P v).issue = s.issue := rfl
@[simp] theorem State.memWrite_resetIn (P : Params) (v : List Byte) (s : State) : (s.memWrite P v).resetIn = s.resetIn := rfl
@[simp] theorem State.memWrite_freeCtr (P : Params) (v : List Byte) (s : State) : (s.memWrite P v).freeCtr = s.freeCtr := rfl

/-! ### `State.tOpen` -/

@[simp] theorem State.tOpen_hsState (P : Params) (s : State) : (s.tOpen P).hsState = s.hsState := rfl
@[simp] theorem State.tOpen_sessionOpen (P : Params) (s : State) : (s.tOpen P).sessionOpen = s.sessionOpen := rfl
@[simp] theorem State.tOpen_txValid (P : Params) (s : State) : (s.tOpen P).txValid = s.txValid := rfl
@[simp] theorem State.tOpen_rspValid (P : Params) (s : State) : (s.tOpen P).rspValid = s.rspValid := rfl
@[simp] theorem State.tOpen_txLen (P : Params) (s : State) : (s.tOpen P).txLen = s.txLen := rfl
@[simp] theorem State.tOpen_rxLen (P : Params) (s : State) : (s.tOpen P).rxLen = s.rxLen := rfl
@[simp] theorem State.tOpen_rspLen (P : Params) (s : State) : (s.tOpen P).rspLen = s.rspLen := rfl
@[simp] theorem State.tOpen_elapsed (P : Params) (s : State) : (s.tOpen P).elapsed = s.elapsed := rfl
@[simp] theorem State.tOpen_result (P : Params) (s : State) : (s.tOpen P).result = s.result := rfl
@[simp] theorem State.tOpen_ctrl (P : Params) (s : State) : (s.tOpen P).ctrl = s.ctrl := rfl
@[simp] theorem State.tOpen_txBuf (P : Params) (s : State) : (s.tOpen P).txBuf = s.txBuf := rfl
@[simp] theorem State.tOpen_rxBuf (P : Params) (s : State) : (s.tOpen P).rxBuf = s.rxBuf := rfl
@[simp] theorem State.tOpen_value (P : Params) (s : State) : (s.tOpen P).value = s.value := rfl
@[simp] theorem State.tOpen_env (P : Params) (s : State) :
    (s.tOpen P).env = { s.env with opens := s.env.opens.tail } := rfl
@[simp] theorem State.tOpen_history (P : Params) (s : State) :
    (s.tOpen P).history = .busOpen P.busId s.openAns :: s.history := rfl
@[simp] theorem State.tOpen_issue (P : Params) (s : State) : (s.tOpen P).issue = s.issue := rfl
@[simp] theorem State.tOpen_resetIn (P : Params) (s : State) : (s.tOpen P).resetIn = s.resetIn := rfl
@[simp] theorem State.tOpen_freeCtr (P : Params) (s : State) : (s.tOpen P).freeCtr = s.freeCtr := rfl

/-! ### `State.tSetAddr` -/

@[simp] theorem State.tSetAddr_hsState (P : Params) (s : State) : (s.tSetAddr P).hsState = s.hsState := rfl
@[simp] theorem State.tSetAddr_sessionOpen (P : Params) (s : State) : (s.tSetAddr P).sessionOpen = s.sessionOpen := rfl
@[simp] theorem State.tSetAddr_txValid (P : Params) (s : State) : (s.tSetAddr P).txValid = s.txValid := rfl
@[simp] theorem State.tSetAddr_rspValid (P : Params) (s : State) : (s.tSetAddr P).rspValid = s.rspValid := rfl
@[simp] theorem State.tSetAddr_txLen (P : Params) (s : State) : (s.tSetAddr P).txLen = s.txLen := rfl
@[simp] theorem State.tSetAddr_rxLen (P : Params) (s : State) : (s.tSetAddr P).rxLen = s.rxLen := rfl
@[simp] theorem State.tSetAddr_rspLen (P : Params) (s : State) : (s.tSetAddr P).rspLen = s.rspLen := rfl
@[simp] theorem State.tSetAddr_elapsed (P : Params) (s : State) : (s.tSetAddr P).elapsed = s.elapsed := rfl
@[simp] theorem State.tSetAddr_result (P : Params) (s : State) : (s.tSetAddr P).result = s.result := rfl
@[simp] theorem State.tSetAddr_ctrl (P : Params) (s : State) : (s.tSetAddr P).ctrl = s.ctrl := rfl
@[simp] theorem State.tSetAddr_txBuf (P : Params) (s : State) : (s.tSetAddr P).txBuf = s.txBuf := rfl
@[simp] theorem State.tSetAddr_rxBuf (P : Params) (s : State) : (s.tSetAddr P).rxBuf = s.rxBuf := rfl
@[simp] theorem State.tSetAddr_value (P : Params) (s : State) : (s.tSetAddr P).value = s.value := rfl
@[simp] theorem State.tSetAddr_env (P : Params) (s : State) :
    (s.tSetAddr P).env = { s.env with addresses := s.env.addresses.tail } := rfl
@[simp] theorem State.tSetAddr_history (P : Params) (s : State) :
    (s.tSetAddr P).history = .setAddress P.busId P.devAddr s.addrAns :: s.history := rfl
@[simp] theorem State.tSetAddr_issue (P : Params) (s : State) : (s.tSetAddr P).issue = s.issue := rfl
@[simp] theorem State.tSetAddr_resetIn (P : Params) (s : State) : (s.tSetAddr P).resetIn = s.resetIn := rfl
@[simp] theorem State.tSetAddr_freeCtr (P : Params) (s : State) : (s.tSetAddr P).freeCtr = s.freeCtr := rfl

/-! ### `State.tClose` -/

@[simp] theorem State.tClose_hsState (P : Params) (s : State) : (s.tClose P).hsState = s.hsState := rfl
@[simp] theorem State.tClose_sessionOpen (P : Params) (s : State) : (s.tClose P).sessionOpen = s.sessionOpen := rfl
@[simp] theorem State.tClose_txValid (P : Params) (s : State) : (s.tClose P).txValid = s.txValid := rfl
@[simp] theorem State.tClose_rspValid (P : Params) (s : State) : (s.tClose P).rspValid = s.rspValid := rfl
@[simp] theorem State.tClose_txLen (P : Params) (s : State) : (s.tClose P).txLen = s.txLen := rfl
@[simp] theorem State.tClose_rxLen (P : Params) (s : State) : (s.tClose P).rxLen = s.rxLen := rfl
@[simp] theorem State.tClose_rspLen (P : Params) (s : State) : (s.tClose P).rspLen = s.rspLen := rfl
@[simp] theorem State.tClose_elapsed (P : Params) (s : State) : (s.tClose P).elapsed = s.elapsed := rfl
@[simp] theorem State.tClose_result (P : Params) (s : State) : (s.tClose P).result = s.result := rfl
@[simp] theorem State.tClose_ctrl (P : Params) (s : State) : (s.tClose P).ctrl = s.ctrl := rfl
@[simp] theorem State.tClose_txBuf (P : Params) (s : State) : (s.tClose P).txBuf = s.txBuf := rfl
@[simp] theorem State.tClose_rxBuf (P : Params) (s : State) : (s.tClose P).rxBuf = s.rxBuf := rfl
@[simp] theorem State.tClose_value (P : Params) (s : State) : (s.tClose P).value = s.value := rfl
@[simp] theorem State.tClose_env (P : Params) (s : State) : (s.tClose P).env = s.env := rfl
@[simp] theorem State.tClose_history (P : Params) (s : State) : (s.tClose P).history = .busClose P.busId :: s.history := rfl
@[simp] theorem State.tClose_issue (P : Params) (s : State) : (s.tClose P).issue = s.issue := rfl
@[simp] theorem State.tClose_resetIn (P : Params) (s : State) : (s.tClose P).resetIn = s.resetIn := rfl
@[simp] theorem State.tClose_freeCtr (P : Params) (s : State) : (s.tClose P).freeCtr = s.freeCtr := rfl

/-! ### `State.sleepTick` -/

@[simp] theorem State.sleepTick_hsState (P : Params) (s : State) : (s.sleepTick P).hsState = s.hsState := rfl
@[simp] theorem State.sleepTick_sessionOpen (P : Params) (s : State) : (s.sleepTick P).sessionOpen = s.sessionOpen := rfl
@[simp] theorem State.sleepTick_txValid (P : Params) (s : State) : (s.sleepTick P).txValid = s.txValid := rfl
@[simp] theorem State.sleepTick_rspValid (P : Params) (s : State) : (s.sleepTick P).rspValid = s.rspValid := rfl
@[simp] theorem State.sleepTick_txLen (P : Params) (s : State) : (s.sleepTick P).txLen = s.txLen := rfl
@[simp] theorem State.sleepTick_rxLen (P : Params) (s : State) : (s.sleepTick P).rxLen = s.rxLen := rfl
@[simp] theorem State.sleepTick_rspLen (P : Params) (s : State) : (s.sleepTick P).rspLen = s.rspLen := rfl
@[simp] theorem State.sleepTick_elapsed (P : Params) (s : State) : (s.sleepTick P).elapsed = s.elapsed + P.tickMs := rfl
@[simp] theorem State.sleepTick_result (P : Params) (s : State) : (s.sleepTick P).result = s.result := rfl
@[simp] theorem State.sleepTick_ctrl (P : Params) (s : State) : (s.sleepTick P).ctrl = s.ctrl := rfl
@[simp] theorem State.sleepTick_txBuf (P : Params) (s : State) : (s.sleepTick P).txBuf = s.txBuf := rfl
@[simp] theorem State.sleepTick_rxBuf (P : Params) (s : State) : (s.sleepTick P).rxBuf = s.rxBuf := rfl
@[simp] theorem State.sleepTick_value (P : Params) (s : State) : (s.sleepTick P).value = s.value := rfl
@[simp] theorem State.sleepTick_env (P : Params) (s : State) : (s.sleepTick P).env = s.env := rfl
@[simp] theorem State.sleepTick_history (P : Params) (s : State) : (s.sleepTick P).history = .sleep P.tickMs :: s.history := rfl
@[simp] theorem State.sleepTick_issue (P : Params) (s : State) : (s.sleepTick P).issue = s.issue := rfl
@[simp] theorem State.sleepTick_resetIn (P : Params) (s : State) : (s.sleepTick P).resetIn = s.resetIn := rfl
@[simp] theorem State.sleepTick_freeCtr (P : Params) (s : State) : (s.sleepTick P).freeCtr = s.freeCtr := rfl

/-! ### `State.accumulate` -/

@[simp] theorem State.accumulate_hsState (r : List Byte) (s : State) : (s.accumulate r).hsState = s.hsState := rfl
@[simp] theorem State.accumulate_sessionOpen (r : List Byte) (s : State) : (s.accumulate r).sessionOpen = s.sessionOpen := rfl
@[simp] theorem State.accumulate_txValid (r : List Byte) (s : State) : (s.accumulate r).txValid = s.txValid := rfl
@[simp] theorem State.accumulate_rspValid (r : List Byte) (s : State) : (s.accumulate r).rspValid = s.rspValid := rfl
@[simp] theorem State.accumulate_txLen (r : List Byte) (s : State) : (s.accumulate r).txLen = s.txLen := rfl
@[simp] theorem State.accumulate_rxLen (r : List Byte) (s : State) : (s.accumulate r).rxLen = s.rxLen + r.length := rfl
@[simp] theorem State.accumulate_rspLen (r : List Byte) (s : State) : (s.accumulate r).rspLen = s.rspLen := rfl
@[simp] theorem State.accumulate_elapsed (r : List Byte) (s : State) : (s.accumulate r).elapsed = s.elapsed := rfl
@[simp] theorem State.accumulate_result (r : List Byte) (s : State) : (s.accumulate r).result = s.result := rfl
@[simp] theorem State.accumulate_ctrl (r : List Byte) (s : State) : (s.accumulate r).ctrl = s.ctrl := rfl
@[simp] theorem State.accumulate_txBuf (r : List Byte) (s : State) : (s.accumulate r).txBuf = s.txBuf := rfl
@[simp] theorem State.accumulate_rxBuf (r : List Byte) (s : State) : (s.accumulate r).rxBuf = s.rxBuf.writeSeq s.rxLen r := rfl
@[simp] theorem State.accumulate_value (r : List Byte) (s : State) : (s.accumulate r).value = s.value := rfl
@[simp] theorem State.accumulate_env (r : List Byte) (s : State) : (s.accumulate r).env = s.env := rfl
@[simp] theorem State.accumulate_history (r : List Byte) (s : State) : (s.accumulate r).history = s.history := rfl
@[simp] theorem State.accumulate_issue (r : List Byte) (s : State) : (s.accumulate r).issue = s.issue := rfl
@[simp] theorem State.accumulate_resetIn (r : List Byte) (s : State) : (s.accumulate r).resetIn = s.resetIn := rfl
@[simp] theorem State.accumulate_freeCtr (r : List Byte) (s : State) : (s.accumulate r).freeCtr = s.freeCtr := rfl

/-! ### `State.offer` -/

@[simp] theorem State.offer_hsState (items : List ReadAns) (s : State) : (s.offer items).hsState = s.hsState := rfl
@[simp] theorem State.offer_sessionOpen (items : List ReadAns) (s : State) : (s.offer items).sessionOpen = s.sessionOpen := rfl
@[simp] theorem State.offer_txValid (items : List ReadAns) (s : State) : (s.offer items).txValid = s.txValid := rfl
@[simp] theorem State.offer_rspValid (items : List ReadAns) (s : State) : (s.offer items).rspValid = s.rspValid := rfl
@[simp] theorem State.offer_txLen (items : List ReadAns) (s : State) : (s.offer items).txLen = s.txLen := rfl
@[simp] theorem State.offer_rxLen (items : List ReadAns) (s : State) : (s.offer items).rxLen = s.rxLen := rfl
@[simp] theorem State.offer_rspLen (items : List ReadAns) (s : State) : (s.offer items).rspLen = s.rspLen := rfl
@[simp] theorem State.offer_elapsed (items : List ReadAns) (s : State) : (s.offer items).elapsed = s.elapsed := rfl
@[simp] theorem State.offer_result (items : List ReadAns) (s : State) : (s.offer items).result = s.result := rfl
@[simp] theorem State.offer_ctrl (items : List ReadAns) (s : State) : (s.offer items).ctrl = s.ctrl := rfl
@[simp] theorem State.offer_txBuf (items : List ReadAns) (s : State) : (s.offer items).txBuf = s.txBuf := rfl
@[simp] theorem State.offer_rxBuf (items : List ReadAns) (s : State) : (s.offer items).rxBuf = s.rxBuf := rfl
@[simp] theorem State.offer_value (items : List ReadAns) (s : State) : (s.offer items).value = s.value := rfl
@[simp] theorem State.offer_env (items : List ReadAns) (s : State) :
    (s.offer items).env = { s.env with rx := s.env.rx ++ items } := rfl
@[simp] theorem State.offer_history (items : List ReadAns) (s : State) : (s.offer items).history = s.history := rfl
@[simp] theorem State.offer_issue (items : List ReadAns) (s : State) : (s.offer items).issue = s.issue := rfl
@[simp] theorem State.offer_resetIn (items : List ReadAns) (s : State) : (s.offer items).resetIn = s.resetIn := rfl
@[simp] theorem State.offer_freeCtr (items : List ReadAns) (s : State) : (s.offer items).freeCtr = s.freeCtr := rfl

/-! ### `State.tearDown`: only the history can change -/

@[simp] theorem State.tearDown_hsState (P : Params) (s : State) : (s.tearDown P).hsState = s.hsState := by
  unfold State.tearDown; split <;> rfl
@[simp] theorem State.tearDown_sessionOpen (P : Params) (s : State) : (s.tearDown P).sessionOpen = s.sessionOpen := by
  unfold State.tearDown; split <;> rfl
@[simp] theorem State.tearDown_txValid (P : Params) (s : State) : (s.tearDown P).txValid = s.txValid := by
  unfold State.tearDown; split <;> rfl
@[simp] theorem State.tearDown_rspValid (P : Params) (s : State) : (s.tearDown P).rspValid = s.rspValid := by
  unfold State.tearDown; split <;> rfl
@[simp] theorem State.tearDown_txLen (P : Params) (s : State) : (s.tearDown P).txLen = s.txLen := by
  unfold State.tearDown; split <;> rfl
@[simp] theorem State.tearDown_rxLen (P : Params) (s : State) : (s.tearDown P).rxLen = s.rxLen := by
  unfold State.tearDown; split <;> rfl
@[simp] theorem State.tearDown_rspLen (P : Params) (s : State) : (s.tearDown P).rspLen = s.rspLen := by
  unfold State.tearDown; split <;> rfl
@[simp] theorem State.tearDown_elapsed (P : Params) (s : State) : (s.tearDown P).elapsed = s.elapsed := by
  unfold State.tearDown; split <;> rfl
@[simp] theorem State.tearDown_result (P : Params) (s : State) : (s.tearDown P).result = s.result := by
  unfold State.tearDown; split <;> rfl
@[simp] theorem State.tearDown_ctrl (P : Params) (s : State) : (s.tearDown P).ctrl = s.ctrl := by
  unfold State.tearDown; split <;> rfl
@[simp] theorem State.tearDown_txBuf (P : Params) (s : State) : (s.tearDown P).txBuf = s.txBuf := by
  unfold State.tearDown; split <;> rfl
@[simp] theorem State.tearDown_rxBuf (P : Params) (s : State) : (s.tearDown P).rxBuf = s.rxBuf := by
  unfold State.tearDown; split <;> rfl
@[simp] theorem State.tearDown_value (P : Params) (s : State) : (s.tearDown P).value = s.value := by
  unfold State.tearDown; split <;> rfl
@[simp] theorem State.tearDown_env (P : Params) (s : State) : (s.tearDown P).env = s.env := by
  unfold State.tearDown; split <;> rfl
@[simp] theorem State.tearDown_issue (P : Params) (s : State) : (s.tearDown P).issue = s.issue := by
  unfold State.tearDown; split <;> rfl
@[simp] theorem State.tearDown_resetIn (P : Params) (s : State) : (s.tearDown P).resetIn = s.resetIn := by
  unfold State.tearDown; split <;> rfl
@[simp] theorem State.tearDown_freeCtr (P : Params) (s : State) : (s.tearDown P).freeCtr = s.freeCtr := by
  unfold State.tearDown; split <;> rfl

theorem State.tearDown_history (P : Params) (s : State) :
    (s.tearDown P).history = if s.sessionOpen then .busClose P.busId :: s.history else s.history := by
  unfold State.tearDown; split <;> rfl

/-! ### `State.errorEntry`: what the error entry leaves alone -/

@[simp] theorem State.errorEntry_txBuf (P : Params) (e : Raised) (s : State) : (s.errorEntry P e).txBuf = s.txBuf := by
  cases e <;> simp [State.errorEntry]
@[simp] theorem State.errorEntry_txLen (P : Params) (e : Raised) (s : State) : (s.errorEntry P e).txLen = s.txLen := by
  cases e <;> simp [State.errorEntry]
@[simp] theorem State.errorEntry_rxLen (P : Params) (e : Raised) (s : State) : (s.errorEntry P e).rxLen = s.rxLen := by
  cases e <;> simp [State.errorEntry]
@[simp] theorem State.errorEntry_rspLen (P : Params) (e : Raised) (s : State) : (s.errorEntry P e).rspLen = s.rspLen := by
  cases e <;> simp [State.errorEntry]
@[simp] theorem State.errorEntry_elapsed (P : Params) (e : Raised) (s : State) : (s.errorEntry P e).elapsed = s.elapsed := by
  cases e <;> simp [State.errorEntry]
@[simp] theorem State.errorEntry_ctrl (P : Params) (e : Raised) (s : State) : (s.errorEntry P e).ctrl = s.ctrl := by
  cases e <;> simp [State.errorEntry]
@[simp] theorem State.errorEntry_env (P : Params) (e : Raised) (s : State) : (s.errorEntry P e).env = s.env := by
  cases e <;> simp [State.errorEntry]
@[simp] theorem State.errorEntry_issue (P : Params) (e : Raised) (s : State) : (s.errorEntry P e).issue = s.issue := by
  cases e <;> simp [State.errorEntry]
@[simp] theorem State.errorEntry_resetIn (P : Params) (e : Raised) (s : State) : (s.errorEntry P e).resetIn = s.resetIn := by
  cases e <;> simp [State.errorEntry]
@[simp] theorem State.errorEntry_freeCtr (P : Params) (e : Raised) (s : State) : (s.errorEntry P e).freeCtr = s.freeCtr := by
  cases e <;> simp [State.errorEntry]
@[simp] theorem State.errorEntry_rxBuf (P : Params) (e : Raised) (s : State) : (s.errorEntry P e).rxBuf = [] := by
  cases e <;> rfl
@[simp] theorem State.errorEntry_value (P : Params) (e : Raised) (s : State) : (s.errorEntry P e).value = .noValue := by
  cases e <;> rfl

/-! ### `exec`: the arm of each constructor -/

@[simp] theorem exec_enc (payload : List Byte) (s : State) :
    exec (.enc payload) s = .next (encOp params payload s) := rfl
@[simp] theorem exec_vack (bytes : List Byte) (s : State) :
    exec (.vack bytes) s = .next (vackOp params bytes s) := rfl
@[simp] theorem exec_dec (bytes : List Byte) (n : Nat) (check : Bool) (s : State) :
    exec (.dec bytes n check) s = .next (decOp params bytes n check s) := rfl
@[simp] theorem exec_sndack (T : BitVec 32) (s : State) :
    exec (.sndack T) s = .next (sndAckOp params T.toNat s) := rfl
@[simp] theorem exec_rdrsp (n : Nat) (T : BitVec 32) (s : State) :
    exec (.rdrsp n T) s = .next (rdRspOp params n T.toNat s) := rfl
@[simp] theorem exec_openSession (s : State) :
    exec .openSession s = .next (openOp params s) := rfl
@[simp] theorem exec_closeSession (s : State) :
    exec .closeSession s = .next (closeOp params s) := rfl
@[simp] theorem exec_wrctrl (v : Byte) (s : State) :
    exec (.wrctrl v) s = .next (wrctrlOp v s) := rfl
@[simp] theorem exec_frameCmd (payload : List Byte) (s : State) :
    exec (.frameCmd payload) s = .next (encOp params payload s) := rfl
@[simp] theorem exec_frameRsp (payload : List Byte) (s : State) :
    exec (.frameRsp payload) s = .next (deviceSends params (buildFrame params params.tfiD2H payload) s) := rfl
@[simp] theorem exec_frameAck (s : State) :
    exec .frameAck s = .next (deviceSends params params.ackPattern s) := rfl
@[simp] theorem exec_envelope (st : Byte) (x : List Byte) (pad : Byte) (s : State) :
    exec (.envelope st x pad) s = .next (s.offer [.bytes (buildEnvelope st x pad)]) := rfl

end Sys2Proof.Machine
end

