-- ==== Sys2Proof/Laws/Handshake.lean ====
section
/-! SUPPORT. What `WaitReady`, `Collect` and the wait-and-read of both can do: one lemma each that says everything, and
one that runs it over a script of the environment. -/

namespace Sys2Proof.Machine

/-! ### Counting events -/

@[simp] theorem sleptMs_append (a b : List Event) : sleptMs (a ++ b) = sleptMs a + sleptMs b := by
  induction a with
  | nil => simp [sleptMs]
  | cons e a ih => cases e <;> simp [sleptMs, ih, Nat.add_assoc]

@[simp] theorem sleepCount_append (a b : List Event) : sleepCount (a ++ b) = sleepCount a + sleepCount b := by
  induction a with
  | nil => simp [sleepCount]
  | cons e a ih => cases e <;> simp [sleepCount, ih, Nat.add_right_comm]

@[simp] theorem readCount_append (a b : List Event) : readCount (a ++ b) = readCount a + readCount b := by
  induction a with
  | nil => simp [readCount]
  | cons e a ih => cases e <;> simp [readCount, ih, Nat.add_right_comm]

@[simp] theorem closeCount_append (a b : List Event) : closeCount (a ++ b) = closeCount a + closeCount b := by
  induction a with
  | nil => simp [closeCount]
  | cons e a ih => cases e <;> simp [closeCount, ih, Nat.add_right_comm]

@[simp] theorem writtenFrames_append (a b : List Event) :
    writtenFrames (a ++ b) = writtenFrames a ++ writtenFrames b := by
  induction a with
  | nil => simp [writtenFrames]
  | cons e a ih => cases e <;> simp [writtenFrames, ih]

@[simp] theorem readBytes_append (a b : List Event) : readBytes (a ++ b) = readBytes b ++ readBytes a := by
  induction a with
  | nil => simp [readBytes]
  | cons e a ih =>
    cases e with
    | read bus n ans => cases ans <;> simp [readBytes, ih]
    | _ => simp [readBytes, ih]

theorem ReadsFit.append {a b : List Event} (ha : ReadsFit a) (hb : ReadsFit b) : ReadsFit (a ++ b) := by
  intro bus n bs h
  rcases List.mem_append.mp h with h | h
  · exact ha bus n bs h
  · exact hb bus n bs h

theorem ReadAns.clip_bytes_length {n : Nat} {a : ReadAns} {bs : List Byte} (h : ReadAns.clip n a = .bytes bs) :
    bs.length ≤ n := by
  cases a with
  | err => simp [ReadAns.clip] at h
  | bytes x =>
    simp only [ReadAns.clip, ReadAns.bytes.injEq] at h
    subst h
    simp

/-- Every answer of a read is one the interface allows (20_memory.md R64). -/
theorem State.readAns_fits {s : State} {n : Nat} {bs : List Byte} (h : s.readAns n = .bytes bs) : bs.length ≤ n := by
  unfold State.readAns at h
  split at h <;> exact ReadAns.clip_bytes_length h

/-! ### What the reading procedures move -/

/-- From `s` to `s'` the block has made the calls `evs` (newest first), reads and sleeps only; nothing but the receive
buffer, its length, the elapsed time, the history and what the environment offers has changed. -/
structure Moved (P : Params) (s s' : State) (evs : List Event) : Prop where
  state : s' =
    { s with
      elapsed := s.elapsed + sleptMs evs, rxBuf := s'.rxBuf, rxLen := s'.rxLen
      env := { s.env with rx := s'.env.rx }, history := evs ++ s.history }
  noWrite : writtenFrames evs = []
  noClose : closeCount evs = 0
  fits : ReadsFit evs
  slept : sleptMs evs = P.tickMs * sleepCount evs
  count : evs.length = sleepCount evs + readCount evs

theorem Moved.refl (P : Params) (s : State) : Moved P s s [] where
  state := by simp [sleptMs]
  noWrite := rfl
  noClose := rfl
  fits := by intro _ _ _ h; simp at h
  slept := by simp [sleptMs, sleepCount]
  count := by simp [sleepCount, readCount]

theorem Moved.trans {P : Params} {s s' s'' : State} {e e' : List Event} (h : Moved P s s' e) (h' : Moved P s' s'' e') :
    Moved P s s'' (e' ++ e) where
  state := by
    have h1 := h.state
    have h2 := h'.state
    rw [h1] at h2
    rw [h2]
    simp [Nat.add_assoc, Nat.add_comm (sleptMs e) (sleptMs e')]
  noWrite := by simp [h.noWrite, h'.noWrite]
  noClose := by simp [h.noClose, h'.noClose]
  fits := h'.fits.append h.fits
  slept := by simp [h.slept, h'.slept, Nat.mul_add]
  count := by simp [h.count, h'.count]; omega

/-- One read. -/
theorem Moved.memRead (P : Params) (n : Nat) (s : State) :
    Moved P s (s.memRead P n) [.read P.busId n (s.readAns n)] where
  state := by simp [State.memRead, sleptMs]
  noWrite := rfl
  noClose := rfl
  fits := by
    intro bus k bs h
    simp only [List.mem_singleton, Event.read.injEq] at h
    obtain ⟨-, rfl, h⟩ := h
    exact State.readAns_fits h.symm
  slept := by simp [sleptMs, sleepCount]
  count := by simp [sleepCount, readCount]

/-- One tick. -/
theorem Moved.sleepTick (P : Params) (s : State) : Moved P s (s.sleepTick P) [.sleep P.tickMs] where
  state := by simp [State.sleepTick, sleptMs]
  noWrite := rfl
  noClose := rfl
  fits := by intro _ _ _ h; simp at h
  slept := by simp [sleptMs, sleepCount]
  count := by simp [sleepCount, readCount]

/-- One read whose bytes are kept. -/
theorem Moved.accumulate (P : Params) (r : List Byte) (s : State) : Moved P s (s.accumulate r) [] where
  state := by simp [State.accumulate, sleptMs]
  noWrite := rfl
  noClose := rfl
  fits := by intro _ _ _ h; simp at h
  slept := by simp [sleptMs, sleepCount]
  count := by simp [sleepCount, readCount]

theorem Moved.elapsed {P : Params} {s s' : State} {evs : List Event} (h : Moved P s s' evs) :
    s'.elapsed = s.elapsed + sleptMs evs := by
  have h := h.state
  rw [h]

theorem Moved.history {P : Params} {s s' : State} {evs : List Event} (h : Moved P s s' evs) :
    s'.history = evs ++ s.history := by
  have h := h.state
  rw [h]

/-- How long a wait lasted, by how it ended (41_handshake_ops.md R155, R157, R169): with `elapsed` at its end, the number
of reads, of sleeps and of bytes kept. -/
def WaitEnd (P : Params) (T : Nat) (out : ProcOut) (s : State) (reads sleeps kept : Nat) : Prop :=
  match out with
  | .returned s' => s' = s ∧ s.elapsed ≤ T ∧ reads ≤ kept + sleeps
  | .raised .timedOut s' => s' = s ∧ T < s.elapsed ∧ s.elapsed ≤ T + P.tickMs ∧ reads ≤ kept + sleeps
  | .raised .busError s' => s' = s ∧ s.elapsed ≤ T ∧ reads ≤ kept + sleeps + 1

/-! ### `WaitReady` -/

theorem waitReadyLoop_spec {P : Params} (hP : 1 ≤ P.tickMs) {T : Nat} :
    ∀ (k : Nat) (s : State), s.elapsed ≤ T → T < s.elapsed + k →
      ∃ s' evs, Moved P s s' evs ∧ s'.rxBuf = s.rxBuf ∧ s'.rxLen = s.rxLen ∧
        WaitEnd P T (waitReadyLoop P T k s) s' (readCount evs) (sleepCount evs) 1 := by
  intro k
  induction k with
  | zero => intro s h1 h2; omega
  | succ k ih =>
    intro s h1 h2
    simp only [waitReadyLoop]
    split
    · exact ⟨_, _, Moved.memRead P P.pollLen s, rfl, rfl, rfl, h1, by simp [readCount, sleepCount]⟩
    · split
      · exact ⟨_, _, Moved.memRead P P.pollLen s, rfl, rfl, rfl, h1, by simp [readCount, sleepCount]⟩
      · have m1 := (Moved.memRead P P.pollLen s).trans (Moved.sleepTick P (s.memRead P P.pollLen))
        split
        · next hT =>
          refine ⟨_, _, m1, rfl, rfl, rfl, hT, ?_, by simp [readCount, sleepCount]⟩
          simp only [State.sleepTick_elapsed, State.memRead_elapsed]
          omega
        · next hT =>
          obtain ⟨s', evs, hm, hb, hl, he⟩ :=
            ih ((s.memRead P P.pollLen).sleepTick P) (by omega)
              (by simp only [State.sleepTick_elapsed, State.memRead_elapsed]; omega)
          refine ⟨s', _, m1.trans hm, by simpa using hb, by simpa using hl, ?_⟩
          have hr : readCount (evs ++ ([.sleep P.tickMs] ++ [.read P.busId P.pollLen (s.readAns P.pollLen)])) =
              readCount evs + 1 := by simp [readCount]
          have hs : sleepCount (evs ++ ([.sleep P.tickMs] ++ [.read P.busId P.pollLen (s.readAns P.pollLen)])) =
              sleepCount evs + 1 := by simp [sleepCount]
          rw [hr, hs]
          unfold WaitEnd at he ⊢
          split <;> rename_i heq <;> rw [heq] at he <;> simp only at he
          · exact ⟨he.1, he.2.1, by omega⟩
          · exact ⟨he.1, he.2.1, he.2.2.1, by omega⟩
          · exact ⟨he.1, he.2.1, by omega⟩

/-- Everything `WaitReady` can do (41_handshake_ops.md R154, R155). -/
theorem waitReady_spec {P : Params} (hP : 1 ≤ P.tickMs) (T : Nat) (s : State) :
    ∃ s' evs, Moved P { s with elapsed := 0 } s' evs ∧ s'.rxBuf = s.rxBuf ∧ s'.rxLen = s.rxLen ∧
      WaitEnd P T (waitReady P T s) s' (readCount evs) (sleepCount evs) 1 :=
  waitReadyLoop_spec hP (T + 1) { s with elapsed := 0 } (Nat.zero_le _) (by simp)

/-! ### `Collect` -/

theorem collectLoop_spec {P : Params} (hP : 1 ≤ P.tickMs) {need T : Nat} :
    ∀ (k : Nat) (s : State), s.elapsed ≤ T → s.rxLen ≤ need → need + T + 1 < s.rxLen + s.elapsed + k →
      ∃ s' evs, Moved P s s' evs ∧ s'.rxBuf = s.rxBuf.writeSeq s.rxLen (readBytes evs) ∧
        s'.rxLen = s.rxLen + (readBytes evs).length ∧ s'.rxLen ≤ need ∧
        WaitEnd P T (collectLoop P need T k s) s' (readCount evs) (sleepCount evs) (readBytes evs).length ∧
        (∀ t, collectLoop P need T k s = .returned t → s'.rxLen = need) := by
  intro k
  induction k with
  | zero => intro s h1 h2 h3; omega
  | succ k ih =>
    intro s h1 h2 h3
    simp only [collectLoop]
    split
    · exact ⟨s, [], Moved.refl P s, by simp [readBytes, Memory.writeSeq], by simp [readBytes], h2,
        ⟨rfl, h1, by simp [readCount]⟩, by intro _ _; omega⟩
    · next hlt =>
      split
      · next ha =>
        have hm := Moved.memRead P (need - s.rxLen) s
        rw [ha] at hm
        exact ⟨_, _, hm, by simp [readBytes, Memory.writeSeq], by simp [readBytes], h2,
          ⟨rfl, h1, by simp [readCount, sleepCount, readBytes]⟩, by intro _ h; cases h⟩
      · next ha =>
        have hm := Moved.memRead P (need - s.rxLen) s
        rw [ha] at hm
        have m1 := hm.trans (Moved.sleepTick P (s.memRead P (need - s.rxLen)))
        split
        · next hT =>
          refine ⟨_, _, m1, by simp [readBytes, Memory.writeSeq], by simp [readBytes], h2,
            ⟨rfl, hT, ?_, by simp [readCount, sleepCount, readBytes]⟩, by intro _ h; cases h⟩
          simp only [State.sleepTick_elapsed, State.memRead_elapsed]
          omega
        · next hT =>
          obtain ⟨s', evs, hm', hb, hl, hn, he, hr⟩ :=
            ih ((s.memRead P (need - s.rxLen)).sleepTick P) (by omega) (by simpa using h2)
              (by simp only [State.sleepTick_elapsed, State.memRead_elapsed, State.sleepTick_rxLen, State.memRead_rxLen]; omega)
          refine ⟨s', _, m1.trans hm', by simpa [readBytes] using hb, by simpa [readBytes] using hl, hn, ?_, hr⟩
          unfold WaitEnd at he ⊢
          split <;> rename_i heq <;> rw [heq] at he <;> simp only at he
          · refine ⟨he.1, he.2.1, ?_⟩
            simp [readCount, sleepCount, readBytes]; omega
          · refine ⟨he.1, he.2.1, he.2.2.1, ?_⟩
            simp [readCount, sleepCount, readBytes]; omega
          · refine ⟨he.1, he.2.1, ?_⟩
            simp [readCount, sleepCount, readBytes]; omega
      · next b bs ha =>
        have hm := Moved.memRead P (need - s.rxLen) s
        rw [ha] at hm
        have hfit := State.readAns_fits ha
        have m1 := hm.trans (Moved.accumulate P (b :: bs) (s.memRead P (need - s.rxLen)))
        simp only [List.length_cons] at hfit
        obtain ⟨s', evs, hm', hb, hl, hn, he, hr⟩ :=
          ih ((s.memRead P (need - s.rxLen)).accumulate (b :: bs)) (by simpa using h1)
            (by simp only [State.accumulate_rxLen, State.memRead_rxLen, List.length_cons]; omega)
            (by simp only [State.accumulate_rxLen, State.memRead_rxLen, List.length_cons, State.accumulate_elapsed,
                  State.memRead_elapsed]; omega)
        refine ⟨s', _, m1.trans hm', ?_, ?_, hn, ?_, hr⟩
        · rw [hb]
          simpa [readBytes] using
            (Memory.writeSeq_append (b :: bs) (readBytes evs) s.rxBuf s.rxLen).symm
        · rw [hl]
          simp [readBytes]; omega
        · unfold WaitEnd at he ⊢
          split <;> rename_i heq <;> rw [heq] at he <;> simp only at he
          · refine ⟨he.1, he.2.1, ?_⟩
            simp [readCount, sleepCount, readBytes]; omega
          · refine ⟨he.1, he.2.1, he.2.2.1, ?_⟩
            simp [readCount, sleepCount, readBytes]; omega
          · refine ⟨he.1, he.2.1, ?_⟩
            simp [readCount, sleepCount, readBytes]; omega

/-- Everything `Collect` can do (41_handshake_ops.md R156, R157). -/
theorem collect_spec {P : Params} (hP : 1 ≤ P.tickMs) (need T : Nat) (s : State) (h : s.elapsed ≤ T) :
    ∃ s' evs, Moved P { s with rxLen := 0 } s' evs ∧ s'.rxBuf = s.rxBuf.writeSeq 0 (readBytes evs) ∧
      s'.rxLen = (readBytes evs).length ∧ s'.rxLen ≤ need ∧
      WaitEnd P T (collect P need T s) s' (readCount evs) (sleepCount evs) (readBytes evs).length ∧
      (∀ t, collect P need T s = .returned t → s'.rxLen = need) := by
  obtain ⟨s', evs, h1, h2, h3, h4, h5, h6⟩ :=
    collectLoop_spec hP (need + T + 2) { s with rxLen := 0 } h (Nat.zero_le need) (by simp; omega)
  exact ⟨s', evs, h1, h2, by simpa using h3, h4, h5, h6⟩

/-! ### Both together -/

/-- Everything a wait and its data read can do. The calls are those of `WaitReady`, `w`, and then those of `Collect`, `c`;
what `Collect` read stands in the buffer from index 0. -/
theorem readData_spec {P : Params} (hP : 1 ≤ P.tickMs) (need T : Nat) (s : State) :
    ∃ s' w c, Moved P { s with elapsed := 0 } s' (c ++ w) ∧ s'.rxBuf = s.rxBuf.writeSeq 0 (readBytes c) ∧
      (readBytes c).length ≤ need ∧ (s'.rxLen = s.rxLen ∨ s'.rxLen = (readBytes c).length) ∧
      WaitEnd P T (readData P need T s) s' (readCount (c ++ w)) (sleepCount (c ++ w)) (need + 1) ∧
      (∀ t, readData P need T s = .returned t → s'.rxLen = need ∧ (readBytes c).length = need) := by
  obtain ⟨s1, w, hm, hb, hl, he⟩ := waitReady_spec hP T s
  unfold readData
  cases hw : waitReady P T s with
  | raised e s2 =>
    rw [hw] at he
    refine ⟨s1, w, [], by simpa using hm, by simpa [readBytes, Memory.writeSeq] using hb, by simp [readBytes],
      Or.inl hl, ?_, by intro t h; simp at h⟩
    cases e <;> simp only [WaitEnd, List.nil_append] at he ⊢
    · exact ⟨he.1, he.2.1, he.2.2.1, by omega⟩
    · exact ⟨he.1, he.2.1, by omega⟩
  | returned s2 =>
    rw [hw] at he
    simp only [WaitEnd] at he
    obtain ⟨rfl, hT, hr⟩ := he
    obtain ⟨s3, c, hm', hb', hl', hn, he', hd⟩ := collect_spec hP need T s2 hT
    have hm2 : Moved P s2 s3 c := by
      refine ⟨?_, hm'.noWrite, hm'.noClose, hm'.fits, hm'.slept, hm'.count⟩
      have h := hm'.state
      rw [h]
    have hlen : (readBytes c).length ≤ need := by omega
    refine ⟨s3, w, c, hm.trans hm2, by rw [hb', hb], hlen, Or.inr hl', ?_, ?_⟩
    · simp only [readCount_append, sleepCount_append]
      unfold WaitEnd at he' ⊢
      split <;> rename_i heq <;> rw [heq] at he' <;> simp only at he'
      · exact ⟨he'.1, he'.2.1, by omega⟩
      · exact ⟨he'.1, he'.2.1, he'.2.2.1, by omega⟩
      · exact ⟨he'.1, he'.2.1, by omega⟩
    · intro t h
      have := hd t h
      exact ⟨this, by omega⟩

/-! ### Over a script of the environment -/

theorem clip_of_fits {n : Nat} {bs : List Byte} (h : bs.length ≤ n) : ReadAns.clip n (.bytes bs) = .bytes bs := by
  simp [ReadAns.clip, List.take_of_length_le h]

/-- An entry that fits is the whole answer. -/
theorem readAns_script {s : State} {n : Nat} {bs : List Byte} {rest : List ReadAns} (h : s.env.rx = .bytes bs :: rest)
    (hf : bs.length ≤ n) : s.readAns n = .bytes bs := by
  simp [State.readAns, h, clip_of_fits hf]

theorem restOffered_script {n : Nat} {bs : List Byte} (rest : List ReadAns) (hf : bs.length ≤ n) :
    restOffered n (.bytes bs :: rest) = rest := by
  simp [restOffered, hf]

/-- Polls that are not ready, then one that is, within the budget (41_handshake_ops.md R155 (c)). -/
theorem waitReadyLoop_script {P : Params} {T : Nat} {ready : List Byte} (hrf : ready.length ≤ P.pollLen)
    (hrs : isReady P ready = true) {rest : List ReadAns} :
    ∀ (polls : List (List Byte)) (k : Nat) (s : State), NotReady P polls →
      s.env.rx = polls.map .bytes ++ .bytes ready :: rest → s.elapsed + P.tickMs * polls.length ≤ T →
      polls.length < k →
      ∃ h, waitReadyLoop P T k s =
        .returned
          { s with
            elapsed := s.elapsed + P.tickMs * polls.length, env := { s.env with rx := rest }, history := h ++ s.history } ∧
        closeCount h = 0 ∧ sleepCount h = polls.length ∧ sleptMs h = P.tickMs * polls.length := by
  intro polls
  induction polls with
  | nil =>
    intro k s _ hrx _ hk
    obtain ⟨k, rfl⟩ : ∃ j, k = j + 1 := ⟨k - 1, by simp at hk; omega⟩
    simp only [List.map_nil, List.nil_append] at hrx
    refine ⟨[.read P.busId P.pollLen (.bytes ready)], ?_, rfl, rfl, rfl⟩
    simp only [waitReadyLoop, readAns_script hrx hrf, hrs, if_true]
    simp [State.memRead, hrx, restOffered_script rest hrf, readAns_script hrx hrf]
  | cons p polls ih =>
    intro k s hn hrx hT hk
    obtain ⟨k, rfl⟩ : ∃ j, k = j + 1 := ⟨k - 1, by simp at hk; omega⟩
    simp only [List.map_cons, List.cons_append] at hrx
    obtain ⟨hpf, hpn⟩ := hn p (by simp)
    simp only [List.length_cons, Nat.mul_add, Nat.mul_one] at hT
    simp only [List.length_cons] at hk
    have hlt : ¬ T < ((s.memRead P P.pollLen).sleepTick P).elapsed := by
      simp only [State.sleepTick_elapsed, State.memRead_elapsed]; omega
    obtain ⟨h, hh, a, b, c⟩ := ih k ((s.memRead P P.pollLen).sleepTick P) (fun q hq => hn q (by simp [hq]))
      (by simp [hrx, restOffered_script _ hpf]) (by simp only [State.sleepTick_elapsed, State.memRead_elapsed]; omega)
      (by omega)
    refine ⟨h ++ [.sleep P.tickMs, .read P.busId P.pollLen (.bytes p)], ?_, ?_⟩
    · simp only [waitReadyLoop, readAns_script hrx hpf, hpn, Bool.false_eq_true, if_false, hlt, hh]
      simp [State.memRead, State.sleepTick, Nat.mul_add, readAns_script hrx hpf]
      omega
    · simp [closeCount, sleepCount, sleptMs, a, b, c, Nat.mul_add]

theorem waitReady_script {P : Params} (hP : 1 ≤ P.tickMs) {T : Nat} {ready : List Byte}
    (hrf : ready.length ≤ P.pollLen) (hrs : isReady P ready = true) {rest : List ReadAns} {polls : List (List Byte)}
    {s : State} (hn : NotReady P polls) (hrx : s.env.rx = polls.map .bytes ++ .bytes ready :: rest)
    (hT : P.tickMs * polls.length ≤ T) :
    ∃ h, waitReady P T s =
      .returned
        { s with elapsed := P.tickMs * polls.length, env := { s.env with rx := rest }, history := h ++ s.history } ∧
      closeCount h = 0 ∧ sleepCount h = polls.length ∧ sleptMs h = P.tickMs * polls.length := by
  have hle : polls.length ≤ P.tickMs * polls.length := Nat.le_mul_of_pos_left _ hP
  obtain ⟨h, hh, hc⟩ := waitReadyLoop_script hrf hrs polls (T + 1) { s with elapsed := 0 } hn hrx (by simpa using hT)
    (by omega)
  exact ⟨h, by simpa [waitReady] using hh, hc⟩

/-- A data read delivered in chunks, empty ones each costing a tick (41_handshake_ops.md R156). -/
theorem collectLoop_script {P : Params} {need T : Nat} {rest : List ReadAns} :
    ∀ (chunks : List (List Byte)) (k : Nat) (s : State), (∀ c, chunks.getLast? = some c → c ≠ []) →
      s.env.rx = chunks.map .bytes ++ rest → s.rxLen + chunks.flatten.length = need →
      s.elapsed + P.tickMs * emptyCount chunks ≤ T → chunks.length < k →
      ∃ h, collectLoop P need T k s =
        .returned
          { s with
            elapsed := s.elapsed + P.tickMs * emptyCount chunks
            rxBuf := s.rxBuf.writeSeq s.rxLen chunks.flatten, rxLen := need
            env := { s.env with rx := rest }, history := h } := by
  intro chunks
  induction chunks with
  | nil =>
    intro k s _ hrx hneed _ hk
    obtain ⟨k, rfl⟩ : ∃ j, k = j + 1 := ⟨k - 1, by simp at hk; omega⟩
    simp only [List.flatten_nil, List.length_nil, Nat.add_zero] at hneed
    refine ⟨s.history, ?_⟩
    simp only [collectLoop, hneed, Nat.le_refl, if_true, emptyCount, List.filter_nil, List.length_nil, Nat.mul_zero,
      Nat.add_zero, List.flatten_nil, Memory.writeSeq, ProcOut.returned.injEq]
    simp only [List.map_nil, List.nil_append] at hrx
    subst hneed
    simp [← hrx]
  | cons c chunks ih =>
    intro k s hlast hrx hneed hT hk
    obtain ⟨k, rfl⟩ : ∃ j, k = j + 1 := ⟨k - 1, by simp at hk; omega⟩
    simp only [List.map_cons, List.cons_append] at hrx
    simp only [List.flatten_cons, List.length_append] at hneed
    simp only [List.length_cons] at hk
    have hlast' : ∀ d, chunks.getLast? = some d → d ≠ [] := by
      intro d hd
      apply hlast
      cases chunks with
      | nil => simp at hd
      | cons x xs => simpa [List.getLast?_cons_cons] using hd
    have hf : c.length ≤ need - s.rxLen := by omega
    have hgo : ¬ need ≤ s.rxLen := by
      intro hle
      have hc : c = [] := List.length_eq_zero_iff.mp (by omega)
      have hfl : chunks.flatten = [] := List.length_eq_zero_iff.mp (by omega)
      cases hch : chunks.getLast? with
      | none =>
        have : chunks = [] := by simpa using hch
        subst this
        exact hlast c (by simp) hc
      | some d =>
        have hd := hlast' d hch
        have hmem : d ∈ chunks := List.mem_of_getLast? hch
        have := List.flatten_eq_nil_iff.mp hfl d hmem
        exact hd this
    have hans := readAns_script hrx hf
    cases c with
    | nil =>
      have he : emptyCount ([] :: chunks) = emptyCount chunks + 1 := by simp [emptyCount]
      rw [he] at hT ⊢
      simp only [Nat.mul_add, Nat.mul_one] at hT
      have hlt : ¬ T < ((s.memRead P (need - s.rxLen)).sleepTick P).elapsed := by
        simp only [State.sleepTick_elapsed, State.memRead_elapsed]; omega
      obtain ⟨h, hh⟩ := ih k ((s.memRead P (need - s.rxLen)).sleepTick P) hlast'
        (by simp [hrx, restOffered]) (by simpa using hneed)
        (by simp only [State.sleepTick_elapsed, State.memRead_elapsed]; omega) (by omega)
      refine ⟨h, ?_⟩
      simp only [collectLoop, hgo, if_false, hans, hlt, hh]
      simp [State.memRead, State.sleepTick, Nat.mul_add]
      omega
    | cons b bs =>
      have he : emptyCount ((b :: bs) :: chunks) = emptyCount chunks := by simp [emptyCount]
      rw [he] at hT ⊢
      obtain ⟨h, hh⟩ := ih k ((s.memRead P (need - s.rxLen)).accumulate (b :: bs)) hlast'
        (by simp [hrx, restOffered_script _ hf]) (by simp only [State.accumulate_rxLen, State.memRead_rxLen]; omega)
        (by simpa using hT) (by omega)
      refine ⟨h, ?_⟩
      simp only [collectLoop, hgo, if_false, hans, hh]
      simpa [State.memRead, State.accumulate] using
        (Memory.writeSeq_append (b :: bs) chunks.flatten s.rxBuf s.rxLen).symm

/-- Every read brings a byte or is one without progress. -/
theorem chunks_length_le (chunks : List (List Byte)) : chunks.length ≤ chunks.flatten.length + emptyCount chunks := by
  induction chunks with
  | nil => simp
  | cons c cs ih => cases c <;> simp [emptyCount] at ih ⊢ <;> omega

theorem collect_script {P : Params} (hP : 1 ≤ P.tickMs) {T : Nat} {rest : List ReadAns} {chunks : List (List Byte)}
    {s : State} (hlast : ∀ c, chunks.getLast? = some c → c ≠ []) (hrx : s.env.rx = chunks.map .bytes ++ rest)
    (hT : s.elapsed + P.tickMs * emptyCount chunks ≤ T) :
    ∃ h, collect P chunks.flatten.length T s =
      .returned
        { s with
          elapsed := s.elapsed + P.tickMs * emptyCount chunks
          rxBuf := s.rxBuf.writeSeq 0 chunks.flatten, rxLen := chunks.flatten.length
          env := { s.env with rx := rest }, history := h } := by
  have h1 := chunks_length_le chunks
  have h2 : emptyCount chunks ≤ P.tickMs * emptyCount chunks := Nat.le_mul_of_pos_left _ hP
  obtain ⟨h, hh⟩ := collectLoop_script (need := chunks.flatten.length) chunks (chunks.flatten.length + T + 2)
    { s with rxLen := 0 } hlast hrx (by simp) hT (by omega)
  exact ⟨h, by simpa [collect] using hh⟩

/-- The whole wait and data read over a script of the environment. -/
theorem readData_script {P : Params} (hP : 1 ≤ P.tickMs) {T : Nat} {polls chunks : List (List Byte)} {ready : List Byte}
    {rest : List ReadAns} {s : State} (ho : Offers P s.env polls ready chunks rest)
    (hT : P.tickMs * (polls.length + emptyCount chunks) ≤ T) :
    ∃ h, readData P chunks.flatten.length T s =
      .returned
        { s with
          elapsed := P.tickMs * (polls.length + emptyCount chunks)
          rxBuf := s.rxBuf.writeSeq 0 chunks.flatten, rxLen := chunks.flatten.length
          env := { s.env with rx := rest }, history := h } := by
  rw [Nat.mul_add] at hT
  obtain ⟨h, hh, -⟩ := waitReady_script hP ho.ready_fits ho.ready_set (T := T) (s := s) ho.notReady ho.script
    (by omega)
  obtain ⟨h', hh'⟩ := collect_script hP (s :=
    { s with elapsed := P.tickMs * polls.length, env := { s.env with rx := chunks.map .bytes ++ rest }
             history := h ++ s.history })
    ho.last_progress rfl hT
  exact ⟨h', by simp only [readData, hh, hh', Nat.mul_add]⟩

end Sys2Proof.Machine
end

