-- ==== Sys2Proof/Laws/Operations.lean ====
section
/-! SUPPORT. What SNDACK and RDRSP can do, at the default parameters: one inversion lemma each, for every environment, and
what they do over a script of the environment. -/

namespace Sys2Proof.Machine

/-- The state in which `SNDACK` begins to wait: the frame has been written, `TXVALID` and `RSPVALID` are cleared. -/
def frameWritten (s : State) : State :=
  { s with
    hsState := .awaitingAck, rspValid := false, txValid := false
    env := { s.env with writes := s.env.writes.tail }
    history := .write params.busId (s.txBytes s.txLen) (s.writeAns (s.txBytes s.txLen)) :: s.history }

theorem sndAckOp_refused {T : Nat} {s : State} (h : s.txValid = false) :
    sndAckOp params T s = { s with result := .refused, value := .noValue } := by
  rw [sndAckOp, if_pos h]; rfl

theorem sndAckOp_closed {T : Nat} {s : State} (h1 : s.txValid = true) (h2 : s.sessionOpen = false) :
    sndAckOp params T s =
      { s with
        sessionOpen := false, txValid := false, rspValid := false, hsState := .busError, result := .busError
        value := .noValue, rxBuf := [] } := by
  rw [sndAckOp, if_neg (by simp [h1]), if_pos h2]
  simp [State.errorEntry, State.tearDown, h2]

theorem sndAckOp_writeFailed {T : Nat} {s : State} (h1 : s.txValid = true) (h2 : s.sessionOpen = true)
    (h3 : s.writeAns (s.txBytes s.txLen) = false) :
    sndAckOp params T s =
      { s with
        sessionOpen := false, txValid := false, rspValid := false, hsState := .busError, result := .busError
        value := .noValue, rxBuf := [], env := { s.env with writes := s.env.writes.tail }
        history := .busClose params.busId :: .write params.busId (s.txBytes s.txLen) false :: s.history } := by
  rw [sndAckOp, if_neg (by simp [h1]), if_neg (by simp [h2]), if_pos h3]
  have e : writeFrame params { s with rspValid := false } = { frameWritten s with hsState := .sending } := rfl
  rw [e]
  simp [State.errorEntry, State.tearDown, frameWritten, h2, h3, State.tClose]

theorem sndAckOp_written {T : Nat} {s : State} (h1 : s.txValid = true) (h2 : s.sessionOpen = true)
    (h3 : s.writeAns (s.txBytes s.txLen) = true) :
    sndAckOp params T s =
      match readData params 8 T (frameWritten s) with
      | .raised e s' => s'.errorEntry params e
      | .returned s' => ackVerdict params s' := by
  rw [sndAckOp, if_neg (by simp [h1]), if_neg (by simp [h2]), if_neg (by simp [h3])]
  rfl

/-- `SNDACK`'s verdict by the six inner bytes (41_handshake_ops.md R160, R162). -/
theorem ackVerdict_eq (s : State) :
    ackVerdict params s =
      if s.rxBytes 1 6 = params.ackPattern then { s with hsState := .awaitingResponse, result := .ok, value := .noValue }
      else { s with hsState := .done, result := .ackMismatch, value := .noValue } := by
  have h : ackMatches params (s.rxBytes params.envPre params.ackLen) = true ↔ s.rxBytes 1 6 = params.ackPattern :=
    ackMatches_iff params_valid.ack_length _
  unfold ackVerdict
  by_cases hx : s.rxBytes 1 6 = params.ackPattern
  · rw [if_pos hx, if_pos (h.mpr hx)]; rfl
  · rw [if_neg hx, if_neg fun hh => hx (h.mp hh)]; rfl

/-- `RDRSP`'s verdict once the read is complete: never `ShortRead` (60_exceptions.md R215). -/
theorem responseVerdict_eq {n : Nat} {s : State} (h : s.rxLen = n + 2) :
    responseVerdict params n s =
      if s.ctrl.getLsbD 0 && !checksumsOk (s.rxBytes 1 n) then
        { s with hsState := .done, result := .checksumMismatch, value := .noValue }
      else
        { s with
          hsState := .done, rspLen := n, rspValid := true, result := .ok, value := .bytes (s.rxBytes 1 n) } := by
  have e : innerBytes params (s.rxBytes 0 s.rxLen) n = s.rxBytes 1 n := by
    simp only [innerBytes, State.rxBytes]
    have hp : params.envPre = 1 := rfl
    rw [Memory.sub_slice _ _ _ _ _ _ (by omega), hp]
  have hl : ¬ (s.rxBytes 0 s.rxLen).length < params.envPre + n + params.envPost := by
    have h1 : params.envPre = 1 := rfl
    have h2 : params.envPost = 1 := rfl
    simp only [State.rxBytes, Memory.slice_length]
    omega
  simp only [responseVerdict, decodeEnvelope, if_neg hl, e, State.chkEn]
  cases s.ctrl.getLsbD 0 && !checksumsOk (s.rxBytes 1 n) <;> rfl

/-- How a wait and data read at the default parameters ended, in numbers. -/
theorem readData_cases (need T : Nat) (s : State) :
    ∃ s' w c, Moved params { s with elapsed := 0 } s' (c ++ w) ∧ s'.rxBuf = s.rxBuf.writeSeq 0 (readBytes c) ∧
      (readBytes c).length ≤ need ∧ (s'.rxLen = s.rxLen ∨ s'.rxLen = (readBytes c).length) ∧
      s'.elapsed = sleptMs (c ++ w) ∧ sleptMs (c ++ w) = sleepCount (c ++ w) ∧ readCount (c ++ w) ≤ T + 2 + need ∧
      ((T < s'.elapsed ∧ s'.elapsed ≤ T + 1 ∧ readData params need T s = .raised .timedOut s') ∨
       (s'.elapsed ≤ T ∧ readData params need T s = .raised .busError s') ∨
       (s'.elapsed ≤ T ∧ s'.rxLen = need ∧ (readBytes c).length = need ∧ readData params need T s = .returned s')) := by
  obtain ⟨s', w, c, hm, hb, hl, hn, he, hr⟩ := readData_spec (P := params) (by decide) need T s
  have htk : params.tickMs = 1 := rfl
  have hs : sleptMs (c ++ w) = sleepCount (c ++ w) := by rw [hm.slept, htk, Nat.one_mul]
  have hel : s'.elapsed = sleptMs (c ++ w) := by rw [hm.elapsed]; simp
  refine ⟨s', w, c, hm, hb, hl, hn, hel, hs, ?_, ?_⟩
  · unfold WaitEnd at he
    split at he <;> omega
  · cases hd : readData params need T s with
    | returned t =>
      rw [hd] at he
      simp only [WaitEnd] at he
      obtain ⟨rfl, h4, _⟩ := he
      obtain ⟨h5, h6⟩ := hr t hd
      exact Or.inr (Or.inr ⟨h4, h5, h6, rfl⟩)
    | raised e t =>
      rw [hd] at he
      cases e <;> simp only [WaitEnd] at he
      · obtain ⟨rfl, h4, h5, _⟩ := he
        exact Or.inl ⟨h4, by omega, rfl⟩
      · obtain ⟨rfl, h4, _⟩ := he
        exact Or.inr (Or.inl ⟨h4, rfl⟩)

/-- Everything `SNDACK` can do with a Frame, an open session and an accepted write. -/
theorem sndAckOp_cases {T : Nat} {s : State} (h1 : s.txValid = true) (h2 : s.sessionOpen = true)
    (h3 : s.writeAns (s.txBytes s.txLen) = true) :
    ∃ s' w c, Moved params { frameWritten s with elapsed := 0 } s' (c ++ w) ∧
      s'.rxBuf = s.rxBuf.writeSeq 0 (readBytes c) ∧ (readBytes c).length ≤ 8 ∧
      (s'.rxLen = s.rxLen ∨ s'.rxLen = (readBytes c).length) ∧ s'.elapsed = sleptMs (c ++ w) ∧
      sleptMs (c ++ w) = sleepCount (c ++ w) ∧ readCount (c ++ w) ≤ T + 2 + 8 ∧
      ((T < s'.elapsed ∧ s'.elapsed ≤ T + 1 ∧ sndAckOp params T s = s'.errorEntry params .timedOut) ∨
       (s'.elapsed ≤ T ∧ sndAckOp params T s = s'.errorEntry params .busError) ∨
       (s'.elapsed ≤ T ∧ s'.rxLen = 8 ∧ (readBytes c).length = 8 ∧ sndAckOp params T s = ackVerdict params s')) := by
  obtain ⟨s', w, c, hm, hb, hl, hn, he, hs, hr, hc⟩ := readData_cases 8 T (frameWritten s)
  refine ⟨s', w, c, hm, hb, hl, hn, he, hs, hr, ?_⟩
  rw [sndAckOp_written h1 h2 h3]
  rcases hc with ⟨a, b, hc⟩ | ⟨a, hc⟩ | ⟨a, b, d, hc⟩ <;> rw [hc]
  · exact Or.inl ⟨a, b, rfl⟩
  · exact Or.inr (Or.inl ⟨a, rfl⟩)
  · exact Or.inr (Or.inr ⟨a, b, d, rfl⟩)

theorem rdRspOp_refused {n T : Nat} {s : State} (h : s.hsState ≠ .awaitingResponse ∨ 262 < n) :
    rdRspOp params n T s = { s with result := .refused, value := .noValue } := by
  unfold rdRspOp
  split
  · rfl
  · next h1 =>
    rw [if_pos (by rcases h with h | h; exact absurd h h1; exact h)]
    rfl

theorem rdRspOp_accepted {n T : Nat} {s : State} (h1 : s.hsState = .awaitingResponse) (h2 : n ≤ 262) :
    rdRspOp params n T s =
      match readData params (n + 2) T { s with rspValid := false } with
      | .raised e s' => s'.errorEntry params e
      | .returned s' => responseVerdict params n s' := by
  have e : params.envPre + n + params.envPost = n + 2 := by
    have h1 : params.envPre = 1 := rfl
    have h2 : params.envPost = 1 := rfl
    omega
  have hmax : params.maxRead = 262 := rfl
  have h := rdRspOp.eq_1 params n T s
  rw [if_neg (by simp [h1]), if_neg (by omega), e] at h
  exact h

/-- Everything an accepted `RDRSP` can do. -/
theorem rdRspOp_cases {n T : Nat} {s : State} (h1 : s.hsState = .awaitingResponse) (h2 : n ≤ 262) :
    ∃ s' w c, Moved params { s with rspValid := false, elapsed := 0 } s' (c ++ w) ∧
      s'.rxBuf = s.rxBuf.writeSeq 0 (readBytes c) ∧ (readBytes c).length ≤ n + 2 ∧
      (s'.rxLen = s.rxLen ∨ s'.rxLen = (readBytes c).length) ∧ s'.elapsed = sleptMs (c ++ w) ∧
      sleptMs (c ++ w) = sleepCount (c ++ w) ∧ readCount (c ++ w) ≤ T + 2 + (n + 2) ∧
      ((T < s'.elapsed ∧ s'.elapsed ≤ T + 1 ∧ rdRspOp params n T s = s'.errorEntry params .timedOut) ∨
       (s'.elapsed ≤ T ∧ rdRspOp params n T s = s'.errorEntry params .busError) ∨
       (s'.elapsed ≤ T ∧ s'.rxLen = n + 2 ∧ (readBytes c).length = n + 2 ∧
        rdRspOp params n T s = responseVerdict params n s')) := by
  obtain ⟨s', w, c, hm, hb, hl, hn, he, hs, hr, hc⟩ := readData_cases (n + 2) T { s with rspValid := false }
  refine ⟨s', w, c, hm, hb, hl, hn, he, hs, hr, ?_⟩
  rw [rdRspOp_accepted h1 h2]
  rcases hc with ⟨a, b, hc⟩ | ⟨a, hc⟩ | ⟨a, b, d, hc⟩ <;> rw [hc]
  · exact Or.inl ⟨a, b, rfl⟩
  · exact Or.inr (Or.inl ⟨a, rfl⟩)
  · exact Or.inr (Or.inr ⟨a, b, d, rfl⟩)

end Sys2Proof.Machine
end

