-- ==== Sys2Proof/Laws/PerInstr.lean ====
section
/-! SUPPORT. Per-instruction families: one lemma for each constructor of Instr. -/

namespace Sys2Proof.Laws.RoundTrip

open Machine

/-- Family RoundTrip: whatever follows it at the issue port, an encoded well-formed instruction is read back. -/
def Statement (i : Instr) : Prop := WellFormed i → ∀ rest, decode (encode i ++ rest) = .ok (i, rest)

theorem enc (payload : List Byte) : Statement (.enc payload) := by
  intro _ rest
  simp only [encode, decode, List.cons_append, decodeBody, decodeSeq_encodeSeq]
  rfl

theorem vack (bytes : List Byte) : Statement (.vack bytes) := by
  intro _ rest
  simp only [encode, decode, List.cons_append, decodeBody, decodeSeq_encodeSeq]
  rfl

theorem dec (bytes : List Byte) (expectedLen : Nat) (check : Bool) : Statement (.dec bytes expectedLen check) := by
  intro _ rest
  simp only [encode, decode, List.cons_append, List.append_assoc, decodeBody, decodeSeq_encodeSeq, decodeNat_encodeNat,
    decodeCheck_encodeCheck]
  rfl

theorem sndack (ackTimeoutMs : BitVec 32) : Statement (.sndack ackTimeoutMs) := by
  intro _ rest
  simp only [encode, decode, List.cons_append, decodeBody, decodeU32_encodeU32]
  rfl

theorem rdrsp (nBytes : Nat) (timeoutMs : BitVec 32) : Statement (.rdrsp nBytes timeoutMs) := by
  intro _ rest
  simp only [encode, decode, List.cons_append, List.append_assoc, decodeBody, decodeNat_encodeNat, decodeU32_encodeU32]
  rfl

theorem openSession : Statement .openSession := fun _ _ => rfl

theorem closeSession : Statement .closeSession := fun _ _ => rfl

theorem wrctrl (v : Byte) : Statement (.wrctrl v) := fun _ _ => rfl

theorem frameCmd (payload : List Byte) : Statement (.frameCmd payload) := by
  intro hw rest
  have hp : payload.length ≤ params.maxPayload := of_decide_eq_true hw
  have hv := params_valid.payload_fits
  have h := decodeFrame_buildFrame (P := params) rest (Or.inl rfl) (by omega : payload.length + params.lenBias ≤ 255)
  rw [if_pos rfl, if_pos hp] at h
  exact h

theorem frameRsp (payload : List Byte) : Statement (.frameRsp payload) := by
  intro hw rest
  have h := decodeFrame_buildFrame (P := params) rest (Or.inr rfl) (of_decide_eq_true hw)
  rw [if_neg (by decide)] at h
  exact h

theorem frameAck : Statement .frameAck := fun _ rest => decodeAck_pattern params_valid.ack_length rest

theorem envelope (status : Byte) (inner : List Byte) (pad : Byte) : Statement (.envelope status inner pad) :=
  fun hw rest => decodeEnvelopeItem_build (of_decide_eq_true hw) status pad rest

end Sys2Proof.Laws.RoundTrip
end

