-- ==== Sys2Proof/Laws/Script.lean ====
section
/-! SUPPORT. The waits over a script of the environment that does not lead to success: the budget runs out, or a read
answers `ERR`; then what `SNDACK` and `RDRSP` make of a wait that ends so. -/

namespace Sys2Proof.Machine

/-- Polls that are not ready for the whole budget, at the 1 ms tick (41_handshake_ops.md R155 (a)). -/
theorem waitReadyLoop_timeout_script {P : Params} (hP : P.tickMs = 1) {T : Nat} {rest : List ReadAns} :
    ∀ (polls : List (List Byte)) (k : Nat) (s : State), NotReady P polls → polls ≠ [] →
      s.env.rx = polls.map .bytes ++ rest → s.elapsed + polls.length = T + 1 → polls.length ≤ k →
      ∃ h, waitReadyLoop P T k s =
        .raised .timedOut { s with elapsed := T + 1, env := { s.env with rx := rest }, history := h ++ s.history } ∧
        readCount h = polls.length ∧ sleepCount h = polls.length ∧ sleptMs h = polls.length ∧ h.length = 2 * polls.length := by
  intro polls
  induction polls with
  | nil => intro k s _ h; simp at h
  | cons p polls ih =>
    intro k s hn _ hrx hT hk
    obtain ⟨k, rfl⟩ : ∃ j, k = j + 1 := ⟨k - 1, by simp at hk; omega⟩
    simp only [List.map_cons, List.cons_append] at hrx
    obtain ⟨hpf, hpn⟩ := hn p (by simp)
    simp only [List.length_cons] at hT hk
    simp only [waitReadyLoop, readAns_script hrx hpf, hpn, Bool.false_eq_true, if_false]
    by_cases he : polls = []
    · subst he
      simp at hT
      rw [if_pos (by simp [hP]; omega)]
      refine ⟨[.sleep 1, .read P.busId P.pollLen (.bytes p)], ?_, ?_⟩
      · simp [State.memRead, State.sleepTick, hP, hrx, restOffered_script _ hpf, readAns_script hrx hpf]; omega
      · simp [readCount, sleepCount, sleptMs]
    · rw [if_neg (by simp [hP]; have := List.length_pos_iff.mpr he; omega)]
      obtain ⟨h, hh, a, b, c, d⟩ := ih k ((s.memRead P P.pollLen).sleepTick P) (fun q hq => hn q (by simp [hq])) he
        (by simp [hrx, restOffered_script _ hpf]) (by simp [hP]; omega) (by omega)
      refine ⟨h ++ [.sleep 1, .read P.busId P.pollLen (.bytes p)], ?_, ?_⟩
      · rw [hh]; simp [State.memRead, State.sleepTick, hP, hrx, restOffered_script _ hpf, readAns_script hrx hpf]
      · simp [readCount, sleepCount, sleptMs, a,b,c,d]; omega

/-- Polls that are not ready, then one that answers `ERR`: the last call (41_handshake_ops.md R155 (e)). -/
theorem waitReadyLoop_error_script {P : Params} (hP : P.tickMs = 1) {T : Nat} {rest : List ReadAns} :
    ∀ (polls : List (List Byte)) (k : Nat) (s : State), NotReady P polls →
      s.env.rx = polls.map .bytes ++ .err :: rest → s.elapsed + polls.length ≤ T → polls.length < k →
      ∃ h, waitReadyLoop P T k s =
        .raised .busError
          { s with
            elapsed := s.elapsed + polls.length, env := { s.env with rx := rest }
            history := .read P.busId P.pollLen .err :: (h ++ s.history) } ∧
        closeCount h = 0 ∧ sleepCount h = polls.length ∧ sleptMs h = polls.length := by
  intro polls
  induction polls with
  | nil =>
    intro k s _ hrx hT hk
    obtain ⟨k, rfl⟩ : ∃ j, k = j + 1 := ⟨k - 1, by simp at hk; omega⟩
    simp at hrx
    refine ⟨[], ?_, rfl, rfl, rfl⟩
    have : s.readAns P.pollLen = .err := by simp [State.readAns, hrx, ReadAns.clip]
    simp [waitReadyLoop, this, State.memRead, hrx, restOffered]
  | cons p polls ih =>
    intro k s hn hrx hT hk
    obtain ⟨k, rfl⟩ : ∃ j, k = j + 1 := ⟨k - 1, by simp at hk; omega⟩
    simp only [List.map_cons, List.cons_append] at hrx
    obtain ⟨hpf, hpn⟩ := hn p (by simp)
    simp only [List.length_cons] at hT hk
    simp only [waitReadyLoop, readAns_script hrx hpf, hpn, Bool.false_eq_true, if_false]
    rw [if_neg (by simp [hP]; omega)]
    obtain ⟨h, hh, a, b, c⟩ := ih k ((s.memRead P P.pollLen).sleepTick P) (fun q hq => hn q (by simp [hq]))
        (by simp [hrx, restOffered_script _ hpf]) (by simp [hP]; omega) (by omega)
    refine ⟨h ++ [.sleep 1, .read P.busId P.pollLen (.bytes p)], ?_, ?_⟩
    · rw [hh]
      simp [State.memRead, State.sleepTick, hP, hrx, restOffered_script _ hpf, readAns_script hrx hpf]
      omega
    · simp [closeCount, sleepCount, sleptMs, a, b, c]

/-- A data read that answers `ERR` before it is complete: the last call (41_handshake_ops.md R156). -/
theorem collectLoop_error_script {P : Params} (hP : P.tickMs = 1) {need T : Nat} {rest : List ReadAns} :
    ∀ (chunks : List (List Byte)) (k : Nat) (s : State),
      s.env.rx = chunks.map .bytes ++ .err :: rest → s.rxLen + chunks.flatten.length < need →
      s.elapsed + emptyCount chunks ≤ T → chunks.length < k →
      ∃ h t, collectLoop P need T k s = .raised .busError t ∧
        t = { s with
              elapsed := s.elapsed + emptyCount chunks, rxBuf := t.rxBuf, rxLen := t.rxLen
              env := { s.env with rx := rest }
              history := .read P.busId (need - (s.rxLen + chunks.flatten.length)) .err :: (h ++ s.history) } ∧
        closeCount h = 0 ∧ sleepCount h = emptyCount chunks ∧ sleptMs h = emptyCount chunks := by
  intro chunks
  induction chunks with
  | nil =>
    intro k s hrx hneed _ hk
    obtain ⟨k, rfl⟩ : ∃ j, k = j + 1 := ⟨k - 1, by simp at hk; omega⟩
    simp at hrx hneed
    have : s.readAns (need - s.rxLen) = .err := by simp [State.readAns, hrx, ReadAns.clip]
    simp only [collectLoop, if_neg (show ¬ need ≤ s.rxLen by omega), this]
    exact ⟨[], _, rfl, by simp [State.memRead, hrx, restOffered, this, emptyCount], rfl, rfl, rfl⟩
  | cons c chunks ih =>
    intro k s hrx hneed hT hk
    obtain ⟨k, rfl⟩ : ∃ j, k = j + 1 := ⟨k - 1, by simp at hk; omega⟩
    simp only [List.map_cons, List.cons_append] at hrx
    simp only [List.flatten_cons, List.length_append] at hneed
    simp only [List.length_cons] at hk
    have hf : c.length ≤ need - s.rxLen := by omega
    simp only [collectLoop, if_neg (show ¬ need ≤ s.rxLen by omega), readAns_script hrx hf]
    cases c with
    | nil =>
      have he : emptyCount ([] :: chunks) = emptyCount chunks + 1 := by simp [emptyCount]
      rw [he] at hT ⊢
      simp only
      rw [if_neg (by simp [hP]; omega)]
      obtain ⟨h, t, hh, ht, a, b, c⟩ := ih k ((s.memRead P (need - s.rxLen)).sleepTick P)
        (by simp [hrx, restOffered]) (by simpa using hneed) (by simp [hP]; omega) (by omega)
      refine ⟨h ++ [.sleep 1, .read P.busId (need - s.rxLen) (.bytes [])], t, hh, ?_, ?_⟩
      · rw [ht]
        simp [State.memRead, State.sleepTick, hP, readAns_script hrx hf]
        omega
      · simp [closeCount, sleepCount, sleptMs, a, b, c]
    | cons b bs =>
      have he : emptyCount ((b :: bs) :: chunks) = emptyCount chunks := by simp [emptyCount]
      rw [he] at hT ⊢
      obtain ⟨h, t, hh, ht, a, b', c⟩ := ih k ((s.memRead P (need - s.rxLen)).accumulate (b :: bs))
        (by simp [hrx, restOffered_script _ hf]) (by simp at hneed ⊢; omega) (by simpa using hT) (by omega)
      refine ⟨h ++ [.read P.busId (need - s.rxLen) (.bytes (b :: bs))], t, hh, ?_, ?_⟩
      · rw [ht]
        simp [State.memRead, State.accumulate, readAns_script hrx hf]
        omega
      · simp [closeCount, sleepCount, sleptMs, a, b', c]

/-- How a wait that an `ERR` ended left the block: `asked` bytes had been asked for, `ms` milliseconds slept. -/
def WaitErrs (P : Params) (need T : Nat) (s : State) (asked ms : Nat) (rest : List ReadAns) : Prop :=
  ∃ h t, readData P need T s = .raised .busError t ∧
    t = { s with
          elapsed := ms, rxBuf := t.rxBuf, rxLen := t.rxLen, env := { s.env with rx := rest }
          history := .read P.busId asked .err :: (h ++ s.history) } ∧
    closeCount h = 0 ∧ sleepCount h = ms ∧ sleptMs h = ms

theorem readData_pollError_script {P : Params} (hP : P.tickMs = 1) {need T : Nat} {rest : List ReadAns}
    {polls : List (List Byte)} {s : State} (hn : NotReady P polls) (hrx : s.env.rx = polls.map .bytes ++ .err :: rest)
    (hT : polls.length ≤ T) : WaitErrs P need T s P.pollLen polls.length rest := by
  obtain ⟨h, hh, a, b, c⟩ := waitReadyLoop_error_script hP (T := T) polls (T + 1) { s with elapsed := 0 } hn hrx
    (by simpa using hT) (by omega)
  exact ⟨h, _, by rw [readData, waitReady, hh], by simp, a, b, c⟩

theorem readData_dataError_script {P : Params} (hP : P.tickMs = 1) {need T : Nat} {rest : List ReadAns}
    {polls chunks : List (List Byte)} {ready : List Byte} {s : State} (hn : NotReady P polls)
    (hrx : s.env.rx = polls.map .bytes ++ .bytes ready :: (chunks.map .bytes ++ .err :: rest))
    (hrf : ready.length ≤ P.pollLen) (hrs : isReady P ready = true) (hneed : chunks.flatten.length < need)
    (hT : polls.length + emptyCount chunks ≤ T) :
    WaitErrs P need T s (need - chunks.flatten.length) (polls.length + emptyCount chunks) rest := by
  have hk := chunks_length_le chunks
  obtain ⟨h, hh, a, b, c⟩ := waitReady_script (by omega) hrf hrs (T := T) hn hrx (by rw [hP]; omega)
  obtain ⟨h', t, hh', ht, a', b', c'⟩ := collectLoop_error_script hP (need := need) (T := T) chunks (need + T + 2)
    { s with
      elapsed := P.tickMs * polls.length, rxLen := 0, env := { s.env with rx := chunks.map .bytes ++ .err :: rest }
      history := h ++ s.history }
    rfl (by simpa using hneed) (by simp only [hP]; omega) (by omega)
  refine ⟨h' ++ h, t, by rw [readData, hh]; exact hh', ?_, by simp [a, a'], by simp [b, b', Nat.add_comm], ?_⟩
  · rw [ht]; simp [hP]
  · simp [c, c', hP, Nat.add_comm]

/-- `SNDACK` over a wait that an `ERR` ends. -/
theorem exec_sndack_waitErrs {T : BitVec 32} {s : State} {asked ms : Nat} {rest : List ReadAns}
    (h1 : s.txValid = true) (h2 : s.sessionOpen = true) (h3 : s.writeAns (s.txBytes s.txLen) = true)
    (h : WaitErrs params 8 T.toNat (frameWritten s) asked ms rest) : EndsAtErr (.sndack T) s asked ms rest := by
  obtain ⟨evs, t, hr, ht, a, b, c⟩ := h
  refine ⟨t.errorEntry params .busError, evs ++ [.write params.busId (s.txBytes s.txLen) true], ?_⟩
  rw [exec_sndack, sndAckOp_written h1 h2 h3, hr]
  rw [ht]
  simp [State.errorEntry, State.tearDown, State.tClose, frameWritten, h2, h3, closeCount, sleepCount, sleptMs, a, b, c]
  rfl

/-- An accepted `RDRSP` over a wait that an `ERR` ends. -/
theorem exec_rdrsp_waitErrs {n : Nat} {T : BitVec 32} {s : State} {asked ms : Nat} {rest : List ReadAns}
    (h1 : s.hsState = .awaitingResponse) (h2 : n ≤ 262)
    (h : WaitErrs params (n + 2) T.toNat { s with rspValid := false } asked ms rest) :
    EndsAtErr (.rdrsp n T) s asked ms rest := by
  obtain ⟨evs, t, hr, ht, a, b, c⟩ := h
  refine ⟨t.errorEntry params .busError, evs, ?_⟩
  rw [exec_rdrsp, rdRspOp_accepted h1 h2, hr]
  rw [ht]
  cases ho : s.sessionOpen <;> simp [State.errorEntry, State.tearDown, State.tClose, a, b, c] <;> rfl

end Sys2Proof.Machine
end

