-- ==== Sys2Proof/Tests/Slice0.lean ====
section
/-! SUPPORT. Smoke tests of WellFormed, decode tests on words written out from the spec's encodings, one-step tests whose
expected results are the vectors of 95_test_vectors.md, and a witness for the hypotheses of every statement. -/

namespace Sys2Proof.Tests

open Machine

/-! ### Helpers -/

/-- The Frame of V-ENC-2. -/
def frame02 : List Byte := [0x00#8, 0x00#8, 0xFF#8, 0x02#8, 0xFE#8, 0xD4#8, 0x02#8, 0x2A#8, 0x00#8]

/-- The envelope of an ACK, as P1 of 95_test_vectors.md delivers it. -/
def ackRead : List Byte := [0x01#8, 0x00#8, 0x00#8, 0xFF#8, 0x00#8, 0xFF#8, 0x00#8, 0x00#8]

/-- The start of the V-HS rows: an open session, the Frame of V-ENC-2, a write that answers `true`. -/
def readyToSend (rx : List ReadAns) : State :=
  { State.reset with
    sessionOpen := true, txValid := true, txLen := 9, txBuf := Memory.writeSeq [] 0 frame02
    env := { rx := rx, opens := [], addresses := [], writes := [true] } }

/-- The start of the V-RD rows. -/
def awaiting (ctrl : BitVec 8) (rx : List ReadAns) : State :=
  { State.reset with
    hsState := .awaitingResponse, sessionOpen := true, ctrl := ctrl
    env := { rx := rx, opens := [], addresses := [], writes := [] } }

/-- The reset state with answers laid down for `OPEN`. -/
def answering (opens addresses : List Bool) : State :=
  { State.reset with env := { rx := [], opens := opens, addresses := addresses, writes := [] } }

/-- The next state, where there is one. -/
def after (o : Host.Outcome State Fault Refusal) : Option State :=
  match o with
  | .next s => some s
  | .fault _ => none
  | .refused _ => none

/-- What the vectors list: `HS`, `OPEN`, `TXV`, `RSPV`, `EL`, `RES`, `RXLEN`, `RSPLEN`. -/
structure View where
  hs : HsState
  opened : Bool
  txv : Bool
  rspv : Bool
  el : Nat
  res : ResultCode
  rxlen : Nat
  rsplen : Nat
  deriving DecidableEq, Repr

/-- The view of the next state, where there is one. -/
def view (o : Host.Outcome State Fault Refusal) : Option View :=
  (after o).map fun s =>
    { hs := s.hsState, opened := s.sessionOpen, txv := s.txValid, rspv := s.rspValid, el := s.elapsed, res := s.result
      rxlen := s.rxLen, rsplen := s.rspLen }

/-- `RESULT` and the value returned. -/
def answer (o : Host.Outcome State Fault Refusal) : Option (ResultCode × RetVal) :=
  (after o).map fun s => (s.result, s.value)

/-! ### WellFormed refuses -/

theorem test_wf_frameCmd_255 : ¬ WellFormed (.frameCmd (List.replicate 255 0x00#8)) := by
  rw [WellFormed, Instr.wellFormed, List.length_replicate]; decide
theorem test_wf_frameRsp_255 : ¬ WellFormed (.frameRsp (List.replicate 255 0x00#8)) := by
  rw [WellFormed, Instr.wellFormed, List.length_replicate]; decide
theorem test_wf_envelope_263 : ¬ WellFormed (.envelope 0x01#8 (List.replicate 263 0x00#8) 0x00#8) := by
  rw [WellFormed, Instr.wellFormed, List.length_replicate]; decide

/-! ### Decoding, by words written out from the spec

Select codes 0 to 7: 30_encoding.md R107. Frames: R91 to R98. ACK: R99. Envelope: R101. -/

theorem test_decode_enc : decode [0b00000000#8, 2#8, 0x14#8, 0x01#8, 0x77#8] = .ok (.enc [0x14#8, 0x01#8], [0x77#8]) := by
  decide
theorem test_decode_vack : decode [0b00000001#8, 3#8, 0x00#8, 0xFF#8, 0x00#8] = .ok (.vack [0x00#8, 0xFF#8, 0x00#8], []) := by
  decide
theorem test_decode_dec : decode [0b00000010#8, 1#8, 0x09#8, 0x0C#8, 0x01#8] = .ok (.dec [0x09#8] 12 true, []) := by decide
theorem test_decode_sndack : decode [0b00000011#8, 0xE8#8, 0x03#8, 0x00#8, 0x00#8] = .ok (.sndack 1000#32, []) := by decide
theorem test_decode_rdrsp :
    decode [0b00000100#8, 0x86#8, 0x02#8, 0x05#8, 0x00#8, 0x00#8, 0x00#8] = .ok (.rdrsp 262 5#32, []) := by decide
theorem test_decode_open : decode [0b00000101#8] = .ok (.openSession, []) := by decide
theorem test_decode_close : decode [0b00000110#8] = .ok (.closeSession, []) := by decide
theorem test_decode_wrctrl : decode [0b00000111#8, 0xFE#8] = .ok (.wrctrl 0xFE#8, []) := by decide

/-- V-ENC-4. -/
theorem test_decode_frameCmd :
    decode [8#8, 0x00#8, 0x00#8, 0xFF#8, 0x05#8, 0xFB#8, 0xD4#8, 0x14#8, 0x01#8, 0x14#8, 0x01#8, 0x02#8, 0x00#8] =
      .ok (.frameCmd [0x14#8, 0x01#8, 0x14#8, 0x01#8], []) := by decide

/-- `fw` of 95_test_vectors.md section 2.3. -/
theorem test_decode_frameRsp :
    decode
        [8#8, 0x00#8, 0x00#8, 0xFF#8, 0x06#8, 0xFA#8, 0xD5#8, 0x03#8, 0x32#8, 0x01#8, 0x06#8, 0x07#8, 0xE8#8, 0x00#8] =
      .ok (.frameRsp [0x03#8, 0x32#8, 0x01#8, 0x06#8, 0x07#8], []) := by decide

theorem test_decode_frameAck :
    decode [9#8, 0x00#8, 0x00#8, 0xFF#8, 0x00#8, 0xFF#8, 0x00#8] = .ok (.frameAck, []) := by decide
theorem test_decode_envelope :
    decode [10#8, 2#8, 0x01#8, 0xAB#8, 0xCD#8, 0xAA#8] = .ok (.envelope 0x01#8 [0xAB#8, 0xCD#8] 0xAA#8, []) := by decide

/-! Rejections: a ninth code; a NACK (V-ACK-2) as an ACK; wrong `LCS`, wrong `DCS` (V-DEC-12, V-DEC-13), `LEN = 0`. -/

theorem test_decode_unknown : decode [0b00001011#8] = .error (.unknownLead 0x0B#8) := by decide
theorem test_decode_nack : decode [9#8, 0x00#8, 0x00#8, 0xFF#8, 0xFF#8, 0x00#8, 0x00#8] = .error .notAck := by decide
theorem test_decode_badLcs :
    decode [8#8, 0x00#8, 0x00#8, 0xFF#8, 0x02#8, 0xFD#8, 0xD5#8, 0x15#8, 0x16#8, 0x00#8] = .error .badLengthChecksum := by
  decide
theorem test_decode_badDcs :
    decode [8#8, 0x00#8, 0x00#8, 0xFF#8, 0x02#8, 0xFE#8, 0xD5#8, 0x15#8, 0x17#8, 0x00#8] = .error .badPayloadChecksum := by
  decide
theorem test_decode_len0 :
    decode [8#8, 0x00#8, 0x00#8, 0xFF#8, 0x00#8, 0x00#8, 0xD4#8, 0x2C#8, 0x00#8] = .error .lengthTooSmall := by decide

/-- FRAME.CMD's and FRAME.RSP's `match` words, computed fields left zero, in either numbering of their bytes. -/
theorem test_tableWords :
    decodeTableWord 48 0xD40000FF0000 = some (.frameCmd []) ∧ decodeTableWord 48 0xD50000FF0000 = some (.frameRsp []) ∧
      decodeTableWord 48 0x0000FF0000D4 = some (.frameCmd []) ∧ decodeTableWord 48 0x0000FF00FF00 = some .frameAck := by
  decide

/-- The first step after reset runs the placed instruction: an `ENC` of the empty payload (V-ENC-1). -/
theorem test_withFetchWord :
    answer (step (State.reset.withFetchWord 3 0)) =
      some (.ok, .bytes [0x00#8, 0x00#8, 0xFF#8, 0x01#8, 0xFF#8, 0xD4#8, 0x2C#8, 0x00#8]) := by decide

/-! ### One step per operation, against the vectors -/

/-- V-ENC-14: overwriting V-ENC-4; `TXBUF[9..11]` keep `01 02 00`. -/
theorem test_enc :
    (after (exec (.enc [0x02#8])
        { State.reset with
          txValid := true, txLen := 12
          txBuf := Memory.writeSeq [] 0
            [0x00#8, 0x00#8, 0xFF#8, 0x05#8, 0xFB#8, 0xD4#8, 0x14#8, 0x01#8, 0x14#8, 0x01#8, 0x02#8, 0x00#8] })).map
        (fun s => (s.txLen, s.txValid, s.txBuf.map Prod.snd)) =
      some (9, true, frame02 ++ [0x01#8, 0x02#8, 0x00#8]) := by decide

/-- V-ENC-13. -/
theorem test_enc_refused :
    (after (exec (.enc (List.replicate 255 0x00#8)) State.reset)).map (fun s => (s.result, s.txValid)) =
      some (.refused, false) := by
  rw [exec, execEnc, encOp, if_pos (by rw [List.length_replicate]; decide)]; rfl

/-- V-ACK-1 and V-ACK-6. -/
theorem test_vack :
    answer (exec (.vack [0x00#8, 0x00#8, 0xFF#8, 0x00#8, 0xFF#8, 0x00#8]) State.reset) = some (.ok, .flag true) ∧
      answer (exec (.vack [0x00#8, 0x00#8, 0xFF#8, 0x00#8, 0xFF#8, 0x00#8, 0x00#8]) State.reset) =
        some (.ok, .flag false) := by decide

/-- V-ACK-2 (what the PN532 protocol calls a NACK). -/
theorem test_vack_nack :
    answer (exec (.vack [0x00#8, 0x00#8, 0xFF#8, 0xFF#8, 0x00#8, 0x00#8]) State.reset) = some (.ok, .flag false) := by
  decide

/-- V-DEC-10: the `DCS` beyond the bytes read. -/
theorem test_dec_dcs_beyond :
    answer (exec
        (.dec
          [0x01#8, 0x00#8, 0x00#8, 0xFF#8, 0x06#8, 0xFA#8, 0xD5#8, 0x03#8, 0x32#8, 0x01#8, 0x06#8, 0x07#8, 0xE8#8, 0x00#8,
            0x00#8] 11 true) State.reset) =
      some (.checksumMismatch, .noValue) := by decide

/-- V-DEC-16 (only the two sums count) and V-DEC-5. -/
theorem test_dec :
    answer (exec
        (.dec
          [0x01#8, 0x55#8, 0x00#8, 0xFF#8, 0x06#8, 0xFA#8, 0xD4#8, 0x03#8, 0x32#8, 0x01#8, 0x06#8, 0x07#8, 0xE9#8, 0x77#8,
            0x00#8] 13 true) State.reset) =
        some
          (.ok,
            .bytes
              [0x55#8, 0x00#8, 0xFF#8, 0x06#8, 0xFA#8, 0xD4#8, 0x03#8, 0x32#8, 0x01#8, 0x06#8, 0x07#8, 0xE9#8, 0x77#8]) ∧
      answer (exec (.dec [0x09#8] 0 false) State.reset) = some (.shortRead, .noValue) := by decide

/-- V-HS-6: pieces, an empty one costing a tick, the pad not examined. -/
theorem test_sndack_pieces :
    view (exec (.sndack 50#32)
        (readyToSend
          [.bytes [0x01#8], .bytes [0x01#8, 0x00#8, 0x00#8], .bytes [], .bytes [0xFF#8, 0x00#8, 0xFF#8],
            .bytes [0x00#8, 0x80#8]])) =
      some ⟨.awaitingResponse, true, false, false, 1, .ok, 8, 0⟩ := by decide

/-- V-HS-5: the budget is shared between `WaitReady` and `Collect`. -/
theorem test_sndack_budget :
    view (exec (.sndack 2#32)
        (readyToSend [.bytes [0x00#8], .bytes [0x01#8], .bytes [0x01#8, 0x00#8], .bytes [], .bytes []])) =
      some ⟨.timedOut, true, false, false, 3, .timedOut, 2, 0⟩ := by decide

/-- V-RD-5: polls, pieces, and the check passing on an 8-byte read. -/
theorem test_rdrsp :
    view (exec (.rdrsp 8 50#32)
        (awaiting 0x01#8
          [.bytes [0x00#8], .bytes [0x00#8], .bytes [0x01#8], .bytes [0x01#8, 0x00#8, 0x00#8, 0xFF#8, 0x02#8], .bytes [],
            .bytes [0xFE#8, 0xD5#8, 0x15#8, 0x16#8, 0x00#8]])) =
      some ⟨.done, true, false, true, 3, .ok, 10, 8⟩ := by decide

/-- V-RD-7. -/
theorem test_rdrsp_check_fails :
    view (exec (.rdrsp 0 5#32) (awaiting 0x01#8 [.bytes [0x01#8], .bytes [0x01#8, 0x00#8]])) =
      some ⟨.done, true, false, false, 0, .checksumMismatch, 2, 0⟩ := by decide

/-- V-SES-1 with its two calls. -/
theorem test_open :
    (after (exec .openSession (answering [true] [true]))).map
        (fun s => (s.hsState, s.sessionOpen, s.result, s.history.length)) =
      some (.idle, true, .ok, 2) := by decide

/-- V-SES-3 with its three calls. -/
theorem test_open_address_fails :
    (after (exec .openSession (answering [true] [false]))).map
        (fun s => (s.hsState, s.sessionOpen, s.result, s.history.length)) =
      some (.busError, false, .busError, 3) := by decide

/-- V-SES-5: one `close`. -/
theorem test_close :
    (after (exec .closeSession
        { State.reset with hsState := .awaitingResponse, sessionOpen := true, txValid := true })).map
        (fun s => (s.hsState, s.sessionOpen, s.txValid, closeCount s.history, s.history.length)) =
      some (.idle, false, false, 1, 1) := by decide

/-- V-SES-6: none. -/
theorem test_close_closed :
    (after (exec .closeSession { State.reset with hsState := .busError })).map
        (fun s => (s.hsState, s.result, s.history.length)) =
      some (.idle, .ok, 0) := by decide

/-- V-CTL-1 and V-CTL-2. -/
theorem test_wrctrl :
    (after (exec (.wrctrl 0xFF#8) State.reset)).map State.ctrl = some 0x01#8 ∧
      (after (exec (.wrctrl 0xFE#8) { State.reset with ctrl := 0x01#8 })).map State.ctrl = some 0x00#8 := by decide

/-- V-ENC-3 as the wire-format row. -/
theorem test_frameCmd :
    answer (exec (.frameCmd [0x2C#8]) State.reset) =
      some
        (.ok, .bytes [0x00#8, 0x00#8, 0xFF#8, 0x02#8, 0xFE#8, 0xD4#8, 0x2C#8, 0x00#8, 0x00#8]) := by decide

/-- The lengths of what the device offers: a poll byte, then `8 + 2` and `6 + 2` transport bytes (30_encoding.md R101). -/
theorem test_device_lengths :
    (after (exec (.frameRsp []) State.reset)).map (fun s => (s.env.rx.length, s.freeCtr)) = some (2, 3) ∧
      (after (exec .frameAck State.reset)).map (fun s => (s.env.rx.length, s.freeCtr)) = some (2, 3) := by decide

theorem test_envelope :
    (after (exec (.envelope 0x01#8 [0x02#8] 0xAA#8) State.reset)).map (fun s => s.env.rx) =
      some [.bytes [0x01#8, 0x02#8, 0xAA#8]] := by decide

/-- 95_test_vectors.md section 2.8. -/
theorem test_status :
    State.reset.status = 0x00#8 ∧
      ({ State.reset with sessionOpen := true, txValid := true } : State).status = 0x18#8 ∧
      ({ State.reset with hsState := .done, sessionOpen := true, rspValid := true } : State).status = 0x2C#8 ∧
      ({ State.reset with hsState := .busError } : State).status = 0x06#8 ∧
      ({ State.reset with hsState := .timedOut, sessionOpen := true } : State).status = 0x0D#8 := by decide

/-- E3. -/
theorem test_firmware :
    decodeFirmware catalogParams
        [0x00#8, 0x00#8, 0xFF#8, 0x06#8, 0xFA#8, 0xD5#8, 0x03#8, 0x32#8, 0x01#8, 0x06#8, 0x07#8, 0xE8#8] =
      .ok 0x32010607 := by decide

/-- E4. -/
theorem test_target :
    decodeTarget catalogParams
        [0x00#8, 0x00#8, 0xFF#8, 0x0C#8, 0xF4#8, 0xD5#8, 0x4B#8, 0x01#8, 0x01#8, 0x00#8, 0x04#8, 0x08#8, 0x04#8, 0x11#8,
          0x22#8, 0x33#8, 0x44#8, 0x24#8, 0x00#8, 0x00#8] =
      .ok { uid := [0x11#8, 0x22#8, 0x33#8, 0x44#8], atqa := [0x00#8, 0x04#8], sak := 0x08#8 } := by decide

/-! ### Witnesses: for every statement with hypotheses, a state and operands that meet them together -/

/-- The 13-byte firmware response Frame, `fw` of 95_test_vectors.md section 2.3. -/
def fw : List Byte :=
  [0x00#8, 0x00#8, 0xFF#8, 0x06#8, 0xFA#8, 0xD5#8, 0x03#8, 0x32#8, 0x01#8, 0x06#8, 0x07#8, 0xE8#8, 0x00#8]

/-- An ACK offered at once. -/
def withAck : State := readyToSend [.bytes [0x01#8], .bytes ackRead]

/-- A NACK offered at once (V-HS-11). -/
def withNack : State :=
  readyToSend [.bytes [0x01#8], .bytes [0x01#8, 0x00#8, 0x00#8, 0xFF#8, 0xFF#8, 0x00#8, 0x00#8, 0x00#8]]

theorem withAck_write : withAck.writeAns (withAck.txBytes withAck.txLen) = true := rfl

theorem witness_DecodeOfEncode :
    WellFormed (.frameCmd (List.replicate 254 0x00#8)) ∧ WellFormed (.frameRsp (List.replicate 254 0x00#8)) ∧
      WellFormed (.envelope 0x01#8 (List.replicate 262 0x00#8) 0x00#8) ∧ WellFormed (.rdrsp 263 0#32) := by
  refine ⟨?_, ?_, ?_, rfl⟩ <;> rw [WellFormed, Instr.wellFormed, List.length_replicate] <;> decide

theorem witness_EncodeOfDecode : decode [6#8, 7#8] = .ok (.closeSession, [7#8]) := by decide

theorem witness_StepRunsDecodedInstruction :
    ({ State.reset with issue := [5#8, 6#8] } : State).resetIn = .none ∧
      decode ({ State.reset with issue := [5#8, 6#8] } : State).issue = .ok (.openSession, [6#8]) ∧
      ({ State.reset with issue := [11#8] } : State).issue ≠ [] ∧
      decode ({ State.reset with issue := [11#8] } : State).issue = .error (.unknownLead 11#8) ∧
      State.reset.resetIn = .none ∧ State.reset.issue = [] := by decide

theorem witness_ResetMakesNoTransportCall : (readyToSend []).resetIn = .none ∧
    ({ readyToSend [] with resetIn := .atBoundary } : State).resetIn = .atBoundary := by decide

/-- A reset before the one call of `CLOSE`, and one after it. -/
theorem witness_ResetAbandonsOperation :
    ∃ s t u u' : State, s.resetIn = .none ∧ step s = .next t ∧ t.history.length = 1 ∧
      step { s with resetIn := .during 0 } = .next u ∧ u.history.length = 0 ∧
      step { s with resetIn := .during 1 } = .next u' ∧ u'.history.length = 1 :=
  ⟨{ readyToSend [] with issue := [6#8] }, _, _, _, rfl, rfl, rfl, rfl, rfl, rfl, rfl⟩

theorem witness_EncodedFrameIsWellFormed :
    params.Valid ∧ (List.replicate 254 0x00#8 : List Byte).length ≤ params.maxPayload ∧
      encodeFrame params [0x02#8] = encodeFrame params [0x02#8] ∧ (0xD4 + byteSum [0x2C#8]) % 256 = 0 ∧
      (List.replicate 254 0x00#8 : List Byte).length = 254 ∧ (List.replicate 127 0xAA#8 : List Byte).length = 127 ∧
      (readyToSend []).txValid = true :=
  ⟨params_valid, by rw [List.length_replicate]; decide, rfl, by decide, List.length_replicate, List.length_replicate, rfl⟩

theorem witness_EncBuildsFrame : (List.replicate 254 0x00#8 : List Byte).length ≤ params.maxPayload := by
  rw [List.length_replicate]; decide

theorem witness_EncRefusesLongPayload : 254 < (List.replicate 255 0x00#8 : List Byte).length := by
  rw [List.length_replicate]; decide

theorem witness_FrameCmdIsBuiltByEnc : WellFormed (.frameCmd []) := rfl

/-- One clause each: V-DEC-5, V-DEC-7, V-DEC-9, and the check off. -/
theorem witness_DecStripsEnvelope :
    [0x09#8].length < 0 + 2 ∧
      (0 + 2 ≤ [0x01#8, 0x02#8].length ∧ checksumsOk (([0x01#8, 0x02#8].drop 1).take 0) = false) ∧
      (12 + 2 ≤ (0x01#8 :: fw).length ∧ checksumsOk (((0x01#8 :: fw).drop 1).take 12) = true) ∧
      (0 + 2 ≤ [0x01#8, 0x02#8].length ∧ (false = true → checksumsOk (([0x01#8, 0x02#8].drop 1).take 0) = true)) := by
  decide

theorem witness_EnvelopeRoundTrip :
    params.Valid ∧ wellFormedFrame params fw params.tfiD2H = true ∧ [0x15#8].length ≤ params.maxPayload :=
  ⟨params_valid, by decide, by decide⟩

/-- At both ends of the range: the `LCS` and the `DCS` (V-DEC-13, V-DEC-12). -/
theorem witness_CheckFindsOneWrongByte :
    wellFormedFrame params fw params.tfiD2H = true ∧ (4 ≤ 4 ∧ 4 ≤ 5 + byteNat fw 3 ∧ fw[4]? ≠ some 0xFB#8) ∧
      (4 ≤ 11 ∧ 11 ≤ 5 + byteNat fw 3 ∧ fw[11]? ≠ some 0xE9#8) := by decide

theorem witness_OpenBringsUpSession :
    (readyToSend []).sessionOpen = true ∧
      ((answering [false] []).sessionOpen = false ∧ (answering [false] []).openAns = false) ∧
      ((answering [true] [false]).sessionOpen = false ∧ (answering [true] [false]).openAns = true ∧
        ((answering [true] [false]).tOpen params).addrAns = false) ∧
      ((answering [true] [true]).sessionOpen = false ∧ (answering [true] [true]).openAns = true ∧
        ((answering [true] [true]).tOpen params).addrAns = true) := by decide

theorem witness_OnlyOpenReopens :
    State.reset.sessionOpen = false ∧ Instr.closeSession ≠ .openSession ∧
      ∃ t, exec .closeSession State.reset = .next t := ⟨rfl, by decide, _, rfl⟩

/-- V-SND-1 and V-SND-2. -/
theorem witness_SndackEntryChecks :
    State.reset.txValid = false ∧
      (({ State.reset with txValid := true } : State).txValid = true ∧
        ({ State.reset with txValid := true } : State).sessionOpen = false) := by decide

/-- V-SND-3. -/
theorem witness_SndackFailedWriteTearsDown :
    ∃ s : State, s.txValid = true ∧ s.sessionOpen = true ∧ s.writeAns (s.txBytes s.txLen) = false :=
  ⟨{ withAck with env := { withAck.env with writes := [false] } }, rfl, rfl, rfl⟩

/-- The budget used up exactly, by a poll and an empty read, with an ACK and with something else. -/
theorem witness_SndackCompletesOnAck :
    ∃ (s s' : State) (polls chunks chunks' : List (List Byte)),
      (s.txValid = true ∧ s.sessionOpen = true ∧ s.writeAns (s.txBytes s.txLen) = true ∧
        Offers params s.env polls [0x01#8] chunks [.err] ∧
        chunks.flatten = [0x01#8] ++ params.ackPattern ++ [0x80#8] ∧ params.ackPattern.length = 6 ∧
        polls.length + emptyCount chunks ≤ (2#32).toNat) ∧
      (s'.txValid = true ∧ s'.sessionOpen = true ∧ s'.writeAns (s'.txBytes s'.txLen) = true ∧
        Offers params s'.env [] [0x01#8] chunks' [] ∧
        chunks'.flatten = [0x01#8] ++ [0x00#8, 0x00#8, 0xFF#8, 0xFF#8, 0x00#8, 0x00#8] ++ [0x00#8] ∧
        [0x00#8, 0x00#8, 0xFF#8, 0xFF#8, 0x00#8, 0x00#8] ≠ params.ackPattern ∧
        0 + emptyCount chunks' ≤ (0#32).toNat) :=
  ⟨readyToSend
      [.bytes [0x00#8], .bytes [0x01#8], .bytes [0x01#8, 0x00#8, 0x00#8], .bytes [], .bytes [0xFF#8, 0x00#8, 0xFF#8],
        .bytes [0x00#8, 0x80#8], .err],
    withNack, [[0x00#8]], [[0x01#8, 0x00#8, 0x00#8], [], [0xFF#8, 0x00#8, 0xFF#8], [0x00#8, 0x80#8]],
    [[0x01#8, 0x00#8, 0x00#8, 0xFF#8, 0xFF#8, 0x00#8, 0x00#8, 0x00#8]],
    ⟨rfl, rfl, rfl, ⟨rfl, by decide, by decide, by decide, by intro c h; cases h; decide⟩, rfl, rfl, by decide⟩,
    ⟨rfl, rfl, rfl, ⟨rfl, by decide, by decide, by decide, by intro c h; cases h; decide⟩, rfl, by decide, by decide⟩⟩

/-- V-HS-1 and V-HS-2. -/
theorem witness_SndackTimesOutWhenNeverReady :
    ∃ (s s' : State) (polls polls' : List (List Byte)),
      (s.txValid = true ∧ s.sessionOpen = true ∧ s.writeAns (s.txBytes s.txLen) = true ∧
        s.env.rx = polls.map .bytes ++ [] ∧ NotReady params polls ∧ polls.length = (0#32).toNat + 1) ∧
      (s'.txValid = true ∧ s'.sessionOpen = true ∧ s'.writeAns (s'.txBytes s'.txLen) = true ∧
        s'.env.rx = polls'.map .bytes ++ [] ∧ NotReady params polls' ∧ polls'.length = (3#32).toNat + 1) :=
  ⟨readyToSend [.bytes [0x00#8]],
    readyToSend [.bytes [0x00#8], .bytes [0x00#8], .bytes [], .bytes [0x80#8]], [[0x00#8]],
    [[0x00#8], [0x00#8], [], [0x80#8]], ⟨rfl, rfl, rfl, rfl, by decide, rfl⟩, ⟨rfl, rfl, rfl, rfl, by decide, rfl⟩⟩

/-- A `SNDACK` that ends in `Ok` and one that ends in `AckMismatch`: the hypotheses of `SndackFrame`,
`SndackIgnoresCheckEnable`, `FrameGoodForOneWrite` and the first clause of `DiagnosticBytesAfterSndack`. -/
theorem witness_SndackFrame :
    ∃ t t', exec (.sndack 0#32) withAck = .next t ∧ withAck.txValid = true ∧ t.result = .ok ∧
      exec (.sndack 0#32) withNack = .next t' ∧ t'.result = .ackMismatch :=
  ⟨_, _, rfl, rfl, by decide, rfl, by decide⟩

theorem witness_SndackIgnoresCheckEnable : ∃ t, exec (.sndack 0#32) withNack = .next t := ⟨_, rfl⟩

theorem witness_SndackWritesFrameOnce :
    (∃ t, exec (.sndack 0#32) State.reset = .next t ∧ (State.reset.txValid = false ∨ State.reset.sessionOpen = false)) ∧
      ∃ t, exec (.sndack 0#32) withAck = .next t ∧ withAck.txValid = true ∧ withAck.sessionOpen = true :=
  ⟨⟨_, rfl, Or.inl rfl⟩, ⟨_, rfl, rfl, rfl⟩⟩

theorem witness_FrameGoodForOneWrite :
    (∃ t, withAck.txValid = true ∧ exec (.sndack 0#32) withAck = .next t) ∧
      ∃ t, exec (.enc []) State.reset = .next t ∧ State.reset.txValid = false ∧ t.txValid = true :=
  ⟨⟨_, rfl, rfl⟩, ⟨_, rfl, rfl, rfl⟩⟩

/-- V-RD-12 and V-RD-8. -/
theorem witness_RdrspRefusals :
    (State.reset.hsState ≠ .awaitingResponse ∨ 262 < 12) ∧ ((awaiting 0#8 []).hsState ≠ .awaitingResponse ∨ 262 < 263) := by
  decide

/-- `n = 0` and `n = 262`; the check failing and the check off. -/
theorem witness_RdrspCompletesOnResponse :
    ∃ (s s' : State) (chunks chunks' : List (List Byte)) (x : List Byte),
      (s.hsState = .awaitingResponse ∧ 0 ≤ 262 ∧ Offers params s.env [] [0x01#8] chunks [] ∧
        chunks.flatten = [0x01#8] ++ [] ++ [0x00#8] ∧ 0 + emptyCount chunks ≤ (0#32).toNat ∧
        s.ctrl.getLsbD 0 = true ∧ checksumsOk [] = false) ∧
      (s'.hsState = .awaitingResponse ∧ 262 ≤ 262 ∧ Offers params s'.env [[]] [0x01#8] chunks' [] ∧
        chunks'.flatten = [0x01#8] ++ x ++ [0x00#8] ∧ x.length = 262 ∧ 1 + emptyCount chunks' ≤ (1#32).toNat ∧
        s'.ctrl.getLsbD 0 = false) :=
  ⟨awaiting 0x01#8 [.bytes [0x01#8], .bytes [0x01#8, 0x00#8]],
    awaiting 0x00#8 [.bytes [], .bytes [0x01#8], .bytes (0x01#8 :: (List.replicate 262 0x55#8 ++ [0x00#8]))],
    [[0x01#8, 0x00#8]], [0x01#8 :: (List.replicate 262 0x55#8 ++ [0x00#8])], List.replicate 262 0x55#8,
    ⟨rfl, by decide, ⟨rfl, by decide, by decide, by decide, by intro c h; cases h; decide⟩, rfl, by decide, rfl, rfl⟩,
    ⟨rfl, by decide, ⟨rfl, by decide, by decide, by decide, by intro c h; cases h; exact List.cons_ne_nil _ _⟩, by rw [List.flatten_cons, List.flatten_nil, List.append_nil]; rfl,
      List.length_replicate, Nat.le_refl 1, rfl⟩⟩

theorem witness_RdrspOutcomes : (awaiting 0#8 []).hsState = .awaitingResponse ∧ 262 ≤ 262 := by decide

/-- V-RD-7: a response read that was not refused, nor ended in `Ok`, `TimedOut` or `BusError`. -/
theorem witness_RdrspFrame :
    ∃ t, exec (.rdrsp 0 5#32) (awaiting 0x01#8 [.bytes [0x01#8], .bytes [0x01#8, 0x00#8]]) = .next t ∧
      t.result ≠ .ok ∧ t.result ≠ .busError ∧ t.result ≠ .timedOut := ⟨_, rfl, by decide, by decide, by decide⟩

theorem witness_ResponseIsReadOnce :
    (∃ t, exec (.rdrsp 0 5#32) (awaiting 0x00#8 [.bytes [0x01#8], .bytes [0x01#8, 0x00#8]]) = .next t ∧
      t.result ≠ .refused) ∧
      ∃ t, exec (.sndack 0#32) withAck = .next t ∧ withAck.hsState ≠ .awaitingResponse ∧ t.hsState = .awaitingResponse :=
  ⟨⟨_, rfl, by decide⟩, ⟨_, rfl, by decide, by decide⟩⟩

theorem witness_CollectConcatenatesReads :
    ∃ t, params.Valid ∧ (awaiting 0#8 [.bytes [0x01#8], .bytes [], .bytes [0x02#8]]).elapsed ≤ 1 ∧
      collect params 2 1 (awaiting 0#8 [.bytes [0x01#8], .bytes [], .bytes [0x02#8]]) = .returned t :=
  ⟨_, params_valid, by decide, rfl⟩

/-- V-HS-1, and `RDRSP` with no budget. -/
theorem witness_TimedOutIsNeverEarly :
    (∃ t, exec (.sndack 0#32) (readyToSend [.bytes [0x00#8]]) = .next t ∧ t.result = .timedOut) ∧
      ∃ t, exec (.rdrsp 20 0#32) (awaiting 0#8 [.bytes [0x00#8]]) = .next t ∧ t.result = .timedOut :=
  ⟨⟨_, rfl, by decide⟩, ⟨_, rfl, by decide⟩⟩

theorem witness_HandshakeIsBounded :
    (∃ t, exec (.sndack 0#32) withAck = .next t) ∧ ∃ t, exec (.rdrsp 12 0#32) (awaiting 0#8 [.err]) = .next t :=
  ⟨⟨_, rfl⟩, ⟨_, rfl⟩⟩

theorem witness_ElapsedCountsSleeps :
    (withAck.txValid = true ∧ withAck.sessionOpen = true ∧ withAck.writeAns (withAck.txBytes withAck.txLen) = true ∧
      ∃ t, exec (.sndack 0#32) withAck = .next t) ∧
      ((awaiting 0#8 [.err]).hsState = .awaitingResponse ∧ 262 ≤ 262 ∧
        ∃ t, exec (.rdrsp 262 0#32) (awaiting 0#8 [.err]) = .next t) :=
  ⟨⟨rfl, rfl, rfl, _, rfl⟩, ⟨rfl, by decide, _, rfl⟩⟩

/-- V-HS-8 and V-HS-10 with a read that brings nothing, the budget used up exactly. -/
theorem witness_SndackReadErrorIsBusError :
    ∃ (s s' : State) (polls chunks : List (List Byte)),
      (s.txValid = true ∧ s.sessionOpen = true ∧ s.writeAns (s.txBytes s.txLen) = true ∧ NotReady params polls ∧
        s.env.rx = polls.map .bytes ++ .err :: [] ∧ polls.length ≤ (1#32).toNat) ∧
      (s'.txValid = true ∧ s'.sessionOpen = true ∧ s'.writeAns (s'.txBytes s'.txLen) = true ∧ NotReady params [] ∧
        s'.env.rx = [].map .bytes ++ .bytes [0x01#8] :: (chunks.map .bytes ++ .err :: []) ∧
        [0x01#8].length ≤ params.pollLen ∧ isReady params [0x01#8] = true ∧ chunks.flatten.length < 8 ∧
        0 + emptyCount chunks ≤ (1#32).toNat) :=
  ⟨readyToSend [.bytes [0x00#8], .err],
    readyToSend [.bytes [0x01#8], .bytes [0x01#8, 0x00#8, 0x00#8], .bytes [], .bytes [0xFF#8, 0x00#8, 0xFF#8, 0x00#8], .err],
    [[0x00#8]], [[0x01#8, 0x00#8, 0x00#8], [], [0xFF#8, 0x00#8, 0xFF#8, 0x00#8]],
    ⟨rfl, rfl, rfl, by decide, rfl, by decide⟩,
    ⟨rfl, rfl, rfl, by decide, rfl, by decide, by decide, by decide, by decide⟩⟩

/-- With an open session, and (V-SND-2) with a closed one. -/
theorem witness_BusErrorTearsDown :
    (∃ t, exec (.sndack 0#32) (readyToSend [.err]) = .next t ∧ t.result = .busError) ∧
      (∃ t, exec (.sndack 0#32) { State.reset with txValid := true } = .next t ∧ t.result = .busError) ∧
      ∃ t, exec (.rdrsp 0 0#32) (awaiting 0#8 [.err]) = .next t ∧ t.result = .busError :=
  ⟨⟨_, rfl, by decide⟩, ⟨_, rfl, by decide⟩, ⟨_, rfl, by decide⟩⟩

/-- Each cause of `Refused`. -/
theorem witness_RefusedHasNoEffect :
    operation (.sndack 0#32) = true ∧ (∃ t, exec (.sndack 0#32) State.reset = .next t) ∧
      RefusalCause params State.reset (.sndack 0#32) ∧ RefusalCause params State.reset (.rdrsp 0 0#32) ∧
      RefusalCause params (awaiting 0#8 []) (.rdrsp 263 0#32) ∧
      RefusalCause params State.reset (.enc (List.replicate 255 0x00#8)) ∧
      RefusalCause params (readyToSend []) .openSession :=
  ⟨rfl, ⟨_, rfl⟩, rfl, Or.inl (by decide), Or.inr (by decide),
    by rw [RefusalCause, List.length_replicate]; decide, rfl⟩

theorem witness_RegistersHaveTheirWriters :
    ∃ t, exec (.vack []) State.reset = .next t ∧ (∀ v, Instr.vack [] ≠ .wrctrl v) ∧ (∀ p, Instr.vack [] ≠ .enc p) ∧
      (∀ p, Instr.vack [] ≠ .frameCmd p) ∧ (∀ T, Instr.vack [] ≠ .sndack T) ∧ ∀ n T, Instr.vack [] ≠ .rdrsp n T :=
  ⟨_, rfl, nofun, nofun, nofun, nofun, nofun⟩

theorem witness_CodecLeavesExchangeAlone :
    (∃ t, exec (.enc []) (awaiting 0#8 []) = .next t) ∧ (∃ t, exec (.vack []) (awaiting 0#8 []) = .next t) ∧
      (∃ t, exec (.dec [] 0 true) (awaiting 0#8 []) = .next t) ∧ (∃ t, exec (.wrctrl 0#8) (awaiting 0#8 []) = .next t) ∧
      ∃ t, exec (.frameCmd []) (awaiting 0#8 []) = .next t := ⟨⟨_, rfl⟩, ⟨_, rfl⟩, ⟨_, rfl⟩, ⟨_, rfl⟩, ⟨_, rfl⟩⟩

theorem witness_DeviceAckIsAccepted :
    ∃ s s' : State, s.txValid = true ∧ s.sessionOpen = true ∧ s.env.rx = [] ∧ s.writeAns (s.txBytes s.txLen) = true ∧
      exec .frameAck s = .next s' := ⟨readyToSend [], _, rfl, rfl, rfl, rfl, rfl⟩

/-- `n = 0` with the check off, the whole frame with it on. -/
theorem witness_DeviceResponseIsReturned :
    WellFormed (.frameRsp [0x15#8]) ∧
      (∃ s s' : State, 0 ≤ [0x15#8].length + 8 ∧ s.hsState = .awaitingResponse ∧ s.env.rx = [] ∧
        s.ctrl.getLsbD 0 = false ∧ exec (.frameRsp [0x15#8]) s = .next s') ∧
      ∃ s s' : State, 9 ≤ [0x15#8].length + 8 ∧ s.hsState = .awaitingResponse ∧ s.env.rx = [] ∧
        s.ctrl.getLsbD 0 = true ∧ 9 = [0x15#8].length + 8 ∧ exec (.frameRsp [0x15#8]) s = .next s' :=
  ⟨rfl, ⟨awaiting 0x00#8 [], _, by decide, rfl, rfl, rfl, rfl⟩, ⟨awaiting 0x01#8 [], _, by decide, rfl, rfl, rfl, rfl, rfl⟩⟩

theorem witness_StepKeepsReadsInInterface :
    ∃ s s' : State, ReadsFit s.history ∧ s.history ≠ [] ∧ step s = .next s' :=
  ⟨{ State.reset with history := [.read 0 2 (.bytes [0x01#8])] }, _,
    by intro bus n bs h; simp only [List.mem_singleton, Event.read.injEq, ReadAns.bytes.injEq] at h
       obtain ⟨-, rfl, rfl⟩ := h; decide,
    by decide, rfl⟩

/-- A session, a Frame in `TXBUF` and a one-byte response in `RXBUF`, about to run `SNDACK`. -/
def bothValid : State :=
  { withAck with
    hsState := .done, rspValid := true, rspLen := 1, rxLen := 3
    rxBuf := Memory.writeSeq [] 0 [0x01#8, 0x15#8, 0x00#8], issue := [3#8, 0#8, 0#8, 0#8, 0#8] }

theorem bothValid_inv : Inv params bothValid := by
  have ht : Memory.Filled (Memory.writeSeq [] 0 frame02) 0 (0 + frame02.length) :=
    Memory.filled_writeSeq (by intro i _ h; omega)
  have hr : Memory.Filled (Memory.writeSeq [] 0 [0x01#8, 0x15#8, 0x00#8]) 0 (0 + 3) :=
    Memory.filled_writeSeq (by intro i _ h; omega)
  exact
    { resting := rfl
      busError_closed := nofun
      awaiting_open := nofun
      done_open := fun _ => rfl
      rsp_done := fun _ => rfl
      tx_frame := fun _ => ⟨by decide, by decide⟩
      tx_filled := fun _ => ht
      rx_filled := fun _ => hr
      rsp_length := fun _ => rfl
      tx_range := by decide
      rx_range := by decide
      rsp_range := by decide
      ctrl_reserved := rfl
      tx_wf := Memory.wf_writeSeq _ Memory.wf_empty _
      rx_wf := Memory.wf_writeSeq _ Memory.wf_empty _
      tx_within := Memory.within_writeSeq (Memory.within_empty _) (by decide)
      rx_within := Memory.within_writeSeq (Memory.within_empty _) (by decide)
      elapsed_range := by decide }

theorem witness_StepKeepsBlockInvariants :
    ∃ s s' : State, Inv params s ∧ s.txValid = true ∧ s.rspValid = true ∧ s.sessionOpen = true ∧ step s = .next s' :=
  ⟨_, _, bothValid_inv, rfl, rfl, rfl, rfl⟩

/-- Each clause, at its boundary. -/
theorem witness_HostReadsOfUnwrittenFault :
    State.reset.txValid = false ∧ (readyToSend []).txLen ≤ 9 ∧
      (State.reset.rspValid = false ∧ State.reset.hsState ≠ .done) ∧
      (({ State.reset with hsState := .done, rxLen := 8 } : State).rspValid = false ∧
        ({ State.reset with hsState := .done, rxLen := 8 } : State).rxLen ≤ 8) ∧
      (({ State.reset with hsState := .done, rspValid := true, rspLen := 6, rxLen := 8 } : State).rspValid = true ∧
        ({ State.reset with hsState := .done, rspValid := true, rspLen := 6, rxLen := 8 } : State).rspLen < 7) := by decide

theorem witness_DiagnosticBytesAfterSndack :
    (∃ t, exec (.sndack 0#32) withNack = .next t ∧ t.result = .ackMismatch) ∧
      (∃ t, exec (.sndack 0#32) (readyToSend [.bytes []]) = .next t ∧ t.result = .timedOut) ∧
      ∃ t, exec (.sndack 0#32) (readyToSend [.err]) = .next t ∧ t.result = .busError :=
  ⟨⟨_, rfl, by decide⟩, ⟨_, rfl, by decide⟩, ⟨_, rfl, by decide⟩⟩

theorem witness_FirmwareVersionIsBigEndian : [0x55#8].take 6 ≠ catalogParams.gfvSignature := by decide

/-- Offered an ACK, then the envelope of the inner bytes `x`. -/
def withResponse (x : List Byte) : State :=
  readyToSend [.bytes [0x01#8], .bytes ackRead, .bytes [0x01#8], .bytes (0x01#8 :: (x ++ [0x00#8]))]

/-- P1 of 95_test_vectors.md from its second step; a command without a response; a refused one. Then the four commands:
success, a catalog error over the same state, a block error, and the command without a response both ways. -/
theorem witness_CatalogCommandsLeaveState :
    (∃ t,
      commandWithResponse params [0x02#8] 100 12 100
          (readyToSend
            [.bytes [0x01#8], .bytes ackRead, .bytes [0x01#8], .bytes (0x01#8 :: fw)]) =
        (.ok (fw.take 12), t)) ∧
      (∃ t, sendCommand params [0x32#8, 0x05#8, 0xFF#8, 0x01#8, 0xFF#8] 10 withAck = (.ok (), t)) ∧
      (∃ t, commandWithResponse params [0x02#8] 0 12 0 withNack = (.error (.block .ackMismatch), t)) ∧
      (∃ t, getFirmwareVersion params catalogParams 1 1 (withResponse (fw.take 12)) = (.ok 0x32010607, t) ∧
        t.result = .ok) ∧
      (∃ t, configureSam params catalogParams 1 1 (withResponse (List.replicate 8 0x00#8)) = (.error .configRejected, t) ∧
        t.result = .ok) ∧
      (∃ t, readPassiveTarget params catalogParams 0x00#8 1 1 withNack = (.error (.block .ackMismatch), t) ∧
        t.result ≠ .ok) ∧
      (∃ t, setPassiveActivationRetries params catalogParams 0xFF#8 1 withAck = (.ok (), t) ∧ t.result = .ok) ∧
      ∃ t, setPassiveActivationRetries params catalogParams 0xFF#8 1 withNack = (.error (.block .ackMismatch), t) ∧
        t.result ≠ .ok :=
  ⟨⟨_, rfl⟩, ⟨_, rfl⟩, ⟨_, rfl⟩, ⟨_, rfl, by decide⟩, ⟨_, rfl, by decide⟩, ⟨_, rfl, by decide⟩, ⟨_, rfl, by decide⟩,
    ⟨_, rfl, by decide⟩⟩

/-- The shortest wait, for the longest response, and a longer one with a poll of each kind that is not ready. -/
theorem witness_RdrspTimesOutWhenNeverReady :
    ∃ (s s' : State) (polls polls' : List (List Byte)),
      (s.hsState = .awaitingResponse ∧ 262 ≤ 262 ∧ s.env.rx = polls.map .bytes ++ [] ∧ NotReady params polls ∧
        polls.length = (0#32).toNat + 1) ∧
      (s'.hsState = .awaitingResponse ∧ 0 ≤ 262 ∧ s'.env.rx = polls'.map .bytes ++ [] ∧ NotReady params polls' ∧
        polls'.length = (2#32).toNat + 1) :=
  ⟨awaiting 0#8 [.bytes [0x00#8]], awaiting 0#8 [.bytes [0x00#8], .bytes [], .bytes [0x80#8]], [[0x00#8]],
    [[0x00#8], [], [0x80#8]], ⟨rfl, by decide, rfl, by decide, rfl⟩, ⟨rfl, by decide, rfl, by decide, rfl⟩⟩

/-- A poll, and a data read one byte short of complete, the budget used up exactly. -/
theorem witness_RdrspReadErrorIsBusError :
    ∃ (s s' : State) (polls chunks : List (List Byte)),
      (s.hsState = .awaitingResponse ∧ 262 ≤ 262 ∧ NotReady params polls ∧
        s.env.rx = polls.map .bytes ++ .err :: [] ∧ polls.length ≤ (1#32).toNat) ∧
      (s'.hsState = .awaitingResponse ∧ 0 ≤ 262 ∧ NotReady params [] ∧
        s'.env.rx = [].map .bytes ++ .bytes [0x01#8] :: (chunks.map .bytes ++ .err :: []) ∧
        [0x01#8].length ≤ params.pollLen ∧ isReady params [0x01#8] = true ∧ chunks.flatten.length < 0 + 2 ∧
        0 + emptyCount chunks ≤ (1#32).toNat) :=
  ⟨awaiting 0#8 [.bytes [0x00#8], .err], awaiting 0#8 [.bytes [0x01#8], .bytes [], .bytes [0x01#8], .err], [[0x00#8]],
    [[], [0x01#8]], ⟨rfl, by decide, by decide, rfl, by decide⟩,
    ⟨rfl, by decide, by decide, rfl, by decide, by decide, by decide, by decide⟩⟩

/-- The last byte of the Frame, the one byte of the response; an `ENC`; an `RDRSP` that ends in `Ok` and one that does not. -/
theorem witness_HostReadsOfValidBytes :
    (∃ s : State, Inv params s ∧ s.txValid = true ∧ 8 < s.txLen ∧ s.rspValid = true ∧ 1 ≤ 1 ∧ 1 ≤ s.rspLen) ∧
      (∃ t, [0x02#8].length ≤ params.maxPayload ∧ exec (.enc [0x02#8]) State.reset = .next t ∧
        (encodeFrame params [0x02#8])[8]? = some 0x00#8) ∧
      (∃ t, exec (.rdrsp 0 5#32) (awaiting 0x00#8 [.bytes [0x01#8], .bytes [0x01#8, 0x00#8]]) = .next t ∧
        t.result = .ok) ∧
      ∃ t, exec (.rdrsp 0 5#32) (awaiting 0x01#8 [.bytes [0x01#8], .bytes [0x01#8, 0x00#8]]) = .next t ∧
        t.result = .checksumMismatch :=
  ⟨⟨_, bothValid_inv, rfl, by decide, rfl, by decide, by decide⟩, ⟨_, by decide, rfl, by decide⟩,
    ⟨_, rfl, by decide⟩, ⟨_, rfl, by decide⟩⟩

theorem witness_HostRegisterReads :
    (∃ s : State, Inv params s ∧ s.readReg .status ≠ 0) ∧ ∃ t, exec (.wrctrl 0xFF#8) State.reset = .next t :=
  ⟨⟨_, bothValid_inv, by decide⟩, ⟨_, rfl⟩⟩

end Sys2Proof.Tests
end

section
/-! PROOFS. What `SNDACK` and `RDRSP` leave of the state they began in, in one form for both: the facts about them that
the invariants, the writers of the registers and the host's reads turn on (41_handshake_ops.md R151, R158). -/

namespace Sys2Proof.Machine

/-- `s'` was reached inside a `SNDACK` or `RDRSP` of timeout `T` begun in `s`, which has stored the bytes `bs` in `RXBUF`
so far: what is as it was in `s`, and how far the rest can have moved. -/
structure UnderWay (T : Nat) (s s' : State) (bs : List Byte) : Prop where
  sessionOpen : s'.sessionOpen = s.sessionOpen
  txValid : s'.txValid = true → s.txValid = true
  rspValid : s'.rspValid = false
  txLen : s'.txLen = s.txLen
  rspLen : s'.rspLen = s.rspLen
  ctrl : s'.ctrl = s.ctrl
  txBuf : s'.txBuf = s.txBuf
  rxBuf : s'.rxBuf = s.rxBuf.writeSeq 0 bs
  rxLen : s'.rxLen = s.rxLen ∨ s'.rxLen = bs.length
  elapsed : s'.elapsed = s.elapsed ∨ s'.elapsed ≤ T + 1

/-- How an operation with a data read of `need` bytes leads from `s` to `t`: through the error entry, or, with all the
bytes there, through `verdict` (41_handshake_ops.md R158). `SNDACK` reads with the session open, `RDRSP` while awaiting the
response. -/
def Concludes (need T : Nat) (verdict : State → State) (s t : State) : Prop :=
  ∃ s' bs, UnderWay T s s' bs ∧ bs.length ≤ need ∧
    ((∃ e, t = s'.errorEntry params e) ∨
     ((s.sessionOpen = true ∨ s.hsState = .awaitingResponse) ∧ bs.length = need ∧ s'.rxLen = need ∧ t = verdict s'))

/-- A wait and data read begun in `r`, the state in which the operation begun in `s` starts to wait. -/
theorem UnderWay.of_moved {T : Nat} {s r s' : State} {evs : List Event} {bs : List Byte} (h : UnderWay T s r [])
    (hm : Moved params { r with elapsed := 0 } s' evs) (hb : s'.rxBuf = r.rxBuf.writeSeq 0 bs)
    (hl : s'.rxLen = s.rxLen ∨ s'.rxLen = bs.length) (he : s'.elapsed ≤ T + 1) : UnderWay T s s' bs := by
  have hst := hm.state
  have hr : r.rxBuf = s.rxBuf := h.rxBuf
  exact
    { sessionOpen := by rw [hst]; exact h.sessionOpen
      txValid := by rw [hst]; exact h.txValid
      rspValid := by rw [hst]; exact h.rspValid
      txLen := by rw [hst]; exact h.txLen
      rspLen := by rw [hst]; exact h.rspLen
      ctrl := by rw [hst]; exact h.ctrl
      txBuf := by rw [hst]; exact h.txBuf
      rxBuf := by rw [hb, hr]
      rxLen := hl
      elapsed := Or.inr he }

theorem underWay_frameWritten (T : Nat) (s : State) : UnderWay T s (frameWritten s) [] :=
  ⟨rfl, nofun, rfl, rfl, rfl, rfl, rfl, rfl, Or.inl rfl, Or.inl rfl⟩

/-- `SNDACK` refuses without a Frame; with one it concludes an eight-byte read, or takes its error before it. -/
theorem sndAckOp_concludes (T : Nat) (s : State) :
    sndAckOp params T s = s.finish .refused .noValue ∨
      Concludes 8 T (ackVerdict params) s (sndAckOp params T s) := by
  by_cases h1 : s.txValid = true
  · right
    by_cases h2 : s.sessionOpen = true
    · by_cases h3 : s.writeAns (s.txBytes s.txLen) = true
      · obtain ⟨s', w, c, hm, hb, hc, hl, -, -, -, hend⟩ := sndAckOp_cases (T := T) h1 h2 h3
        have hu := fun he => (underWay_frameWritten T s).of_moved hm hb hl (T := T) he
        rcases hend with ⟨-, he, ht⟩ | ⟨he, ht⟩ | ⟨he, hn, hlen, ht⟩
        · exact ⟨s', _, hu he, hc, Or.inl ⟨_, ht⟩⟩
        · exact ⟨s', _, hu (by omega), hc, Or.inl ⟨_, ht⟩⟩
        · exact ⟨s', _, hu (by omega), hc, Or.inr ⟨Or.inl h2, hlen, hn, ht⟩⟩
      · refine ⟨writeFrame params { s with rspValid := false }, [], ?_, Nat.zero_le _, Or.inl ⟨.busError, ?_⟩⟩
        · exact ⟨rfl, nofun, rfl, rfl, rfl, rfl, rfl, rfl, Or.inl rfl, Or.inl rfl⟩
        · rw [sndAckOp, if_neg (by simp [h1]), if_neg (by simp [h2]), if_pos (by simpa using h3)]
    · refine ⟨{ s with rspValid := false }, [], ?_, Nat.zero_le _, Or.inl ⟨.busError, ?_⟩⟩
      · exact ⟨rfl, id, rfl, rfl, rfl, rfl, rfl, rfl, Or.inl rfl, Or.inl rfl⟩
      · rw [sndAckOp, if_neg (by simp [h1]), if_pos (by simpa using h2)]
  · exact Or.inl (sndAckOp_refused (by simpa using h1))

/-- `RDRSP` refuses, or is accepted and concludes a read of `n + 2` bytes. -/
theorem rdRspOp_concludes (n T : Nat) (s : State) :
    rdRspOp params n T s = s.finish .refused .noValue ∨
      s.hsState = .awaitingResponse ∧ n ≤ 262 ∧
        Concludes (n + 2) T (responseVerdict params n) s (rdRspOp params n T s) := by
  by_cases h : s.hsState ≠ .awaitingResponse ∨ 262 < n
  · exact Or.inl (rdRspOp_refused h)
  · obtain ⟨h1, h2⟩ : s.hsState = .awaitingResponse ∧ n ≤ 262 := by simpa using h
    refine Or.inr ⟨h1, h2, ?_⟩
    obtain ⟨s', w, c, hm, hb, hc, hl, -, -, -, hend⟩ := rdRspOp_cases (T := T) h1 h2
    have h0 : UnderWay T s { s with rspValid := false } [] :=
      ⟨rfl, id, rfl, rfl, rfl, rfl, rfl, rfl, Or.inl rfl, Or.inl rfl⟩
    have hu := fun he => h0.of_moved hm hb hl (T := T) he
    rcases hend with ⟨-, he, ht⟩ | ⟨he, ht⟩ | ⟨he, hn, hlen, ht⟩
    · exact ⟨s', _, hu he, hc, Or.inl ⟨_, ht⟩⟩
    · exact ⟨s', _, hu (by omega), hc, Or.inl ⟨_, ht⟩⟩
    · exact ⟨s', _, hu (by omega), hc, Or.inr ⟨Or.inr h1, hlen, hn, ht⟩⟩

end Sys2Proof.Machine
end

section
/-! PROOFS. Who writes the registers (10_state.md R43), and the time an exchange has slept (R45). -/

namespace Sys2Proof.Machine

/-- `t` has the registers and buffers of `s`: all that a host reads beside `STATUS` and `RESULT` (10_state.md R43). -/
structure SameRegisters (s t : State) : Prop where
  ctrl : t.ctrl = s.ctrl
  txBuf : t.txBuf = s.txBuf
  txLen : t.txLen = s.txLen
  rxBuf : t.rxBuf = s.rxBuf
  rxLen : t.rxLen = s.rxLen
  rspLen : t.rspLen = s.rspLen
  elapsed : t.elapsed = s.elapsed

theorem sameRegisters_finish (r : ResultCode) (v : RetVal) (s : State) : SameRegisters s (s.finish r v) :=
  ⟨rfl, rfl, rfl, rfl, rfl, rfl, rfl⟩

/-- `DEC` only answers (40_codec_ops.md R135). -/
theorem decOp_eq_finish (P : Params) (bytes : List Byte) (n : Nat) (check : Bool) (s : State) :
    ∃ r v, decOp P bytes n check s = s.finish r v := by
  unfold decOp
  split <;> exact ⟨_, _, rfl⟩

theorem sameRegisters_decOp (P : Params) (bytes : List Byte) (n : Nat) (check : Bool) (s : State) :
    SameRegisters s (decOp P bytes n check s) := by
  obtain ⟨r, v, h⟩ := decOp_eq_finish P bytes n check s
  rw [h]
  exact sameRegisters_finish r v s

theorem sameRegisters_openOp (P : Params) (s : State) : SameRegisters s (openOp P s) := by
  unfold openOp
  split
  · exact sameRegisters_finish _ _ s
  · split
    · exact ⟨rfl, rfl, rfl, rfl, rfl, rfl, rfl⟩
    · split <;> exact ⟨rfl, rfl, rfl, rfl, rfl, rfl, rfl⟩

theorem sameRegisters_closeOp (P : Params) (s : State) : SameRegisters s (closeOp P s) := by
  constructor <;> simp [closeOp]

theorem sameRegisters_offer (items : List ReadAns) (s : State) : SameRegisters s (s.offer items) :=
  ⟨rfl, rfl, rfl, rfl, rfl, rfl, rfl⟩

theorem sameRegisters_deviceSends (P : Params) (f : List Byte) (s : State) : SameRegisters s (deviceSends P f s) :=
  ⟨rfl, rfl, rfl, rfl, rfl, rfl, rfl⟩

/-- `ENC` leaves the receive side and `CTRL` alone (40_codec_ops.md R131, R132). -/
theorem encOp_keeps (P : Params) (p : List Byte) (s : State) :
    (encOp P p s).ctrl = s.ctrl ∧ (encOp P p s).rxBuf = s.rxBuf ∧ (encOp P p s).rxLen = s.rxLen ∧
      (encOp P p s).rspLen = s.rspLen ∧ (encOp P p s).elapsed = s.elapsed := by
  unfold encOp
  split <;> exact ⟨rfl, rfl, rfl, rfl, rfl⟩

/-- `SNDACK` leaves `CTRL`, the Frame's bytes and `RSPLEN` alone, however it ends (41_handshake_ops.md R160). -/
theorem sndAckOp_keeps (T : Nat) (s : State) :
    (sndAckOp params T s).ctrl = s.ctrl ∧ (sndAckOp params T s).txBuf = s.txBuf ∧
      (sndAckOp params T s).txLen = s.txLen ∧ (sndAckOp params T s).rspLen = s.rspLen := by
  obtain ht | ⟨s', bs, hu, -, ⟨e, ht⟩ | ⟨-, -, -, ht⟩⟩ := sndAckOp_concludes T s <;> rw [ht]
  · exact ⟨rfl, rfl, rfl, rfl⟩
  · simp [hu.ctrl, hu.txBuf, hu.txLen, hu.rspLen]
  · rw [ackVerdict_eq]
    split <;> exact ⟨hu.ctrl, hu.txBuf, hu.txLen, hu.rspLen⟩

/-- `RDRSP` leaves `CTRL` and the Frame's bytes alone, however it ends (41_handshake_ops.md R164). -/
theorem rdRspOp_keeps (n T : Nat) (s : State) :
    (rdRspOp params n T s).ctrl = s.ctrl ∧ (rdRspOp params n T s).txBuf = s.txBuf ∧
      (rdRspOp params n T s).txLen = s.txLen := by
  obtain ht | ⟨-, -, s', bs, hu, -, ⟨e, ht⟩ | ⟨-, -, hn, ht⟩⟩ := rdRspOp_concludes n T s <;> rw [ht]
  · exact ⟨rfl, rfl, rfl⟩
  · simp [hu.ctrl, hu.txBuf, hu.txLen]
  · rw [responseVerdict_eq hn]
    split <;> exact ⟨hu.ctrl, hu.txBuf, hu.txLen⟩

/-- The statement of `Obligations.RegistersHaveTheirWriters` for one instruction and one pair of states. -/
def WrittenOnlyBy (i : Instr) (s t : State) : Prop :=
  ((∀ v, i ≠ .wrctrl v) → t.ctrl = s.ctrl) ∧
  ((∀ p, i ≠ .enc p) → (∀ p, i ≠ .frameCmd p) → t.txBuf = s.txBuf ∧ t.txLen = s.txLen) ∧
  ((∀ T, i ≠ .sndack T) → (∀ n T, i ≠ .rdrsp n T) →
    t.rxBuf = s.rxBuf ∧ t.rxLen = s.rxLen ∧ t.elapsed = s.elapsed) ∧
  ((∀ n T, i ≠ .rdrsp n T) → t.rspLen = s.rspLen)

theorem SameRegisters.writtenOnlyBy {s t : State} (h : SameRegisters s t) (i : Instr) : WrittenOnlyBy i s t :=
  ⟨fun _ => h.ctrl, fun _ _ => ⟨h.txBuf, h.txLen⟩, fun _ _ => ⟨h.rxBuf, h.rxLen, h.elapsed⟩, fun _ => h.rspLen⟩

/-- Settles O44: instruction by instruction; the five that write a register keep the others, the rest keep all. -/
theorem registersHaveTheirWriters : Obligations.RegistersHaveTheirWriters := by
  intro i s t h
  change WrittenOnlyBy i s t
  cases i with
  | enc p =>
    cases h
    obtain ⟨hc, hb, hl, hr, he⟩ := encOp_keeps params p s
    exact ⟨fun _ => hc, fun h _ => absurd rfl (h p), fun _ _ => ⟨hb, hl, he⟩, fun _ => hr⟩
  | frameCmd p =>
    cases h
    obtain ⟨hc, hb, hl, hr, he⟩ := encOp_keeps params p s
    exact ⟨fun _ => hc, fun _ h => absurd rfl (h p), fun _ _ => ⟨hb, hl, he⟩, fun _ => hr⟩
  | sndack T =>
    cases h
    obtain ⟨hc, hb, hl, hr⟩ := sndAckOp_keeps T.toNat s
    exact ⟨fun _ => hc, fun _ _ => ⟨hb, hl⟩, fun h _ => absurd rfl (h T), fun _ => hr⟩
  | rdrsp n T =>
    cases h
    obtain ⟨hc, hb, hl⟩ := rdRspOp_keeps n T.toNat s
    exact ⟨fun _ => hc, fun _ _ => ⟨hb, hl⟩, fun _ h => absurd rfl (h n T), fun h => absurd rfl (h n T)⟩
  | wrctrl v =>
    cases h
    exact ⟨fun h => absurd rfl (h v), fun _ _ => ⟨rfl, rfl⟩, fun _ _ => ⟨rfl, rfl, rfl⟩, fun _ => rfl⟩
  | vack b => cases h; exact (sameRegisters_finish _ _ s).writtenOnlyBy _
  | dec b n c => cases h; exact (sameRegisters_decOp params b n c s).writtenOnlyBy _
  | openSession => cases h; exact (sameRegisters_openOp params s).writtenOnlyBy _
  | closeSession => cases h; exact (sameRegisters_closeOp params s).writtenOnlyBy _
  | frameRsp p => cases h; exact (sameRegisters_deviceSends params _ s).writtenOnlyBy _
  | frameAck => cases h; exact (sameRegisters_deviceSends params _ s).writtenOnlyBy _
  | envelope st x pad => cases h; exact (sameRegisters_offer _ s).writtenOnlyBy _

/-! ### The time slept -/

/-- From the end `s'` of its wait to its own end `t` an operation sleeps no more. -/
def SleepsNoMore (s' t : State) : Prop :=
  t.elapsed = s'.elapsed ∧ ∃ evs, t.history = evs ++ s'.history ∧ sleptMs evs = 0

theorem sleepsNoMore_errorEntry (e : Raised) (s : State) : SleepsNoMore s (s.errorEntry params e) := by
  refine ⟨State.errorEntry_elapsed params e s, ?_⟩
  cases e with
  | timedOut => exact ⟨[], rfl, rfl⟩
  | busError =>
    cases ho : s.sessionOpen
    · exact ⟨[], by simp [State.errorEntry, State.tearDown, ho], rfl⟩
    · exact ⟨[.busClose params.busId], by simp [State.errorEntry, State.tearDown, ho], rfl⟩

theorem sleepsNoMore_ackVerdict (s : State) : SleepsNoMore s (ackVerdict params s) := by
  rw [ackVerdict_eq]
  split <;> exact ⟨rfl, [], rfl, rfl⟩

theorem sleepsNoMore_responseVerdict {n : Nat} {s : State} (h : s.rxLen = n + 2) :
    SleepsNoMore s (responseVerdict params n s) := by
  rw [responseVerdict_eq h]
  split <;> exact ⟨rfl, [], rfl, rfl⟩

/-- If the wait counted in `ELAPSED` what was slept in it, so does the operation it stands in, which made calls `pre` before
it without sleeping. -/
theorem SleepsNoMore.elapsed_eq {s s' t : State} {wait pre : List Event} (h : SleepsNoMore s' t)
    (he : s'.elapsed = sleptMs wait) (hh : s'.history = wait ++ (pre ++ s.history)) (hp : sleptMs pre = 0) :
    ∃ evs, t.history = evs ++ s.history ∧ t.elapsed = sleptMs evs := by
  obtain ⟨hte, post, htp, h0⟩ := h
  exact ⟨post ++ (wait ++ pre), by simp [htp, hh], by simp [hte, he, h0, hp]⟩

/-- Settles O40: the sleeps of the one wait are all the operation makes. -/
theorem elapsedCountsSleeps : Obligations.ElapsedCountsSleeps := by
  constructor
  · intro T s t h1 h2 h3 h
    cases h
    obtain ⟨s', w, c, hm, -, -, -, he, -, -, hend⟩ := sndAckOp_cases (T := T.toNat) h1 h2 h3
    have hs : SleepsNoMore s' (sndAckOp params T.toNat s) := by
      rcases hend with ⟨-, -, ht⟩ | ⟨-, ht⟩ | ⟨-, -, -, ht⟩ <;> rw [ht]
      · exact sleepsNoMore_errorEntry _ _
      · exact sleepsNoMore_errorEntry _ _
      · exact sleepsNoMore_ackVerdict _
    exact hs.elapsed_eq (pre := [.write params.busId (s.txBytes s.txLen) (s.writeAns (s.txBytes s.txLen))]) he
      hm.history rfl
  · intro n T s t h1 h2 h
    cases h
    obtain ⟨s', w, c, hm, -, -, -, he, -, -, hend⟩ := rdRspOp_cases (T := T.toNat) h1 h2
    have hs : SleepsNoMore s' (rdRspOp params n T.toNat s) := by
      rcases hend with ⟨-, -, ht⟩ | ⟨-, ht⟩ | ⟨-, hn, -, ht⟩ <;> rw [ht]
      · exact sleepsNoMore_errorEntry _ _
      · exact sleepsNoMore_errorEntry _ _
      · exact sleepsNoMore_responseVerdict hn
    exact hs.elapsed_eq (pre := []) he hm.history rfl

end Sys2Proof.Machine
end

section
/-! PROOFS. Every step keeps the invariants of 10_state.md R50: by the kinds of change a step can make to the block. -/

namespace Sys2Proof.Machine

/-- A built Frame has the form of 30_encoding.md R96 (40_codec_ops.md R131). -/
theorem wellFormedFrame_buildFrame {P : Params} (hP : P.Valid) (tfi : Byte) {p : List Byte}
    (h : p.length + P.lenBias ≤ 255) : wellFormedFrame P (buildFrame P tfi p) tfi = true := by
  obtain ⟨h0, h1, h2, h3, h4, h5⟩ := buildFrame_fields P tfi p
  have hlen : byteNat (buildFrame P tfi p) 3 = p.length + 1 := by
    rw [byteNat_eq_of_getElem? h3, lenByte_toNat h, hP.lenBias_one]
  have hlcs : (byteNat (buildFrame P tfi p) 3 + byteNat (buildFrame P tfi p) 4) % 256 = 0 := by
    rw [byteNat_eq_of_getElem? h3, byteNat_eq_of_getElem? h4]
    exact add_neg8_mod _
  have hsum : sum8 (sub (buildFrame P tfi p) 5 (p.length + 2)) = 0#8 := by
    rw [buildFrame_summed, sum8_eq_zero_iff]
    exact byteSum_dcs tfi p
  have hpost : (buildFrame P tfi p)[6 + (p.length + 1)]? = some P.postamble := (buildFrame_last P tfi p).2
  rw [hlen] at hlcs
  simp only [wellFormedFrame, hlen, h0, h1, h2, h5, hlcs, hsum, hpost]
  simp

/-! ### Operations that only answer, and acts of the environment -/

theorem Inv.finish {s : State} (h : Inv params s) (r : ResultCode) (v : RetVal) : Inv params (s.finish r v) :=
  { h with }

theorem Inv.offer {s : State} (h : Inv params s) (items : List ReadAns) : Inv params (s.offer items) :=
  { h with }

theorem Inv.deviceSends {s : State} (h : Inv params s) (f : List Byte) : Inv params (deviceSends params f s) :=
  { h with }

/-! ### Operations without a wait -/

/-- Dropping Frame and response while going to `Idle`, or to `BusError` with the session closed. -/
theorem Inv.dropped {s t : State} (h : Inv params s) (hr : SameRegisters s t) (htx : t.txValid = false)
    (hrsp : t.rspValid = false) (hh : t.hsState = .idle ∨ t.hsState = .busError ∧ t.sessionOpen = false) :
    Inv params t where
  resting := by rcases hh with hh | ⟨hh, -⟩ <;> rw [hh] <;> rfl
  busError_closed := by rcases hh with hh | ⟨-, ho⟩ <;> simp [*]
  awaiting_open := by rcases hh with hh | ⟨hh, -⟩ <;> simp [hh]
  done_open := by rcases hh with hh | ⟨hh, -⟩ <;> simp [hh]
  rsp_done := by simp [hrsp]
  tx_frame := by simp [htx]
  tx_filled := by simp [htx]
  rx_filled := by rcases hh with hh | ⟨hh, -⟩ <;> simp [hh]
  rsp_length := by simp [hrsp]
  tx_range := hr.txLen ▸ h.tx_range
  rx_range := hr.rxLen ▸ h.rx_range
  rsp_range := hr.rspLen ▸ h.rsp_range
  ctrl_reserved := hr.ctrl ▸ h.ctrl_reserved
  tx_wf := hr.txBuf ▸ h.tx_wf
  rx_wf := hr.rxBuf ▸ h.rx_wf
  tx_within := hr.txBuf ▸ h.tx_within
  rx_within := hr.rxBuf ▸ h.rx_within
  elapsed_range := hr.elapsed ▸ h.elapsed_range

/-- `OPEN` on a closed session drops Frame and response, and ends in `Idle` or, closed, in `BusError` (42_session_ops.md
R181). -/
theorem openOp_drops (P : Params) {s : State} (ho : s.sessionOpen = false) :
    (openOp P s).txValid = false ∧ (openOp P s).rspValid = false ∧
      ((openOp P s).hsState = .idle ∨ (openOp P s).hsState = .busError ∧ (openOp P s).sessionOpen = false) := by
  unfold openOp
  rw [if_neg (by simp [ho])]
  split
  · exact ⟨rfl, rfl, Or.inr ⟨rfl, ho⟩⟩
  · split
    · exact ⟨rfl, rfl, Or.inr ⟨rfl, ho⟩⟩
    · exact ⟨rfl, rfl, Or.inl rfl⟩

theorem Inv.openOp {s : State} (h : Inv params s) : Inv params (openOp params s) := by
  cases ho : s.sessionOpen with
  | true =>
    rw [Machine.openOp, if_pos ho]
    exact h.finish _ _
  | false =>
    obtain ⟨htx, hrsp, hh⟩ := openOp_drops params ho
    exact h.dropped (sameRegisters_openOp params s) htx hrsp hh

theorem Inv.closeOp {s : State} (h : Inv params s) : Inv params (closeOp params s) :=
  h.dropped (sameRegisters_closeOp params s) rfl rfl (Or.inl rfl)

theorem Inv.wrctrlOp {s : State} (h : Inv params s) (v : Byte) : Inv params (wrctrlOp v s) :=
  { h with
    ctrl_reserved := by
      change v &&& 0x01#8 &&& 0xFE#8 = 0#8
      rw [BitVec.and_assoc, show 0x01#8 &&& 0xFE#8 = 0#8 from rfl, BitVec.and_zero] }

theorem Inv.encOp {s : State} (h : Inv params s) (p : List Byte) : Inv params (encOp params p s) := by
  unfold Machine.encOp
  split
  · exact h.finish _ _
  · next hp =>
    have hp : p.length ≤ 254 := Nat.le_of_not_lt hp
    have hlen : (encodeFrame params p).length = p.length + 8 := encodeFrame_length params p
    have hmax : params.maxPayload = 254 := rfl
    have hb : params.lenBias = 1 := rfl
    exact
      { h with
        tx_frame := fun _ => by
          simp only [State.txBytes, State.finish_txBuf, State.finish_txLen, Memory.slice_writeSeq]
          exact ⟨by omega, wellFormedFrame_buildFrame params_valid _ (by omega)⟩
        tx_filled := fun _ => by
          have hf := Memory.filled_writeSeq (m := s.txBuf) (a := 0) (bs := encodeFrame params p)
            (by intro i _ hi; omega)
          simpa using hf
        tx_range := by simp only [State.finish_txLen]; omega
        tx_wf := Memory.wf_writeSeq _ h.tx_wf 0
        tx_within := Memory.within_writeSeq h.tx_within (by omega) }

/-! ### `SNDACK` and `RDRSP` -/

/-- What is known inside the operation: the invariants, but for the phase it is in. -/
theorem UnderWay.inv_idle {T : Nat} {s s' : State} {bs : List Byte} (hu : UnderWay T s s' bs) (h : Inv params s)
    (hT : T + 1 ≤ 2 ^ 32) (hbs : bs.length ≤ 264) : Inv params { s' with hsState := .idle } where
  resting := rfl
  busError_closed := nofun
  awaiting_open := nofun
  done_open := nofun
  rsp_done := by simp [hu.rspValid]
  tx_frame := fun hv => by
    simp only [State.txBytes, hu.txBuf, hu.txLen]
    exact h.tx_frame (hu.txValid hv)
  tx_filled := fun hv => by
    simp only [hu.txBuf, hu.txLen]
    exact h.tx_filled (hu.txValid hv)
  rx_filled := nofun
  rsp_length := by simp [hu.rspValid]
  tx_range := hu.txLen ▸ h.tx_range
  rx_range := by
    rcases hu.rxLen with hl | hl
    · exact hl ▸ h.rx_range
    · exact hl ▸ hbs
  rsp_range := hu.rspLen ▸ h.rsp_range
  ctrl_reserved := hu.ctrl ▸ h.ctrl_reserved
  tx_wf := hu.txBuf ▸ h.tx_wf
  rx_wf := hu.rxBuf ▸ Memory.wf_writeSeq _ h.rx_wf 0
  tx_within := hu.txBuf ▸ h.tx_within
  rx_within := hu.rxBuf ▸ Memory.within_writeSeq h.rx_within (by
    have hmax : params.maxRead + params.envPre + params.envPost = 264 := rfl
    omega)
  elapsed_range := by
    rcases hu.elapsed with he | he
    · exact he ▸ h.elapsed_range
    · exact Nat.le_trans he hT

/-- With all its bytes there, the data read has filled `RXBUF` up to `RXLEN`. -/
theorem UnderWay.rx_filled {T : Nat} {s s' : State} {bs : List Byte} (hu : UnderWay T s s' bs)
    (hn : s'.rxLen = bs.length) : s'.rxBuf.Filled 0 s'.rxLen := by
  have hf := Memory.filled_writeSeq (m := s.rxBuf) (a := 0) (bs := bs) (by intro i _ hi; omega)
  rwa [Nat.zero_add, ← hu.rxBuf, ← hn] at hf

section Verdicts

/-! How an operation leaves the state `s` in which it has waited (41_handshake_ops.md R158; R151, rows T6 to T9 and T12 to
T15). -/

variable {s : State} (h : Inv params { s with hsState := .idle })
include h

theorem Inv.responseVerdict {n : Nat} (hopen : s.sessionOpen = true) (hfill : s.rxBuf.Filled 0 s.rxLen) (hn : n ≤ 262)
    (hlen : s.rxLen = n + 2) : Inv params (responseVerdict params n s) := by
  rw [responseVerdict_eq hlen]
  split
  · exact
      { h with
        resting := rfl, busError_closed := nofun, awaiting_open := nofun
        done_open := fun _ => hopen, rx_filled := fun _ => hfill, rsp_done := fun _ => rfl }
  · exact
      { h with
        resting := rfl, busError_closed := nofun, awaiting_open := nofun
        done_open := fun _ => hopen, rx_filled := fun _ => hfill, rsp_done := fun _ => rfl
        rsp_length := fun _ => by
          have h1 : params.envPre = 1 := rfl
          have h2 : params.envPost = 1 := rfl
          simp only [hlen]
          omega
        rsp_range := hn }

variable (hrsp : s.rspValid = false)
include hrsp

theorem Inv.errorEntry (e : Raised) : Inv params (s.errorEntry params e) := by
  have h0 : Inv params { s with hsState := .idle, rxBuf := [] } :=
    { h with rx_filled := nofun, rx_wf := Memory.wf_empty, rx_within := Memory.within_empty _ }
  cases e with
  | timedOut =>
    exact
      { h0 with
        resting := rfl, busError_closed := nofun, awaiting_open := nofun, done_open := nofun, rx_filled := nofun
        rsp_done := by simp [State.errorEntry, hrsp] }
  | busError =>
    have hr : SameRegisters { s with hsState := .idle, rxBuf := [] } (s.errorEntry params .busError) := by
      constructor <;> simp
    exact h0.dropped hr rfl rfl (Or.inr ⟨rfl, rfl⟩)

theorem Inv.ackVerdict (hopen : s.sessionOpen = true) (hfill : s.rxBuf.Filled 0 s.rxLen) :
    Inv params (ackVerdict params s) := by
  rw [ackVerdict_eq]
  split
  · exact
      { h with
        resting := rfl, busError_closed := nofun, awaiting_open := fun _ => hopen, done_open := nofun
        rx_filled := nofun, rsp_done := by simp [hrsp] }
  · exact
      { h with
        resting := rfl, busError_closed := nofun, awaiting_open := nofun
        done_open := fun _ => hopen, rx_filled := fun _ => hfill, rsp_done := fun _ => rfl }

end Verdicts

/-- An operation that waits keeps the invariants if its verdict on a complete data read does. -/
theorem Inv.concludes {s t : State} {need T : Nat} {verdict : State → State} (h : Inv params s)
    (hc : Concludes need T verdict s t) (hT : T + 1 ≤ 2 ^ 32) (hneed : need ≤ 264)
    (hv : ∀ s', Inv params { s' with hsState := .idle } → s'.rspValid = false → s'.sessionOpen = true →
      s'.rxBuf.Filled 0 s'.rxLen → s'.rxLen = need → Inv params (verdict s')) :
    Inv params t := by
  obtain ⟨s', bs, hu, hbs, hend⟩ := hc
  have hi := hu.inv_idle h hT (by omega)
  rcases hend with ⟨e, rfl⟩ | ⟨ho, hlen, hn, rfl⟩
  · exact hi.errorEntry hu.rspValid e
  · have hopen : s.sessionOpen = true := ho.elim id h.awaiting_open
    exact hv s' hi hu.rspValid (hu.sessionOpen.trans hopen) (hu.rx_filled (hn.trans hlen.symm)) hn

theorem Inv.sndAckOp {s : State} (h : Inv params s) {T : Nat} (hT : T + 1 ≤ 2 ^ 32) :
    Inv params (sndAckOp params T s) := by
  obtain ht | hc := sndAckOp_concludes T s
  · exact ht ▸ h.finish _ _
  · exact h.concludes hc hT (by omega) fun s' hi hrsp hopen hfill _ => hi.ackVerdict hrsp hopen hfill

theorem Inv.rdRspOp {s : State} (h : Inv params s) {n T : Nat} (hT : T + 1 ≤ 2 ^ 32) :
    Inv params (rdRspOp params n T s) := by
  obtain ht | ⟨-, hn, hc⟩ := rdRspOp_concludes n T s
  · exact ht ▸ h.finish _ _
  · exact h.concludes hc hT (by omega) fun s' hi _ hopen hfill hlen => hi.responseVerdict hopen hfill hn hlen

/-! ### Every instruction, every step -/

theorem Inv.exec {s t : State} (h : Inv params s) {i : Instr} (hx : exec i s = .next t) : Inv params t := by
  cases i with
  | enc p => cases hx; exact h.encOp p
  | vack b => cases hx; exact h.finish _ _
  | dec b n c =>
    cases hx
    obtain ⟨r, v, hd⟩ := decOp_eq_finish params b n c s
    exact hd ▸ h.finish r v
  | sndack T => cases hx; exact h.sndAckOp T.isLt
  | rdrsp n T => cases hx; exact h.rdRspOp T.isLt
  | openSession => cases hx; exact h.openOp
  | closeSession => cases hx; exact h.closeOp
  | wrctrl v => cases hx; exact h.wrctrlOp v
  | frameCmd p => cases hx; exact h.encOp p
  | frameRsp p => cases hx; exact h.deviceSends _
  | frameAck => cases hx; exact h.deviceSends _
  | envelope st x pad => cases hx; exact h.offer _

theorem inv_reset : Inv params State.reset where
  resting := rfl
  busError_closed := nofun
  awaiting_open := nofun
  done_open := nofun
  rsp_done := nofun
  tx_frame := nofun
  tx_filled := nofun
  rx_filled := nofun
  rsp_length := nofun
  tx_range := Nat.zero_le _
  rx_range := Nat.zero_le _
  rsp_range := Nat.zero_le _
  ctrl_reserved := rfl
  tx_wf := Memory.wf_empty
  rx_wf := Memory.wf_empty
  tx_within := Memory.within_empty _
  rx_within := Memory.within_empty _
  elapsed_range := Nat.zero_le _

theorem inv_resetBlock (s : State) : Inv params s.resetBlock := { inv_reset with }

/-- A reset during an operation, wherever it arrives, leaves the block reset (93_implementation_defined.md U16). -/
theorem inv_abandon (calls : Nat) (s t : State) : Inv params (State.abandon calls s t) := by
  unfold State.abandon
  split
  · exact inv_resetBlock t
  · exact { inv_reset with }

theorem Inv.runIssued {s t : State} (h : Inv params s) (hr : runIssued s = .next t) : Inv params t := by
  unfold Machine.runIssued at hr
  split at hr
  · cases hr; exact h
  · split at hr
    · cases hr
    · next i rest _ => exact Inv.exec (s := { s with issue := rest }) { h with } hr

/-- Settles O50, by the reset input: without one the invariants are kept by every instruction, with one they are those of
the reset state. -/
theorem stepKeepsBlockInvariants : Obligations.StepKeepsBlockInvariants := by
  intro s t h hs
  unfold step at hs
  split at hs
  · exact h.runIssued hs
  · cases hs; exact inv_resetBlock s
  · split at hs
    · cases hs; exact inv_abandon _ _ _
    · cases hs
    · cases hs

end Sys2Proof.Machine
end

section
/-! PROOFS. What the host reads at an operation boundary (42_session_ops.md R186): the registers, and the buffer bytes that
the valid bits cover (10_state.md R31, R33 to R35). -/

namespace Sys2Proof.Machine

/-! ### `STATUS` -/

theorem HsState.code_lt (h : HsState) : h.code < 7 := by
  cases h <;> decide

/-- The four fields of 10_state.md R44 do not overlap, so their union is their sum. -/
theorem State.status_toNat (s : State) :
    s.status.toNat = s.hsState.code + 8 * s.sessionOpen.toNat + 16 * s.txValid.toNat + 32 * s.rspValid.toNat := by
  unfold State.status
  cases s.sessionOpen <;> cases s.txValid <;> cases s.rspValid <;> cases s.hsState <;> rfl

theorem State.status_bit {s : State} {k : Nat} {b : Bool} (h : s.status.toNat / 2 ^ k % 2 = b.toNat) :
    s.status.getLsbD k = b := by
  rw [BitVec.getLsbD, Nat.testBit_eq_decide_div_mod_eq, h]
  cases b <;> rfl

/-- Settles O52: the fields are the digits of the sum that `STATUS` is. -/
theorem statusShowsFourPieces : Obligations.StatusShowsFourPieces := by
  intro s
  have hs := s.status_toNat
  have hc := s.hsState.code_lt
  have ho := s.sessionOpen.toNat_le
  have ht := s.txValid.toNat_le
  have hr := s.rspValid.toNat_le
  exact ⟨by omega, State.status_bit (by omega), State.status_bit (by omega), State.status_bit (by omega),
    State.status_bit (by simp only [Bool.toNat_false]; omega), State.status_bit (by simp only [Bool.toNat_false]; omega)⟩

/-! ### The numbered registers -/

theorem State.readReg_ctrl (s : State) : s.readReg .ctrl = s.ctrl.toNat % 2 := by
  simp only [State.readReg, BitVec.toNat_and]
  exact Nat.and_one_is_mod _

theorem ResultCode.code_le (r : ResultCode) : r.code ≤ 6 := by
  cases r <;> decide

/-- With its reserved bits zero, `CTRL` reads as it stands (10_state.md R41). -/
theorem Inv.readReg_ctrl {s : State} (h : Inv params s) : s.readReg .ctrl = s.ctrl.toNat := by
  have e : s.ctrl &&& 0x01#8 = s.ctrl :=
    calc s.ctrl &&& 0x01#8 = (s.ctrl &&& 0x01#8) ||| (s.ctrl &&& 0xFE#8) := by rw [h.ctrl_reserved, BitVec.or_zero]
      _ = s.ctrl &&& 0xFF#8 := (BitVec.and_or_distrib_left).symm
      _ = s.ctrl := BitVec.and_allOnes
  rw [State.readReg, e]

/-- Settles O60: the registers' values from `STATUS` as a sum and `CTRL` as one bit, their widths from the invariants. -/
theorem hostRegisterReads : Obligations.HostRegisterReads := by
  refine ⟨fun s => ⟨s.readReg_ctrl, s.status_toNat, rfl, rfl, rfl, rfl, rfl⟩, rfl, rfl, rfl, ?_, ?_, ?_⟩
  · intro s h
    have hstatus : s.readReg .status < 64 := by
      have hs : s.readReg .status = _ := s.status_toNat
      have hc := s.hsState.code_lt
      have ho := s.sessionOpen.toNat_le
      have ht := s.txValid.toNat_le
      have hr := s.rspValid.toNat_le
      omega
    exact ⟨h.readReg_ctrl, hstatus, s.result.code_le, Nat.lt_of_le_of_lt h.elapsed_range (by decide),
      Nat.lt_of_le_of_lt h.tx_range (by decide), Nat.lt_of_le_of_lt h.rx_range (by decide),
      Nat.lt_of_le_of_lt h.rsp_range (by decide)⟩
  · intro r
    cases r <;> rfl
  · intro v s t h
    cases h
    refine ⟨?_, rfl⟩
    change ((v &&& 0x01#8) &&& 0x01#8).toNat = v.toNat % 2
    rw [BitVec.and_assoc, BitVec.and_self, BitVec.toNat_and]
    exact Nat.and_one_is_mod _

/-! ### Buffer bytes -/

theorem Memory.Filled.read {m : Memory} {n i : Nat} (h : m.Filled 0 n) (hi : i < n) : ∃ b, m.read i = some b :=
  Option.isSome_iff_exists.mp (h i (Nat.zero_le i) (by omega))

theorem Memory.slice_getElem?_of_read {m : Memory} {a n i : Nat} {b : Byte} (u : Nat → Byte)
    (h : m.read (a + i) = some b) (hi : i < n) : (m.slice u a n)[i]? = some b := by
  rw [Memory.slice_getElem?, if_pos hi, h]
  rfl

theorem State.readTx_of_read {s : State} {i : Nat} {b : Byte} (hv : s.txValid = true) (hi : i < s.txLen)
    (hmax : i < 262) (hr : s.txBuf.read i = some b) : s.readTx params i = .ok b := by
  have hin : ¬ params.maxPayload + 8 ≤ i := Nat.not_le.mpr hmax
  rw [State.readTx, if_neg hin, if_pos (by simp [hv, hi]), hr]

theorem State.readRx_of_read {s : State} {i : Nat} {b : Byte} (hc : s.rxReadable params i = true) (hmax : i < 264)
    (hr : s.rxBuf.read i = some b) : s.readRx params i = .ok b := by
  have hin : ¬ params.maxRead + params.envPre + params.envPost ≤ i := Nat.not_le.mpr hmax
  rw [State.readRx, if_neg hin, if_pos hc, hr]

/-- An unwritten `RXBUF` has no byte to read. -/
theorem State.readRx_of_empty {s : State} (h : s.rxBuf = []) (i : Nat) : ∃ f, s.readRx params i = .error f := by
  unfold State.readRx
  split
  · exact ⟨_, rfl⟩
  · split
    · rw [h]; exact ⟨_, rfl⟩
    · exact ⟨_, rfl⟩

/-- An inner byte of a response: `RSPVALID` covers `RXBUF[1]` to `RXBUF[RSPLEN]` (10_state.md R35). -/
theorem State.readRx_response {s : State} {i : Nat} (hv : s.rspValid = true) (hlen : s.rspLen ≤ 262)
    (hf : s.rxBuf.Filled 0 (s.rspLen + 2)) (hi : i < s.rspLen) :
    ∃ b, s.readRx params (i + 1) = .ok b ∧ (s.rxBytes 1 s.rspLen)[i]? = some b := by
  obtain ⟨b, hb⟩ := hf.read (i := i + 1) (by omega)
  have hc : s.rxReadable params (i + 1) = true := by
    have h1 : params.envPre = 1 := rfl
    simp only [State.rxReadable, hv, h1, if_true, Bool.and_eq_true, decide_eq_true_eq]
    omega
  exact ⟨b, State.readRx_of_read hc (by omega) hb, Memory.slice_getElem?_of_read _ (Nat.add_comm 1 i ▸ hb) hi⟩

/-- A diagnostic byte: `Done` without a response covers all `RXLEN` bytes (10_state.md R34; log entry 14). -/
theorem State.readRx_diagnostic {s : State} {i : Nat} (hv : s.rspValid = false) (hd : s.hsState = .done)
    (hlen : s.rxLen ≤ 264) (hf : s.rxBuf.Filled 0 s.rxLen) (hi : i < s.rxLen) :
    ∃ b, s.readRx params i = .ok b ∧ (s.rxBytes 0 s.rxLen)[i]? = some b := by
  obtain ⟨b, hb⟩ := hf.read hi
  have hc : s.rxReadable params i = true := by simp [State.rxReadable, hv, hd, hi]
  exact ⟨b, State.readRx_of_read hc (by omega) hb, Memory.slice_getElem?_of_read _ ((Nat.zero_add i).symm ▸ hb) hi⟩

/-- The error entry answers `TimedOut` or `BusError` (60_exceptions.md R221). -/
theorem State.errorEntry_result (e : Raised) (s : State) :
    (s.errorEntry params e).result = .timedOut ∨ (s.errorEntry params e).result = .busError := by
  cases e
  · exact Or.inl rfl
  · exact Or.inr rfl

/-- `t` is in `Done` with all of a data read's `need` bytes in `RXBUF`. -/
structure DataRead (need : Nat) (t : State) : Prop where
  done : t.hsState = .done
  rxLen : t.rxLen = need
  filled : t.rxBuf.Filled 0 need

theorem UnderWay.dataRead {T need : Nat} {s s' : State} {bs : List Byte} (hu : UnderWay T s s' bs)
    (hlen : bs.length = need) (hn : s'.rxLen = need) : DataRead need { s' with hsState := .done } :=
  ⟨rfl, hn, hn ▸ hu.rx_filled (hn.trans hlen.symm)⟩

theorem DataRead.readRx {need : Nat} {t : State} (h : DataRead need t) (hv : t.rspValid = false) (hmax : need ≤ 264)
    {i : Nat} (hi : i < need) : ∃ b, t.readRx params i = .ok b ∧ (t.rxBytes 0 need)[i]? = some b := by
  obtain ⟨hdone, rfl, hf⟩ := h
  exact State.readRx_diagnostic hv hdone hmax hf hi

/-- What each result of `SNDACK` says of `RXBUF`. -/
theorem sndAckOp_result (T : Nat) (s : State) :
    (sndAckOp params T s).result = .refused ∨ (sndAckOp params T s).result = .ok ∨
      (((sndAckOp params T s).result = .timedOut ∨ (sndAckOp params T s).result = .busError) ∧
        (sndAckOp params T s).rxBuf = []) ∨
      ((sndAckOp params T s).result = .ackMismatch ∧ (sndAckOp params T s).rspValid = false ∧
        DataRead 8 (sndAckOp params T s)) := by
  obtain ht | ⟨s', bs, hu, -, ⟨e, ht⟩ | ⟨-, hlen, hn, ht⟩⟩ := sndAckOp_concludes T s <;> rw [ht]
  · exact Or.inl rfl
  · exact Or.inr (Or.inr (Or.inl ⟨State.errorEntry_result e s', State.errorEntry_rxBuf params e s'⟩))
  · rw [ackVerdict_eq]
    split
    · exact Or.inr (Or.inl rfl)
    · obtain ⟨hd, hl, hf⟩ := hu.dataRead hlen hn
      exact Or.inr (Or.inr (Or.inr ⟨rfl, hu.rspValid, hd, hl, hf⟩))

/-- What each result of `RDRSP` says of the response. -/
theorem rdRspOp_result (n T : Nat) (s : State) :
    (rdRspOp params n T s).result = .refused ∨
      ((rdRspOp params n T s).result = .timedOut ∨ (rdRspOp params n T s).result = .busError) ∨
      (n ≤ 262 ∧ DataRead (n + 2) (rdRspOp params n T s) ∧
        ((rdRspOp params n T s).result = .checksumMismatch ∧ (rdRspOp params n T s).rspValid = false ∨
         (rdRspOp params n T s).result = .ok ∧ (rdRspOp params n T s).rspValid = true ∧
          (rdRspOp params n T s).rspLen = n ∧
          (rdRspOp params n T s).value = .bytes ((rdRspOp params n T s).rxBytes 1 n))) := by
  obtain ht | ⟨-, hmax, s', bs, hu, -, ⟨e, ht⟩ | ⟨-, hlen, hn, ht⟩⟩ := rdRspOp_concludes n T s <;> rw [ht]
  · exact Or.inl rfl
  · exact Or.inr (Or.inl (State.errorEntry_result e s'))
  · obtain ⟨hd, hl, hf⟩ := hu.dataRead hlen hn
    rw [responseVerdict_eq hn]
    split
    · exact Or.inr (Or.inr ⟨hmax, ⟨hd, hl, hf⟩, Or.inl ⟨rfl, hu.rspValid⟩⟩)
    · exact Or.inr (Or.inr ⟨hmax, ⟨hd, hl, hf⟩, Or.inr ⟨rfl, rfl, rfl, rfl⟩⟩)

/-- Settles O54, by how `SNDACK` ended: the error entry leaves `RXBUF` unwritten, a mismatch all eight bytes. -/
theorem diagnosticBytesAfterSndack : Obligations.DiagnosticBytesAfterSndack := by
  intro T s t h
  cases h
  obtain hr | hr | ⟨hr, hempty⟩ | ⟨hr, hv, hd⟩ := sndAckOp_result T.toNat s
  · simp [hr]
  · simp [hr]
  · exact ⟨fun h => by simp [h] at hr, fun _ => State.readRx_of_empty hempty⟩
  · exact ⟨fun _ i hi => hd.readRx hv (by omega) hi, fun h => by simp [hr] at h⟩

/-- Under the invariants `TXVALID` covers bytes that are there (10_state.md R31, R33). -/
theorem Inv.readTx {s : State} {i : Nat} (h : Inv params s) (hv : s.txValid = true) (hi : i < s.txLen) :
    ∃ b, s.readTx params i = .ok b ∧ (s.txBytes s.txLen)[i]? = some b := by
  obtain ⟨b, hb⟩ := (h.tx_filled hv).read hi
  have hmax : s.txLen ≤ 262 := h.tx_range
  exact ⟨b, State.readTx_of_read hv hi (by omega) hb, Memory.slice_getElem?_of_read _ ((Nat.zero_add i).symm ▸ hb) hi⟩

/-- Under the invariants `RSPVALID` covers bytes that are there (10_state.md R35). -/
theorem Inv.readRx {s : State} {i : Nat} (h : Inv params s) (hv : s.rspValid = true) (h1 : 1 ≤ i) (hi : i ≤ s.rspLen) :
    ∃ b, s.readRx params i = .ok b ∧ (s.rxBytes 1 s.rspLen)[i - 1]? = some b := by
  have hlen : s.rxLen = s.rspLen + 2 := (h.rsp_length hv).trans (by
    have hpre : params.envPre = 1 := rfl
    have hpost : params.envPost = 1 := rfl
    omega)
  have hr := State.readRx_response (i := i - 1) hv h.rsp_range (hlen ▸ h.rx_filled (h.rsp_done hv)) (by omega)
  rwa [Nat.sub_add_cancel h1] at hr

/-- After `ENC` the host reads the Frame back, whatever was there before (40_codec_ops.md R131). -/
theorem encOp_readTx {p : List Byte} {s : State} {i : Nat} {b : Byte} (hp : p.length ≤ 254)
    (hb : (encodeFrame params p)[i]? = some b) : (encOp params p s).readTx params i = .ok b := by
  have hi : i < (encodeFrame params p).length := (List.getElem?_eq_some_iff.mp hb).1
  have hlen : (encodeFrame params p).length = p.length + 8 := encodeFrame_length params p
  have hacc : ¬ params.maxPayload < p.length := Nat.not_lt.mpr hp
  have hr := Memory.read_writeSeq_inside (encodeFrame params p) s.txBuf 0 i hi
  rw [Nat.zero_add, hb] at hr
  rw [encOp, if_neg hacc]
  exact State.readTx_of_read rfl hi (by omega) hr

/-- After `RDRSP`'s `Ok` the host reads the bytes it returned, from `RXBUF[1]` on (10_state.md R35). -/
theorem DataRead.readRx_returned {n : Nat} {t : State} (h : DataRead (n + 2) t) (hv : t.rspValid = true)
    (hl : t.rspLen = n) (hmax : n ≤ 262) {i : Nat} {b : Byte} (hb : (t.rxBytes 1 n)[i]? = some b) :
    t.readRx params (i + 1) = .ok b := by
  subst hl
  have hi : i < t.rspLen := by simpa [State.rxBytes] using (List.getElem?_eq_some_iff.mp hb).1
  obtain ⟨b', hr, hb'⟩ := State.readRx_response hv hmax h.filled hi
  rw [hr, ← Option.some.inj (hb'.symm.trans hb)]

/-- Settles O59: under the invariants the covered bytes are written; `ENC` writes the Frame's; a complete data read has
written all its bytes. -/
theorem hostReadsOfValidBytes : Obligations.HostReadsOfValidBytes := by
  refine ⟨?_, ?_, ?_⟩
  · intro s i h
    exact ⟨h.readTx, h.readRx⟩
  · intro p s t hp h i b hb
    cases h
    exact encOp_readTx hp hb
  · intro n T s t h
    cases h
    obtain hr | hr | ⟨hmax, hd, ⟨hr, hv⟩ | ⟨hr, hv, hl, hx⟩⟩ := rdRspOp_result n T.toNat s
    · simp [hr]
    · rcases hr with hr | hr <;> simp [hr]
    · exact ⟨fun h => by simp [hr] at h, fun _ i hi => hd.readRx hv (by omega) hi⟩
    · exact ⟨fun _ => ⟨_, hx, Memory.slice_length _ _ _ _, fun i b hb => hd.readRx_returned hv hl hmax hb⟩,
        fun h => by simp [hr] at h⟩

end Sys2Proof.Machine
end

section
/-! PROOFS. What the operations add to the history of transport calls: only `SNDACK` writes a frame, once and first of all
(20_memory.md R67, R72, R75, R79), and every read yields at most the bytes asked (R64). -/

namespace Sys2Proof.Machine

/-! ### The reads recorded in a history -/

theorem readsFit_cons {e : Event} {es : List Event} (he : ∀ bus n bs, e ≠ .read bus n (.bytes bs)) (h : ReadsFit es) :
    ReadsFit (e :: es) := by
  intro bus n bs hm
  rcases List.mem_cons.mp hm with heq | hm
  · exact absurd heq.symm (he bus n bs)
  · exact h bus n bs hm

theorem ReadsFit.drop {es : List Event} (h : ReadsFit es) (k : Nat) : ReadsFit (es.drop k) :=
  fun bus n bs hm => h bus n bs (List.mem_of_mem_drop hm)

/-! ### Calls that write no frame -/

/-- The calls made from `s` to `t` come on top of those made before, and none of them writes a frame; their reads are
within the interface (20_memory.md R64). -/
def CallsWithoutWrite (s t : State) : Prop :=
  ∃ evs, t.history = evs ++ s.history ∧ writtenFrames evs = [] ∧ ReadsFit evs

theorem callsWithoutWrite_of_history_eq {s t : State} (h : t.history = s.history) : CallsWithoutWrite s t :=
  ⟨[], h, rfl, nofun⟩

theorem callsWithoutWrite_of_history_cons {s t : State} {e : Event} (h : t.history = e :: s.history)
    (hw : writtenFrames [e] = []) (hr : ∀ bus n bs, e ≠ .read bus n (.bytes bs)) : CallsWithoutWrite s t :=
  ⟨[e], h, hw, readsFit_cons hr nofun⟩

theorem CallsWithoutWrite.trans {s t u : State} (h : CallsWithoutWrite s t) (h' : CallsWithoutWrite t u) :
    CallsWithoutWrite s u := by
  obtain ⟨evs, hh, hw, hr⟩ := h
  obtain ⟨evs', hh', hw', hr'⟩ := h'
  exact ⟨evs' ++ evs, by simp [hh', hh], by simp [hw', hw], hr'.append hr⟩

/-- A wait and data read, begun in `r`, makes reads and sleeps only. -/
theorem Moved.callsWithoutWrite {P : Params} {r s' : State} {evs : List Event} (h : Moved P r s' evs) :
    CallsWithoutWrite r s' :=
  ⟨evs, h.history, h.noWrite, h.fits⟩

theorem CallsWithoutWrite.readsFit {s t : State} (h : CallsWithoutWrite s t) (hs : ReadsFit s.history) :
    ReadsFit t.history := by
  obtain ⟨evs, hh, -, hr⟩ := h
  exact hh ▸ hr.append hs

/-! ### Each operation -/

theorem callsWithoutWrite_tearDown (P : Params) (s : State) : CallsWithoutWrite s (s.tearDown P) := by
  unfold State.tearDown
  split
  · exact callsWithoutWrite_of_history_cons rfl rfl nofun
  · exact callsWithoutWrite_of_history_eq rfl

theorem callsWithoutWrite_errorEntry (P : Params) (e : Raised) (s : State) : CallsWithoutWrite s (s.errorEntry P e) := by
  cases e with
  | timedOut => exact callsWithoutWrite_of_history_eq rfl
  | busError => exact (callsWithoutWrite_tearDown P s).trans (callsWithoutWrite_of_history_eq rfl)

theorem callsWithoutWrite_ackVerdict (s : State) : CallsWithoutWrite s (ackVerdict params s) := by
  rw [ackVerdict_eq]
  split <;> exact callsWithoutWrite_of_history_eq rfl

theorem callsWithoutWrite_responseVerdict {n : Nat} {s : State} (h : s.rxLen = n + 2) :
    CallsWithoutWrite s (responseVerdict params n s) := by
  rw [responseVerdict_eq h]
  split <;> exact callsWithoutWrite_of_history_eq rfl

theorem callsWithoutWrite_encOp (P : Params) (p : List Byte) (s : State) : CallsWithoutWrite s (encOp P p s) := by
  unfold encOp
  split <;> exact callsWithoutWrite_of_history_eq rfl

theorem callsWithoutWrite_decOp (P : Params) (bytes : List Byte) (n : Nat) (check : Bool) (s : State) :
    CallsWithoutWrite s (decOp P bytes n check s) := by
  obtain ⟨r, v, h⟩ := decOp_eq_finish P bytes n check s
  exact callsWithoutWrite_of_history_eq (h ▸ rfl)

theorem callsWithoutWrite_tOpen (P : Params) (s : State) : CallsWithoutWrite s (s.tOpen P) :=
  callsWithoutWrite_of_history_cons (State.tOpen_history P s) rfl nofun

theorem callsWithoutWrite_tSetAddr (P : Params) (s : State) : CallsWithoutWrite s (s.tSetAddr P) :=
  callsWithoutWrite_of_history_cons (State.tSetAddr_history P s) rfl nofun

theorem callsWithoutWrite_openOp (P : Params) (s : State) : CallsWithoutWrite s (openOp P s) := by
  have hopen := callsWithoutWrite_tOpen P s
  have haddr := hopen.trans (callsWithoutWrite_tSetAddr P (s.tOpen P))
  unfold openOp
  split
  · exact callsWithoutWrite_of_history_eq rfl
  · split
    · exact hopen.trans (callsWithoutWrite_of_history_eq rfl)
    · split
      · exact haddr.trans (callsWithoutWrite_of_history_cons (e := .busClose P.busId) rfl rfl nofun)
      · exact haddr.trans (callsWithoutWrite_of_history_eq rfl)

theorem callsWithoutWrite_closeOp (P : Params) (s : State) : CallsWithoutWrite s (closeOp P s) :=
  (callsWithoutWrite_tearDown P s).trans (callsWithoutWrite_of_history_eq rfl)

theorem callsWithoutWrite_rdRspOp (n T : Nat) (s : State) : CallsWithoutWrite s (rdRspOp params n T s) := by
  by_cases h : s.hsState ≠ .awaitingResponse ∨ 262 < n
  · exact callsWithoutWrite_of_history_eq (by rw [rdRspOp_refused h])
  · obtain ⟨h1, h2⟩ : s.hsState = .awaitingResponse ∧ n ≤ 262 := by simpa using h
    obtain ⟨s', w, c, hm, -, -, -, -, -, -, hend⟩ := rdRspOp_cases (T := T) h1 h2
    have hwait : CallsWithoutWrite s s' := hm.callsWithoutWrite
    rcases hend with ⟨-, -, ht⟩ | ⟨-, ht⟩ | ⟨-, hn, -, ht⟩ <;> rw [ht]
    · exact hwait.trans (callsWithoutWrite_errorEntry _ _ _)
    · exact hwait.trans (callsWithoutWrite_errorEntry _ _ _)
    · exact hwait.trans (callsWithoutWrite_responseVerdict hn)

/-! ### `SNDACK` -/

/-- Refused or with the session closed, `SNDACK` makes no call (41_handshake_ops.md R161). -/
theorem sndAckOp_history_of_refused_or_closed {T : Nat} {s : State} (h : s.txValid = false ∨ s.sessionOpen = false) :
    (sndAckOp params T s).history = s.history := by
  cases hv : s.txValid with
  | false => rw [sndAckOp_refused hv]
  | true => rw [sndAckOp_closed hv (h.resolve_left (by simp [hv]))]

/-- Whatever the write's answer, `SNDACK` writes no frame after it. -/
theorem callsWithoutWrite_sndAckOp {T : Nat} {s : State} (h1 : s.txValid = true) (h2 : s.sessionOpen = true) :
    CallsWithoutWrite (frameWritten s) (sndAckOp params T s) := by
  cases h3 : s.writeAns (s.txBytes s.txLen) with
  | false =>
    rw [sndAckOp_writeFailed h1 h2 h3]
    exact callsWithoutWrite_of_history_cons (e := .busClose params.busId) (by simp [frameWritten, h3]) rfl nofun
  | true =>
    obtain ⟨s', w, c, hm, -, -, -, -, -, -, hend⟩ := sndAckOp_cases (T := T) h1 h2 h3
    have hwait : CallsWithoutWrite (frameWritten s) s' := hm.callsWithoutWrite
    rcases hend with ⟨-, -, ht⟩ | ⟨-, ht⟩ | ⟨-, -, -, ht⟩ <;> rw [ht]
    · exact hwait.trans (callsWithoutWrite_errorEntry _ _ _)
    · exact hwait.trans (callsWithoutWrite_errorEntry _ _ _)
    · exact hwait.trans (callsWithoutWrite_ackVerdict _)

/-- Settles O30: the write is the one call between `s` and `frameWritten s`, and what follows writes nothing. -/
theorem sndackWritesFrameOnce : Obligations.SndackWritesFrameOnce := by
  intro T s t h
  cases h
  refine ⟨sndAckOp_history_of_refused_or_closed, fun h1 h2 => ?_⟩
  obtain ⟨evs, hh, hw, -⟩ := callsWithoutWrite_sndAckOp (T := T.toNat) h1 h2
  exact ⟨evs, hh, hw⟩

/-! ### Every instruction, every step -/

theorem ReadsFit.sndAckOp {s : State} (h : ReadsFit s.history) (T : Nat) :
    ReadsFit (sndAckOp params T s).history := by
  by_cases hg : s.txValid = false ∨ s.sessionOpen = false
  · exact (sndAckOp_history_of_refused_or_closed hg).symm ▸ h
  · obtain ⟨h1, h2⟩ : s.txValid = true ∧ s.sessionOpen = true := by simpa using hg
    have hw : ReadsFit (frameWritten s).history := readsFit_cons nofun h
    exact (callsWithoutWrite_sndAckOp h1 h2).readsFit hw

theorem ReadsFit.exec {s t : State} (h : ReadsFit s.history) {i : Instr} (hx : exec i s = .next t) :
    ReadsFit t.history := by
  cases i with
  | enc p => cases hx; exact (callsWithoutWrite_encOp params p s).readsFit h
  | vack b => cases hx; exact h
  | dec b n c => cases hx; exact (callsWithoutWrite_decOp params b n c s).readsFit h
  | sndack T => cases hx; exact h.sndAckOp T.toNat
  | rdrsp n T => cases hx; exact (callsWithoutWrite_rdRspOp n T.toNat s).readsFit h
  | openSession => cases hx; exact (callsWithoutWrite_openOp params s).readsFit h
  | closeSession => cases hx; exact (callsWithoutWrite_closeOp params s).readsFit h
  | wrctrl v => cases hx; exact h
  | frameCmd p => cases hx; exact (callsWithoutWrite_encOp params p s).readsFit h
  | frameRsp p => cases hx; exact h
  | frameAck => cases hx; exact h
  | envelope st x pad => cases hx; exact h

theorem ReadsFit.runIssued {s t : State} (h : ReadsFit s.history) (hr : runIssued s = .next t) :
    ReadsFit t.history := by
  unfold Machine.runIssued at hr
  split at hr
  · cases hr; exact h
  · split at hr
    · cases hr
    · next i rest _ => exact ReadsFit.exec (s := { s with issue := rest }) h hr

/-- An abandoned operation leaves the calls already made in the history (93_implementation_defined.md U16). -/
theorem ReadsFit.abandon {t : State} (h : ReadsFit t.history) (calls : Nat) (s : State) :
    ReadsFit (State.abandon calls s t).history := by
  unfold State.abandon
  split
  · exact h
  · exact h.drop _

/-- Settles O49, by the reset input: an instruction adds reads that fit, and a reset adds none. -/
theorem stepKeepsReadsInInterface : Obligations.StepKeepsReadsInInterface := by
  intro s t h hs
  unfold step at hs
  split at hs
  · exact h.runIssued hs
  · cases hs; exact h
  · next calls _ =>
    split at hs
    · next u hu =>
      cases hs
      have hr : ReadsFit u.history := ReadsFit.runIssued (s := { s with resetIn := .none }) h hu
      exact hr.abandon calls s
    · cases hs
    · cases hs

end Sys2Proof.Machine
end

section
/-! PROOFS. The bytes at the issue port against the instructions they carry, in both directions (30_encoding.md R107, R108;
log entry 9). -/

namespace Sys2Proof

open Machine

/-- Settles O1: the family `RoundTrip`, constructor by constructor. -/
theorem decodeOfEncode : Obligations.DecodeOfEncode := by
  intro i rest hw
  cases i with
  | enc payload => exact Laws.RoundTrip.enc payload hw rest
  | vack bytes => exact Laws.RoundTrip.vack bytes hw rest
  | dec bytes n check => exact Laws.RoundTrip.dec bytes n check hw rest
  | sndack T => exact Laws.RoundTrip.sndack T hw rest
  | rdrsp n T => exact Laws.RoundTrip.rdrsp n T hw rest
  | openSession => exact Laws.RoundTrip.openSession hw rest
  | closeSession => exact Laws.RoundTrip.closeSession hw rest
  | wrctrl v => exact Laws.RoundTrip.wrctrl v hw rest
  | frameCmd payload => exact Laws.RoundTrip.frameCmd payload hw rest
  | frameRsp payload => exact Laws.RoundTrip.frameRsp payload hw rest
  | frameAck => exact Laws.RoundTrip.frameAck hw rest
  | envelope status inner pad => exact Laws.RoundTrip.envelope status inner pad hw rest

/-- `bs` spells the well-formed instruction `i`, and `rest` follows it. -/
def Spells (bs : List Byte) (i : Instr) (rest : List Byte) : Prop := WellFormed i ∧ encode i ++ rest = bs

/-- A Frame stands behind lead byte 08. -/
theorem spells_of_decodeFrame {bs rest : List Byte} {i : Instr} (h : decodeFrame params bs = .ok (i, rest)) :
    Spells (8#8 :: bs) i rest := by
  obtain ⟨p, rfl, hmax, -, hb⟩ | ⟨p, rfl, hlen, hb⟩ := decodeFrame_eq h
  · exact ⟨decide_eq_true hmax, congrArg (8#8 :: ·) hb⟩
  · exact ⟨decide_eq_true hlen, congrArg (8#8 :: ·) hb⟩

/-- An ACK frame stands behind lead byte 09. -/
theorem spells_of_decodeAck {bs rest : List Byte} {i : Instr} (h : decodeAck params bs = .ok (i, rest)) :
    Spells (9#8 :: bs) i rest := by
  obtain ⟨rfl, hb⟩ := decodeAck_eq params_valid.ack_length h
  exact ⟨rfl, congrArg (9#8 :: ·) hb⟩

/-- An envelope stands behind lead byte 0A. -/
theorem spells_of_decodeEnvelopeItem {bs rest : List Byte} {i : Instr}
    (h : decodeEnvelopeItem params bs = .ok (i, rest)) : Spells (10#8 :: bs) i rest := by
  obtain ⟨status, inner, pad, rfl, hmax, hb⟩ := decodeEnvelopeItem_eq h
  exact ⟨decide_eq_true hmax, congrArg (10#8 :: ·) hb⟩

/-- Lead byte by lead byte, each operand's decoder reads nothing but what its encoder writes. -/
theorem spells_of_decodeBody {lead : Byte} {bs rest : List Byte} {i : Instr} (h : decodeBody lead bs = .ok (i, rest)) :
    Spells (lead :: bs) i rest := by
  unfold decodeBody at h
  split at h
  next hl =>
    obtain rfl : lead = 0#8 := BitVec.eq_of_toNat_eq hl
    split at h
    · cases h
    · next hx => cases h; exact ⟨rfl, congrArg (0#8 :: ·) (decodeSeq_eq hx)⟩
  next hl =>
    obtain rfl : lead = 1#8 := BitVec.eq_of_toNat_eq hl
    split at h
    · cases h
    · next hx => cases h; exact ⟨rfl, congrArg (1#8 :: ·) (decodeSeq_eq hx)⟩
  next hl =>
    obtain rfl : lead = 2#8 := BitVec.eq_of_toNat_eq hl
    split at h
    · cases h
    · next hx =>
      split at h
      · cases h
      · next hn =>
        split at h
        · cases h
        · next hc =>
          cases h
          refine ⟨rfl, ?_⟩
          simp [encode, decodeCheck_eq hc, decodeNat_eq hn, decodeSeq_eq hx]
  next hl =>
    obtain rfl : lead = 3#8 := BitVec.eq_of_toNat_eq hl
    split at h
    · cases h
    · next ht => cases h; exact ⟨rfl, congrArg (3#8 :: ·) (decodeU32_eq ht)⟩
  next hl =>
    obtain rfl : lead = 4#8 := BitVec.eq_of_toNat_eq hl
    split at h
    · cases h
    · next hn =>
      split at h
      · cases h
      · next ht =>
        cases h
        refine ⟨rfl, ?_⟩
        simp [encode, decodeU32_eq ht, decodeNat_eq hn]
  next hl =>
    obtain rfl : lead = 5#8 := BitVec.eq_of_toNat_eq hl
    cases h; exact ⟨rfl, rfl⟩
  next hl =>
    obtain rfl : lead = 6#8 := BitVec.eq_of_toNat_eq hl
    cases h; exact ⟨rfl, rfl⟩
  next hl =>
    obtain rfl : lead = 7#8 := BitVec.eq_of_toNat_eq hl
    split at h
    · cases h
    · cases h; exact ⟨rfl, rfl⟩
  next hl =>
    obtain rfl : lead = 8#8 := BitVec.eq_of_toNat_eq hl
    exact spells_of_decodeFrame h
  next hl =>
    obtain rfl : lead = 9#8 := BitVec.eq_of_toNat_eq hl
    exact spells_of_decodeAck h
  next hl =>
    obtain rfl : lead = 10#8 := BitVec.eq_of_toNat_eq hl
    exact spells_of_decodeEnvelopeItem h
  · cases h

/-- Settles O2: what is not empty has a lead byte, and the rest is read by `decodeBody`. -/
theorem encodeOfDecode : Obligations.EncodeOfDecode := by
  intro bs i rest h
  cases bs with
  | nil => cases h
  | cons lead bs => exact spells_of_decodeBody h

/-- Settles O3: the words are closed and short, so the decoder is run on each. -/
theorem specWordsDecode : Obligations.SpecWordsDecode := by
  unfold Obligations.SpecWordsDecode
  decide

end Sys2Proof
end

section
/-! PROOFS. Checksum validation of a Frame with one byte changed (30_encoding.md R94, R95; 40_codec_ops.md R137). -/

namespace Sys2Proof.Machine

/-- A well-formed Frame passes checksum validation (30_encoding.md R96 (c), (d), (f); 40_codec_ops.md R137). -/
theorem checksumsOk_of_wellFormedFrame {P : Params} {f : List Byte} {d : Byte} (h : wellFormedFrame P f d = true) :
    checksumsOk f = true := by
  simp only [wellFormedFrame, Bool.and_eq_true, decide_eq_true_eq, beq_iff_eq, sum8_eq_zero_iff] at h
  obtain ⟨⟨⟨⟨⟨⟨hmin, -⟩, hlen1, hlen⟩, hlcs⟩, -⟩, hdcs⟩, -⟩ := h
  exact (checksumsOk_iff f).mpr ⟨by omega, hlen1, hlcs, by omega, hdcs⟩

/-! ### One byte set -/

theorem byteSum_set {bs : List Byte} {i : Nat} {a : Byte} (b : Byte) (h : bs[i]? = some a) :
    byteSum (bs.set i b) + a.toNat = byteSum bs + b.toNat := by
  induction bs generalizing i with
  | nil => simp at h
  | cons x bs ih =>
    cases i with
    | zero =>
      obtain rfl : x = a := by simpa using h
      simp only [List.set_cons_zero, byteSum]
      omega
    | succ i =>
      have := ih (by simpa using h)
      simp only [List.set_cons_succ, byteSum]
      omega

theorem byteNat_set_of_ne (bs : List Byte) {i j : Nat} (b : Byte) (h : i ≠ j) : byteNat (bs.set i b) j = byteNat bs j := by
  simp only [byteNat, List.getElem?_set_ne h]

theorem sub_set_of_le (bs : List Byte) {i j : Nat} (n : Nat) (b : Byte) (h : j ≤ i) :
    sub (bs.set i b) j n = (sub bs j n).set (i - j) b := by
  simp only [sub, List.drop_set, if_neg (Nat.not_lt.mpr h), List.take_set]

theorem sub_getElem? {bs : List Byte} {i j n : Nat} (h1 : j ≤ i) (h2 : i < j + n) : (sub bs j n)[i - j]? = bs[i]? := by
  rw [sub, List.getElem?_take, if_pos (by omega), List.getElem?_drop, Nat.add_sub_cancel' h1]

theorem eq_of_add_mod_eq_zero {n : Nat} {a b : Byte} (ha : (n + a.toNat) % 256 = 0) (hb : (n + b.toNat) % 256 = 0) :
    a = b := by
  have := a.isLt
  have := b.isLt
  exact BitVec.eq_of_toNat_eq (by omega)

/-- No byte from `LCS` to `DCS` can be set to another value with both sums still 0 mod 256: the byte stands in one of them,
and the rest of that sum fixes it. -/
theorem eq_of_checksumsOk_set {f : List Byte} {i : Nat} {a b : Byte} (hi4 : 4 ≤ i) (hi : i ≤ 5 + byteNat f 3)
    (ha : f[i]? = some a) (hf : checksumsOk f = true) (hg : checksumsOk (f.set i b) = true) : a = b := by
  obtain ⟨-, -, hlcs, -, hdcs⟩ := (checksumsOk_iff f).mp hf
  obtain ⟨-, -, hlcs', -, hdcs'⟩ := (checksumsOk_iff (f.set i b)).mp hg
  rw [byteNat_set_of_ne f b (by omega : i ≠ 3)] at hlcs' hdcs'
  obtain rfl | hi5 : i = 4 ∨ 5 ≤ i := by omega
  · have hb : (f.set 4 b)[4]? = some b := List.getElem?_set_self (List.getElem?_eq_some_iff.mp ha).1
    rw [byteNat_eq_of_getElem? ha] at hlcs
    rw [byteNat_eq_of_getElem? hb] at hlcs'
    exact eq_of_add_mod_eq_zero hlcs hlcs'
  · rw [sub_set_of_le f _ b hi5] at hdcs'
    have hsum := byteSum_set b ((sub_getElem? hi5 (n := byteNat f 3 + 1) (by omega)).trans ha)
    have := a.isLt
    have := b.isLt
    exact BitVec.eq_of_toNat_eq (by omega)

/-- Settles O18: the Frame itself passes, and no other value at that place does. -/
theorem checkFindsOneWrongByte : Obligations.CheckFindsOneWrongByte := by
  intro f i b hf hi4 hi hne
  have hok := checksumsOk_of_wellFormedFrame hf
  obtain ⟨-, -, -, hlen, -⟩ := (checksumsOk_iff f).mp hok
  have ha : f[i]? = some f[i] := List.getElem?_eq_getElem (by omega)
  rw [← Bool.not_eq_true]
  intro hg
  exact hne (ha.trans (congrArg some (eq_of_checksumsOk_set hi4 hi ha hok hg)))

end Sys2Proof.Machine
end

section
/-! PROOFS. The wire-format rows as acts of their builders (30_encoding.md R90; log entries 10, 11): the command frame `ENC`
builds, and what the device sends, up to the operation that reads it. -/

namespace Sys2Proof.Machine

/-! ### The command frame -/

/-- What an accepted `ENC` leaves in `TXBUF` (40_codec_ops.md R131). -/
theorem encOp_accepted {P : Params} {p : List Byte} (h : p.length ≤ P.maxPayload) (s : State) :
    (encOp P p s).txValid = true ∧ (encOp P p s).txBytes (encOp P p s).txLen = encodeFrame P p := by
  rw [encOp, if_neg (Nat.not_lt.mpr h)]
  exact ⟨rfl, Memory.slice_writeSeq _ _ 0 _⟩

/-- Settles O12: both rows run the same `ENC`, which stores the bytes the row is encoded by. -/
theorem frameCmdIsBuiltByEnc : Obligations.FrameCmdIsBuiltByEnc := by
  intro p s hw
  obtain ⟨hv, hb⟩ := encOp_accepted (P := params) (of_decide_eq_true hw) s
  exact ⟨_, exec_frameCmd p s, exec_enc p s, hv, hb, congrArg (0x08#8 :: ·) hb.symm⟩

/-! ### What the device sends -/

/-- The bits of the poll byte that no rule fixes do not hide the ready bit (20_memory.md R76). -/
theorem isReady_or_rdyMask (b : Byte) : isReady params [b ||| params.rdyMask] = true := by
  have h : (b ||| params.rdyMask) &&& params.rdyMask = params.rdyMask := by
    ext i
    simp only [BitVec.getElem_and, BitVec.getElem_or, Bool.and_eq_right_iff_imp]
    intro hi
    simp [hi]
  rw [isReady, h]
  rfl

/-- Settles O46, by the definitions: the free bytes are the ones each frame's `freeCtr` picks. -/
theorem deviceActsOfferBytes : Obligations.DeviceActsOfferBytes :=
  ⟨fun _ _ => ⟨_, _, _, isReady_or_rdyMask _, rfl⟩, fun _ => ⟨_, _, _, isReady_or_rdyMask _, rfl⟩, fun _ _ _ _ => rfl⟩

/-! ### One ready poll, one data read -/

theorem readAns_first {s : State} {bs : List Byte} {rest : List ReadAns} (h : s.env.rx = .bytes bs :: rest) (n : Nat) :
    s.readAns n = .bytes (bs.take n) := by
  rw [State.readAns, h]
  rfl

theorem collectLoop_done (P : Params) {need : Nat} (T k : Nat) {s : State} (h : need ≤ s.rxLen) :
    collectLoop P need T (k + 1) s = .returned s := by
  rw [collectLoop, if_pos h]

theorem collectLoop_progress (P : Params) {need : Nat} (T k : Nat) {s : State} {r : List Byte} (h : s.rxLen < need)
    (hans : s.readAns (need - s.rxLen) = .bytes r) (hr : r ≠ []) :
    collectLoop P need T (k + 1) s = collectLoop P need T k ((s.memRead P (need - s.rxLen)).accumulate r) := by
  obtain ⟨b, bs, rfl⟩ := List.exists_cons_of_ne_nil hr
  rw [collectLoop, if_neg (Nat.not_le.mpr h), hans]

/-- A data read that the first offered entry covers: its first `need` bytes are the answer (41_handshake_ops.md R156). -/
theorem collect_first {P : Params} {need T : Nat} {bs : List Byte} {rest : List ReadAns} {s : State}
    (hrx : s.env.rx = .bytes bs :: rest) (hpos : 0 < need) (hle : need ≤ bs.length) :
    ∃ h, collect P need T s =
      .returned
        { s with
          rxBuf := s.rxBuf.writeSeq 0 (bs.take need), rxLen := need
          env := { s.env with rx := restOffered need s.env.rx }, history := h } := by
  have hlen : (bs.take need).length = need := List.length_take_of_le hle
  have hr : bs.take need ≠ [] := List.ne_nil_of_length_pos (hlen.symm ▸ hpos)
  have hans := readAns_first (s := { s with rxLen := 0 }) hrx need
  refine ⟨.read P.busId need (.bytes (bs.take need)) :: s.history, ?_⟩
  rw [collect, collectLoop_progress P T (need + T + 1) hpos hans hr, collectLoop_done P T (need + T)]
  · simp [State.accumulate, State.memRead, hlen, hans]
  · simp [hlen]

/-- With a ready poll and an entry that covers the read offered, the wait costs no time, whatever the timeout. -/
theorem readData_first {P : Params} (hP : 1 ≤ P.tickMs) {need T : Nat} {ready bs : List Byte} {rest : List ReadAns}
    {s : State} (hrx : s.env.rx = .bytes ready :: .bytes bs :: rest) (hrf : ready.length ≤ P.pollLen)
    (hrs : isReady P ready = true) (hpos : 0 < need) (hle : need ≤ bs.length) :
    ∃ h, readData P need T s =
      .returned
        { s with
          elapsed := 0, rxBuf := s.rxBuf.writeSeq 0 (bs.take need), rxLen := need
          env := { s.env with rx := restOffered need (.bytes bs :: rest) }, history := h } := by
  obtain ⟨hw, hwait, -⟩ := waitReady_script hP hrf hrs (T := T) (polls := []) nofun hrx (by simp)
  obtain ⟨hc, hcollect⟩ := collect_first (P := P) (T := T)
    (s := { s with elapsed := P.tickMs * 0, env := { s.env with rx := .bytes bs :: rest }, history := hw ++ s.history })
    rfl hpos hle
  exact ⟨hc, by simp only [readData, hwait]; exact hcollect⟩

/-- Bytes stored from the start of `RXBUF`, read back from their index `a` on. -/
theorem State.rxBytes_of_stored {s : State} {m : Memory} {bs : List Byte} (h : s.rxBuf = m.writeSeq 0 bs) {a n : Nat}
    (hn : a + n ≤ bs.length) : s.rxBytes a n = sub bs a n := by
  have hsub := Memory.sub_slice Config.unwrittenRx s.rxBuf 0 bs.length a n hn
  rw [h, Memory.slice_writeSeq, Nat.zero_add] at hsub
  rw [State.rxBytes, h, hsub]

/-- The inner bytes among the first bytes of an envelope (30_encoding.md R101). -/
theorem sub_take_buildEnvelope (st pad : Byte) {f : List Byte} {n : Nat} (h : n ≤ f.length) :
    sub ((buildEnvelope st f pad).take (n + 2)) 1 n = f.take n := by
  rw [sub, buildEnvelope, List.drop_take, List.take_take, List.drop_succ_cons, List.drop_zero,
    Nat.min_eq_left (by omega), List.take_append_of_le_length h]

/-- The device has sent the frame `f` and nothing else is offered: a poll that shows ready, and `f` in its envelope
(20_memory.md R76; 30_encoding.md R101). -/
def FrameOffered (f : List Byte) (s : State) : Prop :=
  ∃ ready st pad, isReady params [ready] = true ∧ s.env.rx = [.bytes [ready], .bytes (buildEnvelope st f pad)]

theorem frameOffered_deviceSends {s : State} (f : List Byte) (h : s.env.rx = []) :
    FrameOffered f (deviceSends params f s) := by
  refine ⟨_, Config.freeByte (s.freeCtr + 1), Config.freeByte (s.freeCtr + 2),
    isReady_or_rdyMask (Config.freeByte s.freeCtr), ?_⟩
  simp [deviceSends, h]

/-- A wait begun with the frame offered reads its first `n` bytes at once; a read of the whole frame leaves nothing
offered. -/
theorem FrameOffered.readData_returned {f : List Byte} {s : State} (h : FrameOffered f s) {n : Nat} (hn : n ≤ f.length)
    (T : Nat) :
    ∃ t, readData params (n + 2) T s = .returned t ∧
      t = { s with
            elapsed := 0, rxLen := n + 2, rxBuf := t.rxBuf, env := { s.env with rx := t.env.rx }, history := t.history } ∧
      t.rxBytes 1 n = f.take n ∧ (n = f.length → t.env.rx = []) := by
  obtain ⟨ready, st, pad, hready, hrx⟩ := h
  have hcover : n + 2 ≤ (buildEnvelope st f pad).length := by
    rw [buildEnvelope_length]
    omega
  obtain ⟨hist, hread⟩ := readData_first (P := params) (T := T) (need := n + 2) (by decide) hrx (Nat.le_refl 1) hready
    (by omega) hcover
  refine ⟨_, hread, rfl, ?_, ?_⟩
  · rw [State.rxBytes_of_stored rfl (by rw [List.length_take]; omega), sub_take_buildEnvelope st pad hn]
  · rintro rfl
    exact restOffered_script [] (Nat.le_of_eq (buildEnvelope_length st pad f))

/-- The six bytes `SNDACK` reads are the ACK frame's (41_handshake_ops.md R151, row T8). -/
theorem FrameOffered.sndAckOp_accepted {s : State} (h : FrameOffered params.ackPattern s) (T : Nat) (hv : s.txValid = true)
    (ho : s.sessionOpen = true) (hw : s.writeAns (s.txBytes s.txLen) = true) :
    (sndAckOp params T s).result = .ok ∧ (sndAckOp params T s).hsState = .awaitingResponse ∧
      (sndAckOp params T s).elapsed = 0 ∧ (sndAckOp params T s).sessionOpen = true ∧
      (sndAckOp params T s).env.rx = [] := by
  have hf : FrameOffered params.ackPattern (frameWritten s) := h
  obtain ⟨t, hread, ht, hbytes, hrest⟩ := hf.readData_returned (n := 6) (Nat.le_refl 6) T
  have hack : t.rxBytes 1 6 = params.ackPattern := hbytes
  have hend : sndAckOp params T s = { t with hsState := .awaitingResponse, result := .ok, value := .noValue } := by
    rw [sndAckOp_written hv ho hw, hread]
    exact (ackVerdict_eq t).trans (if_pos hack)
  rw [hend]
  refine ⟨rfl, rfl, ?_, ?_, hrest rfl⟩ <;> rw [ht]
  exact ho

/-- `RDRSP` reads the first `n` bytes of the frame and returns them if they pass the check it makes
(41_handshake_ops.md R151, row T15). -/
theorem FrameOffered.rdRspOp_returned {f : List Byte} {s : State} (h : FrameOffered f s) {n : Nat} (hn : n ≤ f.length)
    (hmax : n ≤ 262) (T : Nat) (hs : s.hsState = .awaitingResponse)
    (hpass : s.ctrl.getLsbD 0 = true → checksumsOk (f.take n) = true) :
    (rdRspOp params n T s).result = .ok ∧ (rdRspOp params n T s).hsState = .done ∧
      (rdRspOp params n T s).elapsed = 0 ∧ (rdRspOp params n T s).value = .bytes (f.take n) := by
  have hf : FrameOffered f { s with rspValid := false } := h
  obtain ⟨t, hread, ht, hbytes, -⟩ := hf.readData_returned hn T
  have hlen : t.rxLen = n + 2 := by rw [ht]
  have hctrl : t.ctrl = s.ctrl := by rw [ht]
  have hok : ¬ (t.ctrl.getLsbD 0 && !checksumsOk (t.rxBytes 1 n)) = true := by
    rw [hctrl, hbytes]
    simpa using hpass
  have hend : rdRspOp params n T s =
      { t with
        hsState := .done, rspLen := n, rspValid := true, result := .ok, value := .bytes (t.rxBytes 1 n) } := by
    rw [rdRspOp_accepted hs hmax, hread]
    exact (responseVerdict_eq hlen).trans (if_neg hok)
  rw [hend, hbytes]
  refine ⟨rfl, rfl, ?_, rfl⟩
  rw [ht]

/-- Settles O47: the ACK frame alone is offered, and sending it has left the waiting exchange alone. -/
theorem deviceAckIsAccepted : Obligations.DeviceAckIsAccepted := by
  rintro T s _ hv ho hrx hw ⟨⟩
  exact ⟨_, rfl, (frameOffered_deviceSends params.ackPattern hrx).sndAckOp_accepted T.toNat hv ho hw⟩

/-- Settles O48: the response Frame alone is offered, and read as a whole it passes checksum validation. -/
theorem deviceResponseIsReturned : Obligations.DeviceResponseIsReturned := by
  rintro p n T s _ hwf hn hs hrx hchk ⟨⟩
  have hp : p.length + 1 ≤ 255 := of_decide_eq_true hwf
  have hlen : (buildFrame params params.tfiD2H p).length = p.length + 8 := buildFrame_length _ _ p
  have hpass (hon : s.ctrl.getLsbD 0 = true) : checksumsOk ((buildFrame params params.tfiD2H p).take n) = true := by
    rw [List.take_of_length_le (by rw [hlen, hchk hon])]
    exact checksumsOk_of_wellFormedFrame (wellFormedFrame_buildFrame params_valid _ hp)
  have hsent := frameOffered_deviceSends (buildFrame params params.tfiD2H p) hrx
  exact ⟨_, rfl, hsent.rdRspOp_returned (by omega) (by omega) T.toNat hs hpass⟩

end Sys2Proof.Machine
end

section
/-! PROOFS. The Frame Codec: its arithmetic, the Frame `ENC` builds, the acknowledgement `VACK` recognises and the envelope
`DEC` takes off (40_codec_ops.md R130 to R142). -/

namespace Sys2Proof.Machine

/-! ### Arithmetic (40_codec_ops.md R130) -/

@[simp] theorem neg8_neg8 (v : Byte) : neg8 (neg8 v) = v := by
  apply BitVec.eq_of_toNat_eq
  have := v.isLt
  simp only [neg8_toNat]
  omega

@[simp] theorem sum8_singleton (v : Byte) : sum8 [v] = v := by
  apply BitVec.eq_of_toNat_eq
  rw [sum8_toNat]
  exact Nat.mod_eq_of_lt v.isLt

theorem sum8_append_toNat (a b : List Byte) : (sum8 (a ++ b)).toNat = ((sum8 a).toNat + (sum8 b).toNat) % 256 := by
  simp only [sum8_toNat, byteSum_append, Nat.add_mod_mod, Nat.mod_add_mod]

/-- Settles O8, law by law; the four values are closed. -/
theorem checksumArithmeticLaws : Obligations.ChecksumArithmeticLaws :=
  ⟨fun v => ⟨neg8_toNat v, neg8_neg8 v, add_neg8_mod v⟩, rfl, rfl, rfl, rfl, sum8_singleton, sum8_toNat,
    sum8_append_toNat⟩

/-- Settles O15: the five tests as one conjunction, with the bound on the `DCS` in the spec's spelling. -/
theorem checksumsOkMeansTwoSums : Obligations.ChecksumsOkMeansTwoSums := by
  intro x
  rw [checksumsOk_iff]
  have hdcs (h : 6 ≤ x.length) : 5 + byteNat x 3 < x.length ↔ 5 + byteNat x 3 ≤ x.length - 1 := by omega
  exact and_congr_right fun h => by rw [hdcs h]; rfl

/-! ### The Frame (30_encoding.md R91, R96, R97; 40_codec_ops.md R131, R133) -/

theorem payload_add_lenBias_le {P : Params} (hP : P.Valid) {p : List Byte} (h : p.length ≤ P.maxPayload) :
    p.length + P.lenBias ≤ 255 :=
  Nat.le_trans (Nat.add_le_add_right h _) hP.payload_fits

/-- The payload is got back from a built Frame, in either direction. -/
theorem framePayload_buildFrame {P : Params} (hP : P.Valid) (tfi : Byte) {p : List Byte} (h : p.length ≤ P.maxPayload) :
    framePayload (buildFrame P tfi p) = p := by
  obtain ⟨-, -, -, hlen, -⟩ := buildFrame_fields P tfi p
  rw [framePayload, byteNat_eq_of_getElem? hlen, lenByte_toNat (payload_add_lenBias_le hP h), hP.lenBias_one,
    Nat.add_sub_cancel]
  exact buildFrame_payload P tfi p

theorem encodeFrame_injective {P : Params} (hP : P.Valid) {p q : List Byte} (hp : p.length ≤ P.maxPayload)
    (hq : q.length ≤ P.maxPayload) (h : encodeFrame P p = encodeFrame P q) : p = q :=
  calc
    p = framePayload (encodeFrame P p) := (framePayload_buildFrame hP _ hp).symm
    _ = framePayload (encodeFrame P q) := congrArg framePayload h
    _ = q := framePayload_buildFrame hP _ hq

/-- `DCS` is 0 where direction and payload alone sum to 0 mod 256. -/
theorem dcsByte_eq_zero {tfi : Byte} {p : List Byte} (h : (tfi.toNat + byteSum p) % 256 = 0) : dcsByte tfi p = 0x00#8 := by
  rw [dcsByte, (sum8_eq_zero_iff (tfi :: p)).mpr h]
  rfl

/-- An accepted `ENC`, whole (40_codec_ops.md R131). -/
theorem encOp_of_le {P : Params} {p : List Byte} (h : p.length ≤ P.maxPayload) (s : State) :
    encOp P p s =
      { s with
        txBuf := s.txBuf.writeSeq 0 (encodeFrame P p), txLen := p.length + 8, txValid := true, result := .ok
        value := .bytes (encodeFrame P p) } := by
  rw [encOp, if_neg (Nat.not_lt.mpr h), encodeFrame_length]
  rfl

/-- A refused `ENC` (40_codec_ops.md R132). -/
theorem encOp_of_gt {P : Params} {p : List Byte} (h : P.maxPayload < p.length) (s : State) :
    encOp P p s = s.finish .refused .noValue :=
  if_pos h

/-- `LEN` and `LCS` of a command frame with `n` payload bytes. -/
theorem encodeFrame_lengthFields {p : List Byte} {n : Nat} (h : p.length = n) :
    (encodeFrame params p)[3]? = some (lenByte params n) ∧
      (encodeFrame params p)[4]? = some (lcsByte (lenByte params n)) := by
  obtain ⟨-, -, -, hlen, hlcs, -⟩ := buildFrame_fields params params.tfiH2D p
  subst h
  exact ⟨hlen, hlcs⟩

/-- Settles O9: the Frame by its fields; injective since the payload is got back; the corner cases from `LEN`, `LCS` and
`DCS`; `ENC` stores the Frame whatever was valid before. -/
theorem encodedFrameIsWellFormed : Obligations.EncodedFrameIsWellFormed := by
  refine ⟨?wellFormed, ?injective, rfl, ?dcsZero, rfl, ?longest, ?half, ?overwrites⟩
  case wellFormed =>
    intro P hP p hp
    exact ⟨wellFormedFrame_buildFrame hP _ (payload_add_lenBias_le hP hp), encodeFrame_length P p,
      framePayload_buildFrame hP _ hp⟩
  case injective => exact fun P hP p q => encodeFrame_injective hP
  case dcsZero =>
    intro p hsum
    obtain ⟨hdcs, -⟩ := buildFrame_last params params.tfiH2D p
    exact hdcs.trans (congrArg some (dcsByte_eq_zero hsum))
  case longest =>
    intro p hp
    obtain ⟨hlen, hlcs⟩ := encodeFrame_lengthFields hp
    exact ⟨hlen, hlcs, by rw [encodeFrame_length, hp]⟩
  case half => exact fun p hp => encodeFrame_lengthFields hp
  case overwrites =>
    intro p s hp _
    exact ⟨_, exec_enc p s, encOp_accepted hp s⟩

/-- Settles O10: the stored Frame is read back, and nothing above it was written. -/
theorem encBuildsFrame : Obligations.EncBuildsFrame := by
  intro p s hp
  have hlen : (encodeFrame params p).length = p.length + 8 := encodeFrame_length params p
  refine ⟨_, (exec_enc p s).trans (congrArg _ (encOp_of_le hp s)), rfl, ?stored, ?above, rfl⟩
  case stored =>
    rw [← hlen]
    exact Memory.slice_writeSeq _ _ 0 _
  case above =>
    intro i hi
    exact Memory.read_writeSeq_above _ _ 0 i (by omega)

/-- Settles O11: `MAX_PAYLOAD` is 254, and the entry check comes before any write. -/
theorem encRefusesLongPayload : Obligations.EncRefusesLongPayload := by
  intro p s hp
  rw [exec_enc, encOp_of_gt hp]
  rfl

/-! ### The acknowledgement (40_codec_ops.md R134) -/

/-- Equality with `ACK_PATTERN` is agreement in length and at each of its indexes. -/
theorem eq_ackPattern_iff (bs : List Byte) :
    bs = params.ackPattern ↔ bs.length = 6 ∧ ∀ i, i < 6 → bs[i]? = params.ackPattern[i]? := by
  constructor
  · rintro rfl
    exact ⟨rfl, fun _ _ => rfl⟩
  · rintro ⟨hlen, hbytes⟩
    have hack : params.ackPattern.length = 6 := rfl
    exact List.ext_getElem?' fun i hi => hbytes i (by omega)

/-- Settles O13: the answer is `AckMatches`. -/
theorem vackComparesSixBytes : Obligations.VackComparesSixBytes := by
  intro bs s
  refine ⟨ackMatches params bs, exec_vack bs s, ?_⟩
  rw [ackMatches_iff params_valid.ack_length, eq_ackPattern_iff]

/-! ### The envelope (40_codec_ops.md R135, R136, R139) -/

theorem decodeEnvelope_of_lt {P : Params} (hP : P.Valid) {bs : List Byte} {n : Nat} (h : bs.length < n + 2)
    (check : Bool) :
    decodeEnvelope P bs n check = .shortRead := by
  rw [decodeEnvelope, hP.envPre_one, hP.envPost_one, if_pos (by omega)]

/-- With bytes enough, only the inner bytes count, and checksum validation of them. -/
theorem decodeEnvelope_of_le {P : Params} (hP : P.Valid) {bs : List Byte} {n : Nat} (h : n + 2 ≤ bs.length)
    (check : Bool) :
    decodeEnvelope P bs n check =
      if check = true ∧ checksumsOk (sub bs 1 n) = false then .checksumMismatch else .ok (sub bs 1 n) := by
  simp only [decodeEnvelope, innerBytes, hP.envPre_one, hP.envPost_one, Bool.and_eq_true, Bool.not_eq_true']
  rw [if_neg (by omega)]

/-- `DEC` of an envelope with anything after it (40_codec_ops.md R136, R138). -/
theorem decodeEnvelope_buildEnvelope {P : Params} (hP : P.Valid) (st pad : Byte) (x tail : List Byte) (check : Bool) :
    decodeEnvelope P (buildEnvelope st x pad ++ tail) x.length check =
      if check = true ∧ checksumsOk x = false then .checksumMismatch else .ok x := by
  have hlen : x.length + 2 ≤ (buildEnvelope st x pad ++ tail).length := by simp
  have hinner : sub (buildEnvelope st x pad ++ tail) 1 x.length = x := by
    rw [← hP.envPre_one]
    exact innerBytes_envelope hP.envPre_one st pad x tail
  rw [decodeEnvelope_of_le hP hlen, hinner]

/-- An envelope of bytes that pass the check, where there is one, gives them back. -/
theorem decodeEnvelope_buildEnvelope_of_passes {P : Params} (hP : P.Valid) (st pad : Byte) {x : List Byte} {check : Bool}
    (h : check = true → checksumsOk x = true) : decodeEnvelope P (buildEnvelope st x pad) x.length check = .ok x := by
  have hdec := decodeEnvelope_buildEnvelope hP st pad x [] check
  rw [List.append_nil] at hdec
  rw [hdec, if_neg]
  rintro ⟨hon, hfail⟩
  simp [h hon] at hfail

/-- Settles O14: by the length and the check. -/
theorem decStripsEnvelope : Obligations.DecStripsEnvelope := by
  intro bs n check s
  simp only [exec_dec, decOp]
  refine ⟨?short, ?mismatch, ?ok⟩
  case short =>
    intro hlen
    rw [decodeEnvelope_of_lt params_valid hlen]
    rfl
  case mismatch =>
    intro hlen hon hfail
    rw [decodeEnvelope_of_le params_valid hlen, if_pos ⟨hon, hfail⟩]
    rfl
  case ok =>
    intro hlen hpass
    have hok : ¬ (check = true ∧ checksumsOk (sub bs 1 n) = false) := by
      rintro ⟨hon, hfail⟩
      exact Bool.false_ne_true (hfail.symm.trans (hpass hon))
    rw [decodeEnvelope_of_le params_valid hlen, if_neg hok]
    rfl

/-- Settles O16: the check is off, or a well-formed Frame passes it; the Frame gives its payload back. -/
theorem envelopeRoundTrip : Obligations.EnvelopeRoundTrip := by
  intro P hP
  refine ⟨?unchecked, ?checked, ?payload⟩
  case unchecked =>
    intro st pad x
    exact decodeEnvelope_buildEnvelope_of_passes hP st pad nofun
  case checked =>
    intro st pad x hx
    exact decodeEnvelope_buildEnvelope_of_passes hP st pad fun _ => checksumsOk_of_wellFormedFrame hx
  case payload =>
    intro p hp
    exact ⟨wellFormedFrame_buildFrame hP _ (payload_add_lenBias_le hP hp), framePayload_buildFrame hP _ hp⟩

/-- Settles O17: what decoding an envelope gives is told by its inner bytes and the check alone. -/
theorem decIgnoresPrefixPadAndTail : Obligations.DecIgnoresPrefixPadAndTail := by
  intro st st' pad pad' x tail tail' check s
  have hdec : decodeEnvelope params ([st] ++ x ++ [pad] ++ tail) x.length check =
      decodeEnvelope params ([st'] ++ x ++ [pad'] ++ tail') x.length check :=
    (decodeEnvelope_buildEnvelope params_valid st pad x tail check).trans
      (decodeEnvelope_buildEnvelope params_valid st' pad' x tail' check).symm
  rw [exec_dec, exec_dec, decOp, decOp, hdec]

/-! ### What the codec leaves alone (40_codec_ops.md R141) -/

/-- `t` has the exchange of `s`: its state, the session, the response and the receive buffer, the transport's calls and
what the environment has yet to answer (10_state.md R38). -/
structure SameExchange (s t : State) : Prop where
  hsState : t.hsState = s.hsState
  sessionOpen : t.sessionOpen = s.sessionOpen
  rspValid : t.rspValid = s.rspValid
  history : t.history = s.history
  env : t.env = s.env
  rxBuf : t.rxBuf = s.rxBuf
  rxLen : t.rxLen = s.rxLen

theorem sameExchange_finish (r : ResultCode) (v : RetVal) (s : State) : SameExchange s (s.finish r v) :=
  ⟨rfl, rfl, rfl, rfl, rfl, rfl, rfl⟩

theorem sameExchange_encOp (P : Params) (p : List Byte) (s : State) : SameExchange s (encOp P p s) := by
  obtain h | h := Nat.lt_or_ge P.maxPayload p.length
  · rw [encOp_of_gt h]
    exact sameExchange_finish _ _ s
  · rw [encOp_of_le h]
    exact ⟨rfl, rfl, rfl, rfl, rfl, rfl, rfl⟩

theorem sameExchange_decOp (P : Params) (bytes : List Byte) (n : Nat) (check : Bool) (s : State) :
    SameExchange s (decOp P bytes n check s) := by
  obtain ⟨r, v, h⟩ := decOp_eq_finish P bytes n check s
  rw [h]
  exact sameExchange_finish r v s

theorem sameExchange_wrctrlOp (v : Byte) (s : State) : SameExchange s (wrctrlOp v s) :=
  ⟨rfl, rfl, rfl, rfl, rfl, rfl, rfl⟩

/-- Settles O45: operation by operation. -/
theorem codecLeavesExchangeAlone : Obligations.CodecLeavesExchangeAlone := by
  intro i s t hi hx
  have hsame : SameExchange s t := by
    obtain ⟨p, rfl⟩ | ⟨b, rfl⟩ | ⟨b, n, c, rfl⟩ | ⟨v, rfl⟩ | ⟨p, rfl⟩ := hi <;> cases hx
    · exact sameExchange_encOp params p s
    · exact sameExchange_finish _ _ s
    · exact sameExchange_decOp params b n c s
    · exact sameExchange_wrctrlOp v s
    · exact sameExchange_encOp params p s
  obtain ⟨hhs, hopen, hrsp, hhist, henv, hbuf, hlen⟩ := hsame
  exact ⟨hhs, hopen, hrsp, hhist, henv, hbuf, hlen⟩

end Sys2Proof.Machine
end

section
/-! PROOFS. `SNDACK` and `RDRSP` over a known script of the environment (41_handshake_ops.md R151, R154 to R166): the entry
checks, a frame write that fails, a wait that completes, one that is never ready, and one that an `ERR` ends. -/

namespace Sys2Proof.Machine

/-! ### Before any wait -/

/-- Settles O23: `SNDACK` tests `TXVALID` before `SESSION_OPEN`. -/
theorem sndackEntryChecks : Obligations.SndackEntryChecks := by
  intro T s
  constructor
  · intro h
    rw [exec_sndack, sndAckOp_refused h]
  · intro h1 h2
    rw [exec_sndack, sndAckOp_closed h1 h2]

/-- Settles O24: the error entry follows the write at once. -/
theorem sndackFailedWriteTearsDown : Obligations.SndackFailedWriteTearsDown := by
  intro T s h1 h2 h3
  rw [exec_sndack, sndAckOp_writeFailed h1 h2 h3]
  rfl

/-- Settles O32: both causes end `RDRSP` in the same refusal. -/
theorem rdrspRefusals : Obligations.RdrspRefusals := by
  intro n T s h
  rw [exec_rdrsp, rdRspOp_refused h]

/-! ### A wait that completes -/

/-- The inner bytes of an envelope stand between its status byte and its pad (30_encoding.md R101). -/
theorem sub_envelope (st pad : Byte) (x : List Byte) : sub ([st] ++ x ++ [pad]) 1 x.length = x := by
  simp [sub]

/-- A wait and data read over a script that offers the envelope of `x` within the budget: the envelope stands in `RXBUF`
from index 0, and nothing has been written above it. -/
theorem readData_envelope_script {T : Nat} {polls chunks : List (List Byte)} {ready x : List Byte} {st pad : Byte}
    {rest : List ReadAns} {s : State} (ho : Offers params s.env polls ready chunks rest)
    (hx : chunks.flatten = [st] ++ x ++ [pad]) (hT : polls.length + emptyCount chunks ≤ T) :
    ∃ t, readData params (x.length + 2) T s = .returned t ∧
      t = { s with
            elapsed := polls.length + emptyCount chunks, rxBuf := t.rxBuf, rxLen := x.length + 2
            env := { s.env with rx := rest }, history := t.history } ∧
      t.rxBytes 1 x.length = x ∧ t.rxBytes 0 (x.length + 2) = [st] ++ x ++ [pad] ∧
      ∀ i, x.length + 2 ≤ i → t.rxBuf.read i = s.rxBuf.read i := by
  have hlen : ([st] ++ x ++ [pad]).length = x.length + 2 := by simp
  have htick : params.tickMs = 1 := rfl
  obtain ⟨h, hread⟩ := readData_script (P := params) (by decide) ho (T := T) (by rwa [htick, Nat.one_mul])
  rw [hx, hlen, htick, Nat.one_mul] at hread
  refine ⟨_, hread, rfl, ?_, ?_, fun i hi => ?_⟩
  · rw [State.rxBytes_of_stored rfl (by omega), sub_envelope]
  · rw [← hlen]
    exact Memory.slice_writeSeq _ _ _ _
  · exact Memory.read_writeSeq_above _ _ _ _ (by omega)

/-- Settles O25: the wait and data read, then the verdict by the six inner bytes. -/
theorem sndackCompletesOnAck : Obligations.SndackCompletesOnAck := by
  intro T s polls chunks ready x st pad rest h1 h2 h3 ho hx hlen hT
  have ho' : Offers params (frameWritten s).env polls ready chunks rest := { ho with script := ho.script }
  obtain ⟨t, hread, ht, hin, hall, habove⟩ := readData_envelope_script ho' hx hT
  rw [hlen] at hread ht hin hall habove
  have hend : sndAckOp params T.toNat s = ackVerdict params t := by rw [sndAckOp_written h1 h2 h3, hread]
  rw [ackVerdict_eq, hin] at hend
  rw [exec_sndack, hend]
  refine ⟨_, rfl, ?_, ?_, ?_⟩
  · rw [ht]
    split <;> rfl
  · split <;> exact hall
  · split <;> exact habove

/-- Settles O33: the wait and data read, then the verdict by the check `CTRL` asks for. -/
theorem rdrspCompletesOnResponse : Obligations.RdrspCompletesOnResponse := by
  rintro n T s polls chunks ready x st pad rest h1 h2 ho hx rfl hT
  have ho' : Offers params { s with rspValid := false }.env polls ready chunks rest := ho
  obtain ⟨t, hread, ht, hin, hall, habove⟩ := readData_envelope_script ho' hx hT
  have hend : rdRspOp params x.length T.toNat s = responseVerdict params x.length t := by
    rw [rdRspOp_accepted h1 h2, hread]
  have hn : t.rxLen = x.length + 2 := by rw [ht]
  have hc : t.ctrl = s.ctrl := by rw [ht]
  rw [responseVerdict_eq hn, hin, hc] at hend
  rw [exec_rdrsp, hend]
  refine ⟨_, rfl, ?_, ?_, ?_, ?_⟩
  · rw [ht]
    cases s.ctrl.getLsbD 0 && !checksumsOk x <;> rfl
  · split <;> exact hin
  · split <;> exact hall
  · split <;> exact habove

/-! ### A wait that is never ready -/

/-- Polls that are not ready for the whole budget: `T + 1` of them, each followed by a sleep (41_handshake_ops.md R155 (a)). -/
theorem readData_timeout_script {need T : Nat} {polls : List (List Byte)} {rest : List ReadAns} {s : State}
    (hrx : s.env.rx = polls.map .bytes ++ rest) (hn : NotReady params polls) (hlen : polls.length = T + 1) :
    ∃ evs, readData params need T s =
        .raised .timedOut
          { s with elapsed := T + 1, env := { s.env with rx := rest }, history := evs ++ s.history } ∧
      readCount evs = T + 1 ∧ sleepCount evs = T + 1 ∧ sleptMs evs = T + 1 ∧ evs.length = 2 * (T + 1) := by
  obtain ⟨evs, hwait, hcounts⟩ := waitReadyLoop_timeout_script (P := params) rfl (T := T) polls (T + 1)
    { s with elapsed := 0 } hn (by rintro rfl; simp at hlen) hrx (by simp [hlen]) hlen.le
  rw [hlen] at hcounts
  exact ⟨evs, by rw [readData, waitReady, hwait], hcounts⟩

/-- Settles O26: the timed-out wait begins when the frame has been written. -/
theorem sndackTimesOutWhenNeverReady : Obligations.SndackTimesOutWhenNeverReady := by
  intro T s polls rest h1 h2 h3 hrx hn hlen
  obtain ⟨evs, hread, hcounts⟩ := readData_timeout_script (need := 8) (s := frameWritten s) hrx hn hlen
  refine ⟨_, evs, exec_sndack T s, ?_, ?_, hcounts⟩ <;> rw [sndAckOp_written h1 h2 h3, hread]
  · rfl
  · rw [← h3]
    rfl

/-- Settles O57: the same wait, with `RSPVALID` cleared before it. -/
theorem rdrspTimesOutWhenNeverReady : Obligations.RdrspTimesOutWhenNeverReady := by
  intro n T s polls rest h1 h2 hrx hn hlen
  obtain ⟨evs, hread, hcounts⟩ :=
    readData_timeout_script (need := n + 2) (s := { s with rspValid := false }) hrx hn hlen
  refine ⟨_, evs, exec_rdrsp n T s, ?_, ?_, hcounts⟩ <;> rw [rdRspOp_accepted h1 h2, hread] <;> rfl

/-! ### A read that answers `ERR` -/

/-- Settles O41: an `ERR` to a poll, and one to a data read, of the wait that begins when the frame has been written. -/
theorem sndackReadErrorIsBusError : Obligations.SndackReadErrorIsBusError := by
  intro T s polls rest h1 h2 h3 hn
  constructor
  · intro hrx hT
    exact exec_sndack_waitErrs h1 h2 h3 (readData_pollError_script rfl hn hrx hT)
  · intro ready chunks hrx hrf hrs hneed hT
    exact exec_sndack_waitErrs h1 h2 h3 (readData_dataError_script rfl hn hrx hrf hrs hneed hT)

/-- Settles O58: the same for the wait of an accepted `RDRSP`. -/
theorem rdrspReadErrorIsBusError : Obligations.RdrspReadErrorIsBusError := by
  intro n T s polls rest h1 h2 hn
  constructor
  · intro hrx hT
    exact exec_rdrsp_waitErrs h1 h2 (readData_pollError_script rfl hn hrx hT)
  · intro ready chunks hrx hrf hrs hneed hT
    exact exec_rdrsp_waitErrs h1 h2 (readData_dataError_script rfl hn hrx hrf hrs hneed hT)

end Sys2Proof.Machine
end

section
/-! PROOFS. `SNDACK` and `RDRSP` for every environment (41_handshake_ops.md R151 to R172): every way they can end, what they
leave unchanged, what does not bear on them, and how long they can take. -/

namespace Sys2Proof.Machine

/-! ### What a wait keeps -/

theorem Moved.sessionOpen {P : Params} {r s' : State} {evs : List Event} (h : Moved P r s' evs) :
    s'.sessionOpen = r.sessionOpen := by
  rw [h.state]

theorem Moved.txValid {P : Params} {r s' : State} {evs : List Event} (h : Moved P r s' evs) :
    s'.txValid = r.txValid := by
  rw [h.state]

theorem Moved.rspValid {P : Params} {r s' : State} {evs : List Event} (h : Moved P r s' evs) :
    s'.rspValid = r.rspValid := by
  rw [h.state]

theorem Moved.ctrl {P : Params} {r s' : State} {evs : List Event} (h : Moved P r s' evs) : s'.ctrl = r.ctrl := by
  rw [h.state]

/-- From `s` to `t` nothing outside the block has changed, but for the calls made and what the environment offers to reads:
the host's side, the free bytes, and the answers to the calls that are no reads. -/
structure SameSurroundings (s t : State) : Prop where
  issue : t.issue = s.issue
  resetIn : t.resetIn = s.resetIn
  freeCtr : t.freeCtr = s.freeCtr
  env : t.env = { s.env with rx := t.env.rx }

theorem SameSurroundings.refl (s : State) : SameSurroundings s s := ⟨rfl, rfl, rfl, rfl⟩

theorem SameSurroundings.trans {s t u : State} (h : SameSurroundings s t) (h' : SameSurroundings t u) :
    SameSurroundings s u where
  issue := h'.issue.trans h.issue
  resetIn := h'.resetIn.trans h.resetIn
  freeCtr := h'.freeCtr.trans h.freeCtr
  env := by rw [h'.env, h.env]

theorem Moved.sameSurroundings {P : Params} {r s' : State} {evs : List Event} (h : Moved P r s' evs) :
    SameSurroundings r s' := by
  constructor <;> rw [h.state]

theorem sameSurroundings_errorEntry (P : Params) (e : Raised) (s : State) : SameSurroundings s (s.errorEntry P e) := by
  constructor <;> simp

theorem sameSurroundings_ackVerdict (s : State) : SameSurroundings s (ackVerdict params s) := by
  rw [ackVerdict_eq]
  split <;> exact ⟨rfl, rfl, rfl, rfl⟩

theorem sameSurroundings_responseVerdict {n : Nat} {s : State} (h : s.rxLen = n + 2) :
    SameSurroundings s (responseVerdict params n s) := by
  rw [responseVerdict_eq h]
  split <;> exact ⟨rfl, rfl, rfl, rfl⟩

/-! ### `RXBUF` above the bytes read -/

theorem ackVerdict_rxBuf (s : State) : (ackVerdict params s).rxBuf = s.rxBuf := by
  rw [ackVerdict_eq]
  split <;> rfl

theorem responseVerdict_rxBuf {n : Nat} {s : State} (h : s.rxLen = n + 2) :
    (responseVerdict params n s).rxBuf = s.rxBuf := by
  rw [responseVerdict_eq h]
  split <;> rfl

/-- An operation that ends in its verdict has written nothing at or above `need`; one that does not has ended in the error
entry, after which `RXBUF` is unspecified (10_state.md R34). -/
theorem Concludes.read_rxBuf_above {need T : Nat} {verdict : State → State} {s t : State}
    (h : Concludes need T verdict s t) (hv : ∀ s', s'.rxLen = need → (verdict s').rxBuf = s'.rxBuf)
    (ht : t.result ≠ .timedOut) (hb : t.result ≠ .busError) {i : Nat} (hi : need ≤ i) :
    t.rxBuf.read i = s.rxBuf.read i := by
  obtain ⟨s', bs, hu, hbs, ⟨e, rfl⟩ | ⟨-, -, hn, rfl⟩⟩ := h
  · rcases State.errorEntry_result e s' with hr | hr
    · exact absurd hr ht
    · exact absurd hr hb
  · rw [hv s' hn, hu.rxBuf]
    exact Memory.read_writeSeq_above _ _ _ _ (by omega)

/-! ### `SNDACK` -/

/-- Settles O27, by the rows of R151: refused, closed, write failed, and the three ends of the wait. -/
theorem sndackOutcomes : Obligations.SndackOutcomes := by
  intro T s
  refine ⟨_, exec_sndack T s, ?_⟩
  cases h1 : s.txValid with
  | false =>
    rw [sndAckOp_refused h1]
    exact ⟨rfl, Or.inl ⟨rfl, rfl, rfl⟩⟩
  | true =>
    cases h2 : s.sessionOpen with
    | false =>
      rw [sndAckOp_closed h1 h2]
      exact ⟨rfl, Or.inr ⟨rfl, rfl, rfl, Or.inl ⟨rfl, rfl, rfl⟩⟩⟩
    | true =>
      cases h3 : s.writeAns (s.txBytes s.txLen) with
      | false =>
        rw [sndAckOp_writeFailed h1 h2 h3]
        exact ⟨rfl, Or.inr ⟨rfl, rfl, rfl, Or.inl ⟨rfl, rfl, rfl⟩⟩⟩
      | true =>
        obtain ⟨s', w, c, hm, -, -, -, -, -, -, hend⟩ := sndAckOp_cases (T := T.toNat) h1 h2 h3
        have hopen : s'.sessionOpen = true := hm.sessionOpen.trans h2
        rcases hend with ⟨-, -, ht⟩ | ⟨-, ht⟩ | ⟨-, hn, -, ht⟩ <;> rw [ht]
        · exact ⟨rfl, Or.inr ⟨rfl, hm.txValid, hm.rspValid, Or.inr ⟨rfl, hopen, rfl, Or.inl ⟨rfl, rfl⟩⟩⟩⟩
        · exact ⟨rfl, Or.inr ⟨rfl, rfl, rfl, Or.inl ⟨rfl, rfl, rfl⟩⟩⟩
        · rw [ackVerdict_eq]
          split <;> refine ⟨rfl, Or.inr ⟨rfl, hm.txValid, hm.rspValid, Or.inr ⟨rfl, hopen, rfl, Or.inr ?_⟩⟩⟩
          · next hx => exact Or.inr ⟨rfl, rfl, hn, hx⟩
          · next hx => exact Or.inl ⟨rfl, rfl, hn, hx⟩

/-- `SNDACK` uses up nothing of the surroundings but the answer to its one write. -/
theorem sameSurroundings_sndAckOp (T : Nat) (s : State) :
    SameSurroundings s (sndAckOp params T s) ∨ SameSurroundings (frameWritten s) (sndAckOp params T s) := by
  cases h1 : s.txValid with
  | false =>
    rw [sndAckOp_refused h1]
    exact Or.inl ⟨rfl, rfl, rfl, rfl⟩
  | true =>
    cases h2 : s.sessionOpen with
    | false =>
      rw [sndAckOp_closed h1 h2]
      exact Or.inl ⟨rfl, rfl, rfl, rfl⟩
    | true =>
      right
      cases h3 : s.writeAns (s.txBytes s.txLen) with
      | false =>
        rw [sndAckOp_writeFailed h1 h2 h3]
        exact ⟨rfl, rfl, rfl, rfl⟩
      | true =>
        obtain ⟨s', w, c, hm, -, -, -, -, -, -, hend⟩ := sndAckOp_cases (T := T) h1 h2 h3
        have h0 : SameSurroundings (frameWritten s) { frameWritten s with elapsed := 0 } := ⟨rfl, rfl, rfl, rfl⟩
        have hwait := h0.trans hm.sameSurroundings
        rcases hend with ⟨-, -, ht⟩ | ⟨-, ht⟩ | ⟨-, -, -, ht⟩ <;> rw [ht]
        · exact hwait.trans (sameSurroundings_errorEntry _ _ _)
        · exact hwait.trans (sameSurroundings_errorEntry _ _ _)
        · exact hwait.trans (sameSurroundings_ackVerdict _)

/-- Settles O28: the registers and the surroundings by what is kept at each end, `RXBUF` by where the data read stored. -/
theorem sndackFrame : Obligations.SndackFrame := by
  rintro T s _ ⟨⟩
  obtain ⟨hctrl, htx, htxLen, hrspLen⟩ := sndAckOp_keeps T.toNat s
  have hrx : (sndAckOp params T.toNat s).result ≠ .timedOut → (sndAckOp params T.toNat s).result ≠ .busError →
      ∀ i, 8 ≤ i → (sndAckOp params T.toNat s).rxBuf.read i = s.rxBuf.read i := by
    intro ht hb i hi
    obtain hr | hc := sndAckOp_concludes T.toNat s
    · rw [hr, State.finish_rxBuf]
    · exact hc.read_rxBuf_above (fun s' _ => ackVerdict_rxBuf s') ht hb hi
  obtain h | h := sameSurroundings_sndAckOp T.toNat s
  · exact ⟨htx, htxLen, hrspLen, hctrl, h.issue, h.resetIn, h.freeCtr, by rw [h.env], by rw [h.env], hrx⟩
  · exact ⟨htx, htxLen, hrspLen, hctrl, h.issue, h.resetIn, h.freeCtr, by rw [h.env]; rfl, by rw [h.env]; rfl, hrx⟩

/-! ### `CTRL` does not bear on a wait, nor on the ACK -/

def State.withCtrl (c : Byte) (s : State) : State := { s with ctrl := c }

@[simp] theorem State.withCtrl_rxLen (c : Byte) (s : State) : (s.withCtrl c).rxLen = s.rxLen := rfl
@[simp] theorem State.withCtrl_elapsed (c : Byte) (s : State) : (s.withCtrl c).elapsed = s.elapsed := rfl
@[simp] theorem State.withCtrl_sessionOpen (c : Byte) (s : State) : (s.withCtrl c).sessionOpen = s.sessionOpen := rfl
@[simp] theorem State.withCtrl_rxBytes (c : Byte) (s : State) (a n : Nat) :
    (s.withCtrl c).rxBytes a n = s.rxBytes a n := rfl
@[simp] theorem State.withCtrl_readAns (c : Byte) (s : State) (n : Nat) : (s.withCtrl c).readAns n = s.readAns n := rfl

/-- The same end of a procedure, with `CTRL` at `c`. -/
def ProcOut.withCtrl (c : Byte) : ProcOut → ProcOut
  | .returned s => .returned (s.withCtrl c)
  | .raised e s => .raised e (s.withCtrl c)

theorem waitReadyLoop_withCtrl (P : Params) (T k : Nat) (c : Byte) (s : State) :
    waitReadyLoop P T k (s.withCtrl c) = (waitReadyLoop P T k s).withCtrl c := by
  induction k generalizing s with
  | zero => rfl
  | succ k ih =>
    rw [waitReadyLoop, waitReadyLoop, State.withCtrl_readAns]
    cases s.readAns P.pollLen with
    | err => rfl
    | bytes r =>
      by_cases hr : isReady P r = true
      · simp only [hr, if_true]
        rfl
      · by_cases hT : T < s.elapsed + P.tickMs
        · simp only [hr, State.sleepTick_elapsed, State.memRead_elapsed, State.withCtrl_elapsed, hT, if_true]
          rfl
        · simp only [hr, State.sleepTick_elapsed, State.memRead_elapsed, State.withCtrl_elapsed, hT, if_false]
          exact ih ((s.memRead P P.pollLen).sleepTick P)

theorem collectLoop_withCtrl (P : Params) (need T k : Nat) (c : Byte) (s : State) :
    collectLoop P need T k (s.withCtrl c) = (collectLoop P need T k s).withCtrl c := by
  induction k generalizing s with
  | zero => rfl
  | succ k ih =>
    rw [collectLoop, collectLoop, State.withCtrl_readAns, State.withCtrl_rxLen]
    by_cases hn : need ≤ s.rxLen
    · simp only [hn, if_true]
      rfl
    · simp only [hn, if_false]
      cases s.readAns (need - s.rxLen) with
      | err => rfl
      | bytes r =>
        cases r with
        | nil =>
          by_cases hT : T < s.elapsed + P.tickMs
          · simp only [State.sleepTick_elapsed, State.memRead_elapsed, State.withCtrl_elapsed, hT, if_true]
            rfl
          · simp only [State.sleepTick_elapsed, State.memRead_elapsed, State.withCtrl_elapsed, hT, if_false]
            exact ih ((s.memRead P (need - s.rxLen)).sleepTick P)
        | cons b bs => exact ih ((s.memRead P (need - s.rxLen)).accumulate (b :: bs))

theorem readData_withCtrl (P : Params) (need T : Nat) (c : Byte) (s : State) :
    readData P need T (s.withCtrl c) = (readData P need T s).withCtrl c := by
  have hwait : waitReady P T (s.withCtrl c) = (waitReady P T s).withCtrl c :=
    waitReadyLoop_withCtrl P T (T + 1) c { s with elapsed := 0 }
  rw [readData, readData, hwait]
  cases waitReady P T s with
  | raised e s' => rfl
  | returned s' => exact collectLoop_withCtrl P need T (need + T + 2) c { s' with rxLen := 0 }

theorem tearDown_withCtrl (P : Params) (c : Byte) (s : State) : (s.withCtrl c).tearDown P = (s.tearDown P).withCtrl c := by
  cases ho : s.sessionOpen <;> simp only [State.tearDown, State.withCtrl_sessionOpen, ho] <;> rfl

theorem errorEntry_withCtrl (P : Params) (e : Raised) (c : Byte) (s : State) :
    (s.withCtrl c).errorEntry P e = (s.errorEntry P e).withCtrl c := by
  cases e with
  | timedOut => rfl
  | busError => rw [State.errorEntry, tearDown_withCtrl]; rfl

theorem ackVerdict_withCtrl (P : Params) (c : Byte) (s : State) :
    ackVerdict P (s.withCtrl c) = (ackVerdict P s).withCtrl c := by
  cases ha : ackMatches P (s.rxBytes P.envPre P.ackLen) <;>
    simp only [ackVerdict, State.withCtrl_rxBytes, ha] <;> rfl

/-- `SNDACK` neither reads `CTRL` nor writes it. -/
theorem sndAckOp_withCtrl (T : Nat) (c : Byte) (s : State) :
    sndAckOp params T (s.withCtrl c) = (sndAckOp params T s).withCtrl c := by
  cases h1 : s.txValid with
  | false =>
    rw [sndAckOp_refused h1, sndAckOp_refused (s := s.withCtrl c) h1]
    rfl
  | true =>
    cases h2 : s.sessionOpen with
    | false =>
      rw [sndAckOp_closed h1 h2, sndAckOp_closed (s := s.withCtrl c) h1 h2]
      rfl
    | true =>
      cases h3 : s.writeAns (s.txBytes s.txLen) with
      | false =>
        rw [sndAckOp_writeFailed h1 h2 h3, sndAckOp_writeFailed (s := s.withCtrl c) h1 h2 h3]
        rfl
      | true =>
        have hread : readData params 8 T (frameWritten (s.withCtrl c)) =
            (readData params 8 T (frameWritten s)).withCtrl c := readData_withCtrl params 8 T c (frameWritten s)
        rw [sndAckOp_written h1 h2 h3, sndAckOp_written (s := s.withCtrl c) h1 h2 h3, hread]
        cases readData params 8 T (frameWritten s) with
        | raised e s' => exact errorEntry_withCtrl params e c s'
        | returned s' => exact ackVerdict_withCtrl params c s'

/-- Settles O29: no part of `SNDACK` reads `CTRL`. -/
theorem sndackIgnoresCheckEnable : Obligations.SndackIgnoresCheckEnable := by
  rintro T s _ c ⟨⟩
  exact congrArg Host.Outcome.next (sndAckOp_withCtrl T.toNat c s)

/-! ### `RDRSP` -/

/-- Settles O34: the three ends of the wait, the last by the check `CTRL` asks for. -/
theorem rdrspOutcomes : Obligations.RdrspOutcomes := by
  intro n T s h1 h2
  refine ⟨_, exec_rdrsp n T s, ?_⟩
  obtain ⟨s', w, c, hm, -, -, -, -, -, -, hend⟩ := rdRspOp_cases (T := T.toNat) h1 h2
  have hc : s'.ctrl = s.ctrl := hm.ctrl
  rcases hend with ⟨-, -, ht⟩ | ⟨-, ht⟩ | ⟨-, hn, -, ht⟩ <;> rw [ht]
  · exact Or.inr ⟨hm.sessionOpen, hm.txValid, Or.inl ⟨rfl, rfl, hm.rspValid, rfl⟩⟩
  · exact Or.inl ⟨rfl, rfl, rfl, rfl, rfl, rfl⟩
  · rw [responseVerdict_eq hn, hc]
    split
    · next hx =>
      obtain ⟨hon, hbad⟩ : s.ctrl.getLsbD 0 = true ∧ checksumsOk (s'.rxBytes 1 n) = false := by simpa using hx
      exact Or.inr ⟨hm.sessionOpen, hm.txValid, Or.inr (Or.inl ⟨rfl, rfl, hm.rspValid, rfl, hn, hon, hbad⟩)⟩
    · next hx =>
      have hpass : s.ctrl.getLsbD 0 = true → checksumsOk (s'.rxBytes 1 n) = true := by simpa using hx
      exact Or.inr ⟨hm.sessionOpen, hm.txValid, Or.inr (Or.inr ⟨rfl, rfl, rfl, rfl, hn, rfl, hpass⟩)⟩

/-- An `RDRSP` that is not refused is accepted: `AwaitingResponse`, and no more bytes than `MAX_READ` (41_handshake_ops.md
R166 (b)). -/
theorem rdRspOp_refused_or_accepted (n T : Nat) (s : State) :
    rdRspOp params n T s = s.finish .refused .noValue ∨ s.hsState = .awaitingResponse ∧ n ≤ 262 := by
  obtain hr | ⟨h1, h2, -⟩ := rdRspOp_concludes n T s
  · exact Or.inl hr
  · exact Or.inr ⟨h1, h2⟩

theorem sameSurroundings_rdRspOp (n T : Nat) (s : State) : SameSurroundings s (rdRspOp params n T s) := by
  obtain hr | ⟨h1, h2⟩ := rdRspOp_refused_or_accepted n T s
  · rw [hr]
    exact ⟨rfl, rfl, rfl, rfl⟩
  · obtain ⟨s', w, c, hm, -, -, -, -, -, -, hend⟩ := rdRspOp_cases (T := T) h1 h2
    have h0 : SameSurroundings s { s with rspValid := false, elapsed := 0 } := ⟨rfl, rfl, rfl, rfl⟩
    have hwait := h0.trans hm.sameSurroundings
    rcases hend with ⟨-, -, ht⟩ | ⟨-, ht⟩ | ⟨-, hn, -, ht⟩ <;> rw [ht]
    · exact hwait.trans (sameSurroundings_errorEntry _ _ _)
    · exact hwait.trans (sameSurroundings_errorEntry _ _ _)
    · exact hwait.trans (sameSurroundings_responseVerdict hn)

/-- `RSPLEN` is written by an `RDRSP` that ends in `Ok` and by no other (41_handshake_ops.md R164). -/
theorem rdRspOp_rspLen_of_not_ok {n T : Nat} {s : State} (h : (rdRspOp params n T s).result ≠ .ok) :
    (rdRspOp params n T s).rspLen = s.rspLen := by
  obtain ht | ⟨-, -, s', bs, hu, -, ⟨e, ht⟩ | ⟨-, -, hn, ht⟩⟩ := rdRspOp_concludes n T s <;> rw [ht] at h ⊢
  · rfl
  · rw [State.errorEntry_rspLen, hu.rspLen]
  · rw [responseVerdict_eq hn] at h ⊢
    split at h
    · next hx =>
      rw [if_pos hx]
      exact hu.rspLen
    · exact absurd rfl h

/-- Only a `BusError` ends the session and drops the Frame (41_handshake_ops.md R151, row T12). -/
theorem rdRspOp_keepsFrame {n : Nat} {T : BitVec 32} {s : State}
    (h : (rdRspOp params n T.toNat s).result ≠ .busError) :
    (rdRspOp params n T.toNat s).txValid = s.txValid ∧ (rdRspOp params n T.toNat s).sessionOpen = s.sessionOpen := by
  obtain hr | ⟨h1, h2⟩ := rdRspOp_refused_or_accepted n T.toNat s
  · rw [hr]
    exact ⟨rfl, rfl⟩
  · obtain ⟨_, ⟨⟩, ⟨hb, -⟩ | ⟨hopen, hv, -⟩⟩ := rdrspOutcomes n T s h1 h2
    · exact absurd hb h
    · exact ⟨hv, hopen⟩

/-- Settles O35: the registers, the surroundings, and `RXBUF` by where the data read stored. -/
theorem rdrspFrame : Obligations.RdrspFrame := by
  rintro n T s _ ⟨⟩
  obtain ⟨hctrl, htx, htxLen⟩ := rdRspOp_keeps n T.toNat s
  have h := sameSurroundings_rdRspOp n T.toNat s
  refine ⟨htx, htxLen, hctrl, h.issue, h.resetIn, h.freeCtr, by rw [h.env], by rw [h.env], by rw [h.env],
    rdRspOp_rspLen_of_not_ok, rdRspOp_keepsFrame, ?_⟩
  intro ht hb i hi
  obtain hr | ⟨-, -, hc⟩ := rdRspOp_concludes n T.toNat s
  · rw [hr, State.finish_rxBuf]
  · exact hc.read_rxBuf_above (fun s' => responseVerdict_rxBuf) ht hb hi

/-! ### A response is read once -/

theorem State.errorEntry_hsState_ne_awaiting (P : Params) (e : Raised) (s : State) :
    (s.errorEntry P e).hsState ≠ .awaitingResponse := by
  cases e <;> simp [State.errorEntry]

theorem responseVerdict_hsState {n : Nat} {s : State} (h : s.rxLen = n + 2) :
    (responseVerdict params n s).hsState = .done := by
  rw [responseVerdict_eq h]
  split <;> rfl

/-- No `RDRSP` ends in `AwaitingResponse`, but one that is refused and changes nothing. -/
theorem rdRspOp_refused_or_ne_awaiting (n T : Nat) (s : State) :
    rdRspOp params n T s = s.finish .refused .noValue ∨ (rdRspOp params n T s).hsState ≠ .awaitingResponse := by
  obtain hr | ⟨-, -, s', bs, -, -, ⟨e, ht⟩ | ⟨-, -, hn, ht⟩⟩ := rdRspOp_concludes n T s
  · exact Or.inl hr
  · exact Or.inr (ht ▸ State.errorEntry_hsState_ne_awaiting params e s')
  · rw [ht, responseVerdict_hsState hn]
    exact Or.inr nofun

/-- `SNDACK` leads to `AwaitingResponse` by ending in `Ok` alone. -/
theorem sndAckOp_ok_of_awaiting {T : Nat} {s : State} (hs : s.hsState ≠ .awaitingResponse)
    (h : (sndAckOp params T s).hsState = .awaitingResponse) : (sndAckOp params T s).result = .ok := by
  obtain hr | ⟨s', bs, -, -, ⟨e, ht⟩ | ⟨-, -, -, ht⟩⟩ := sndAckOp_concludes T s
  · rw [hr] at h
    exact absurd h hs
  · rw [ht] at h
    exact absurd h (State.errorEntry_hsState_ne_awaiting params e s')
  · rw [ht, ackVerdict_eq] at h ⊢
    split at h
    · next hx => rw [if_pos hx]
    · cases h

/-- `OPEN` on an open session is refused; otherwise it ends in `Idle` or `BusError` (42_session_ops.md R181). -/
theorem openOp_same_or_ne_awaiting (P : Params) (s : State) :
    (openOp P s).hsState = s.hsState ∨ (openOp P s).hsState ≠ .awaitingResponse := by
  cases ho : s.sessionOpen with
  | true =>
    rw [openOp, if_pos ho]
    exact Or.inl rfl
  | false =>
    obtain ⟨-, -, h | ⟨h, -⟩⟩ := openOp_drops P ho <;> rw [h] <;> exact Or.inr nofun

/-- Whatever is no `SNDACK` leaves `HS_STATE` as it is or leads elsewhere than to `AwaitingResponse`. -/
theorem exec_same_or_ne_awaiting {i : Instr} {s t : State} (h : exec i s = .next t) (hi : ∀ T, i ≠ .sndack T) :
    t.hsState = s.hsState ∨ t.hsState ≠ .awaitingResponse := by
  cases i with
  | sndack T => exact absurd rfl (hi T)
  | rdrsp n T =>
    cases h
    exact (rdRspOp_refused_or_ne_awaiting n T.toNat s).imp_left fun hr => by rw [hr, State.finish_hsState]
  | openSession => cases h; exact openOp_same_or_ne_awaiting params s
  | closeSession => cases h; exact Or.inr nofun
  | enc p => cases h; exact Or.inl (sameExchange_encOp params p s).hsState
  | frameCmd p => cases h; exact Or.inl (sameExchange_encOp params p s).hsState
  | dec b n c => cases h; exact Or.inl (sameExchange_decOp params b n c s).hsState
  | vack b => cases h; exact Or.inl rfl
  | wrctrl v => cases h; exact Or.inl rfl
  | frameRsp p => cases h; exact Or.inl rfl
  | frameAck => cases h; exact Or.inl rfl
  | envelope st x pad => cases h; exact Or.inl rfl

/-- Settles O36: an accepted `RDRSP` leaves `AwaitingResponse`, and `SNDACK` alone leads there. -/
theorem responseIsReadOnce : Obligations.ResponseIsReadOnce := by
  constructor
  · rintro n n' T T' s _ ⟨⟩ hne
    obtain hr | hh := rdRspOp_refused_or_ne_awaiting n T.toNat s
    · exact absurd (congrArg State.result hr) hne
    · exact congrArg Host.Outcome.next (rdRspOp_refused (Or.inl hh))
  · intro i s t h hs ht
    by_cases hi : ∃ T, i = .sndack T
    · obtain ⟨T, rfl⟩ := hi
      cases h
      exact ⟨T, rfl, sndAckOp_ok_of_awaiting hs ht⟩
    · obtain he | hne := exec_same_or_ne_awaiting h (not_exists.mp hi)
      · exact absurd (he.symm.trans ht) hs
      · exact absurd ht hne

/-! ### `Collect` -/

/-- Settles O37: a `Collect` that returns has stored what its reads brought from index 0 on, `need` bytes in all. -/
theorem collectConcatenatesReads : Obligations.CollectConcatenatesReads := by
  intro P need T s t hP hs ht
  obtain ⟨s', evs, hm, hbuf, hlen, -, hend, hneed⟩ := collect_spec hP.tick_pos need T s hs
  have hn := hneed t ht
  rw [ht] at hend
  obtain ⟨rfl, hle, -⟩ := hend
  have hall : (readBytes evs).length = need := hlen.symm.trans hn
  refine ⟨hn, hle, evs, hm.history, ?_, hm.noWrite, fun i hi => ?_⟩
  · rw [State.rxBytes, hbuf, ← hall]
    exact Memory.slice_writeSeq _ _ _ _
  · rw [hbuf]
    exact Memory.read_writeSeq_above _ _ _ _ (by omega)

/-! ### How long they can take -/

/-- From the end `s'` of its wait to its own end `t` an operation makes no call but the one `close` of a `BusError`. -/
def EndsWithClose (s' t : State) : Prop :=
  t.history = s'.history ∨ t.result = .busError ∧ ∃ bus, t.history = .busClose bus :: s'.history

theorem endsWithClose_errorEntry (e : Raised) (s : State) : EndsWithClose s (s.errorEntry params e) := by
  cases e with
  | timedOut => exact Or.inl rfl
  | busError =>
    cases ho : s.sessionOpen with
    | false => exact Or.inl (by simp [State.errorEntry, State.tearDown, ho])
    | true => exact Or.inr ⟨rfl, params.busId, by simp [State.errorEntry, State.tearDown, ho]⟩

theorem endsWithClose_ackVerdict (s : State) : EndsWithClose s (ackVerdict params s) := by
  rw [ackVerdict_eq]
  split <;> exact Or.inl rfl

theorem endsWithClose_responseVerdict {n : Nat} {s : State} (h : s.rxLen = n + 2) :
    EndsWithClose s (responseVerdict params n s) := by
  rw [responseVerdict_eq h]
  split <;> exact Or.inl rfl

/-- The calls an operation of timeout `T` and a data read of `need` bytes may make (41_handshake_ops.md R169). -/
structure CallsBounded (T need : Nat) (t : State) (evs : List Event) : Prop where
  slept : sleptMs evs ≤ T + 1
  sleeps : sleepCount evs ≤ T + 1
  reads : readCount evs ≤ T + 1 + 1 + need
  writes : (writtenFrames evs).length ≤ 1
  length : evs.length = sleepCount evs + readCount evs + (writtenFrames evs).length + closeCount evs
  closes : closeCount evs ≤ if t.result = .busError then 1 else 0

theorem callsBounded_nil (T need : Nat) (t : State) : CallsBounded T need t [] where
  slept := Nat.zero_le _
  sleeps := Nat.zero_le _
  reads := Nat.zero_le _
  writes := Nat.zero_le _
  length := rfl
  closes := Nat.zero_le _

/-- A wait and data read makes reads and sleeps only. -/
theorem Moved.callsBounded {T need : Nat} {r s' : State} {wait : List Event} (hm : Moved params r s' wait) (t : State)
    (hs : sleptMs wait = sleepCount wait) (hT : sleptMs wait ≤ T + 1) (hr : readCount wait ≤ T + 2 + need) :
    CallsBounded T need t wait where
  slept := hT
  sleeps := hs ▸ hT
  reads := hr
  writes := by simp [hm.noWrite]
  length := by simp [hm.noWrite, hm.noClose, hm.count]
  closes := by simp [hm.noClose]

/-- One frame write before the calls of a wait. -/
theorem CallsBounded.append_write {T need : Nat} {t : State} {evs : List Event} (h : CallsBounded T need t evs)
    (hw : writtenFrames evs = []) (bus : Nat) (v : List Byte) (ok : Bool) :
    CallsBounded T need t (evs ++ [.write bus v ok]) where
  slept := by simpa [sleptMs] using h.slept
  sleeps := by simpa [sleepCount] using h.sleeps
  reads := by simpa [readCount] using h.reads
  writes := by simp [hw, writtenFrames]
  length := by
    rw [List.length_append, h.length]
    simp [sleepCount, readCount, closeCount, writtenFrames]
    omega
  closes := by simpa [closeCount] using h.closes

/-- One `close` after them, if the operation ends in `BusError`. -/
theorem EndsWithClose.callsBounded {T need : Nat} {s s' t : State} {evs : List Event} (h : EndsWithClose s' t)
    (hh : s'.history = evs ++ s.history) (hb : CallsBounded T need t evs) (h0 : closeCount evs = 0) :
    ∃ evs', t.history = evs' ++ s.history ∧ CallsBounded T need t evs' := by
  obtain ht | ⟨hr, bus, ht⟩ := h
  · exact ⟨evs, ht.trans hh, hb⟩
  · refine ⟨.busClose bus :: evs, by rw [ht, hh]; rfl, hb.slept, hb.sleeps, hb.reads, hb.writes, ?_, ?_⟩
    · exact congrArg (· + 1) hb.length
    · simp [closeCount, h0, hr]

theorem sndAckOp_callsBounded (T : Nat) (s : State) :
    ∃ evs, (sndAckOp params T s).history = evs ++ s.history ∧ CallsBounded T 8 (sndAckOp params T s) evs := by
  by_cases hg : s.txValid = false ∨ s.sessionOpen = false
  · exact ⟨[], sndAckOp_history_of_refused_or_closed hg, callsBounded_nil _ _ _⟩
  · obtain ⟨h1, h2⟩ : s.txValid = true ∧ s.sessionOpen = true := by simpa using hg
    cases h3 : s.writeAns (s.txBytes s.txLen) with
    | false =>
      have hend : EndsWithClose (frameWritten s) (sndAckOp params T s) := by
        rw [sndAckOp_writeFailed h1 h2 h3, ← h3]
        exact Or.inr ⟨rfl, params.busId, rfl⟩
      exact hend.callsBounded rfl ((callsBounded_nil _ _ _).append_write rfl _ _ _) rfl
    | true =>
      obtain ⟨s', w, c, hm, -, -, -, he, hs, hr, hend⟩ := sndAckOp_cases (T := T) h1 h2 h3
      have hb := (hm.callsBounded (sndAckOp params T s) hs (by omega) hr).append_write hm.noWrite params.busId
        (s.txBytes s.txLen) (s.writeAns (s.txBytes s.txLen))
      have hclose : EndsWithClose s' (sndAckOp params T s) := by
        rcases hend with ⟨-, -, ht⟩ | ⟨-, ht⟩ | ⟨-, -, -, ht⟩ <;> rw [ht]
        · exact endsWithClose_errorEntry _ _
        · exact endsWithClose_errorEntry _ _
        · exact endsWithClose_ackVerdict _
      exact hclose.callsBounded (by simp [hm.history, frameWritten]) hb (by rw [closeCount_append, hm.noClose]; rfl)

theorem rdRspOp_callsBounded (n T : Nat) (s : State) :
    ∃ evs, (rdRspOp params n T s).history = evs ++ s.history ∧ CallsBounded T (n + 2) (rdRspOp params n T s) evs := by
  obtain hr | ⟨h1, h2⟩ := rdRspOp_refused_or_accepted n T s
  · rw [hr]
    exact ⟨[], rfl, callsBounded_nil _ _ _⟩
  · obtain ⟨s', w, c, hm, -, -, -, he, hs, hr, hend⟩ := rdRspOp_cases (T := T) h1 h2
    have hb := hm.callsBounded (rdRspOp params n T s) hs (by omega) hr
    have hclose : EndsWithClose s' (rdRspOp params n T s) := by
      rcases hend with ⟨-, -, ht⟩ | ⟨-, ht⟩ | ⟨-, hn, -, ht⟩ <;> rw [ht]
      · exact endsWithClose_errorEntry _ _
      · exact endsWithClose_errorEntry _ _
      · exact endsWithClose_responseVerdict hn
    exact hclose.callsBounded hm.history hb hm.noClose

/-- Settles O39: the write, the wait's reads and sleeps, and the `close` of a `BusError`, counted one after the other. -/
theorem handshakeIsBounded : Obligations.HandshakeIsBounded := by
  intro i T need s t hi hx
  have hb : ∃ evs, t.history = evs ++ s.history ∧ CallsBounded T.toNat need t evs := by
    obtain ⟨rfl, rfl⟩ | ⟨n, rfl, rfl⟩ := hi <;> cases hx
    · exact sndAckOp_callsBounded T.toNat s
    · exact rdRspOp_callsBounded n T.toNat s
  obtain ⟨evs, hh, hslept, hsleeps, hreads, hwrites, hlength, hcloses⟩ := hb
  exact ⟨evs, hh, hslept, hsleeps, hreads, hwrites, hlength, hcloses⟩

end Sys2Proof.Machine
end

section
/-! PROOFS. The session and control operations (42_session_ops.md R180 to R185): what `OPEN`, `CLOSE` and `WRCTRL` do in
every state, and that a closed session stays closed under every other instruction. -/

namespace Sys2Proof.Machine

/-! ### The calls of the session, with the answer they got -/

theorem State.tOpen_of_ans (P : Params) {s : State} {ok : Bool} (h : s.openAns = ok) :
    s.tOpen P =
      { s with
        env := { s.env with opens := s.env.opens.tail }
        history := .busOpen P.busId ok :: s.history } := by
  rw [State.tOpen, h]

theorem State.tSetAddr_of_ans (P : Params) {s : State} {ok : Bool} (h : s.addrAns = ok) :
    s.tSetAddr P =
      { s with
        env := { s.env with addresses := s.env.addresses.tail }
        history := .setAddress P.busId P.devAddr ok :: s.history } := by
  rw [State.tSetAddr, h]

theorem State.tearDown_eq (P : Params) (s : State) :
    s.tearDown P = { s with history := if s.sessionOpen then .busClose P.busId :: s.history else s.history } := by
  unfold State.tearDown
  split <;> rfl

/-! ### `OPEN`: one equation for each row of R181 -/

theorem openOp_refused (P : Params) {s : State} (ho : s.sessionOpen = true) :
    openOp P s = { s with result := .refused, value := .noValue } := by
  rw [openOp, if_pos ho]
  rfl

theorem openOp_openFailed (P : Params) {s : State} (ho : s.sessionOpen = false) (h1 : s.openAns = false) :
    openOp P s =
      { s with
        txValid := false, rspValid := false, hsState := .busError, result := .busError, value := .noValue
        env := { s.env with opens := s.env.opens.tail }
        history := .busOpen P.busId false :: s.history } := by
  rw [openOp, if_neg (by simp [ho]), if_pos h1, State.tOpen_of_ans P h1]
  rfl

theorem openOp_addressFailed (P : Params) {s : State} (ho : s.sessionOpen = false) (h1 : s.openAns = true)
    (h2 : (s.tOpen P).addrAns = false) :
    openOp P s =
      { s with
        txValid := false, rspValid := false, hsState := .busError, result := .busError, value := .noValue
        env := { s.env with opens := s.env.opens.tail, addresses := s.env.addresses.tail }
        history := .busClose P.busId :: .setAddress P.busId P.devAddr false :: .busOpen P.busId true :: s.history } := by
  rw [openOp, if_neg (by simp [ho]), if_neg (by simp [h1]), if_pos h2, State.tSetAddr_of_ans P h2,
    State.tOpen_of_ans P h1]
  rfl

theorem openOp_succeeded (P : Params) {s : State} (ho : s.sessionOpen = false) (h1 : s.openAns = true)
    (h2 : (s.tOpen P).addrAns = true) :
    openOp P s =
      { s with
        txValid := false, rspValid := false, sessionOpen := true, hsState := .idle, result := .ok, value := .noValue
        env := { s.env with opens := s.env.opens.tail, addresses := s.env.addresses.tail }
        history := .setAddress P.busId P.devAddr true :: .busOpen P.busId true :: s.history } := by
  rw [openOp, if_neg (by simp [ho]), if_neg (by simp [h1]), if_neg (by simp [h2]), State.tSetAddr_of_ans P h2,
    State.tOpen_of_ans P h1]
  rfl

/-- Settles O20, by the answers of the transport: a refusal, either call failing, both succeeding. -/
theorem openBringsUpSession : Obligations.OpenBringsUpSession := by
  intro s
  rw [exec_openSession]
  refine ⟨fun ho => ?_, fun ho h1 => ?_, fun ho h1 h2 => ?_, fun ho h1 h2 => ?_⟩
  · rw [openOp_refused params ho]
  · rw [openOp_openFailed params ho h1]
    rfl
  · rw [openOp_addressFailed params ho h1 h2]
    rfl
  · rw [openOp_succeeded params ho h1 h2]
    rfl

/-! ### `CLOSE` and `WRCTRL` -/

/-- Settles O21: the session's teardown makes the one call, and only if the session was open. -/
theorem closeEndsSession : Obligations.CloseEndsSession := by
  intro s
  rw [exec_closeSession, closeOp, State.tearDown_eq]
  rfl

/-- Settles O19: the mask keeps bit 0, `CHK_EN`. -/
theorem wrctrlWritesCheckEnable : Obligations.WrctrlWritesCheckEnable := by
  intro v s
  constructor
  · rfl
  · have hmask : (0x01#8).getLsbD 0 = true := rfl
    rw [BitVec.getLsbD_and, hmask, Bool.and_true]

/-! ### A closed session -/

/-- Without a session `SNDACK` ends at its entry checks: refused without a Frame, and in the error entry with one. -/
theorem sndAckOp_on_closed (T : Nat) {s : State} (ho : s.sessionOpen = false) :
    (sndAckOp params T s).env = s.env ∧ (sndAckOp params T s).sessionOpen = false ∧
      (sndAckOp params T s).result = if s.txValid then .busError else .refused := by
  cases hv : s.txValid with
  | false =>
    rw [sndAckOp_refused hv]
    exact ⟨rfl, ho, rfl⟩
  | true =>
    rw [sndAckOp_closed hv ho]
    exact ⟨rfl, rfl, rfl⟩

/-- `RDRSP` keeps the session as it is or ends it. -/
theorem rdRspOp_on_closed (n : Nat) (T : BitVec 32) {s : State} (ho : s.sessionOpen = false) :
    (rdRspOp params n T.toNat s).sessionOpen = false := by
  obtain hr | ⟨h1, h2⟩ := rdRspOp_refused_or_accepted n T.toNat s
  · rw [hr]
    exact ho
  · obtain ⟨_, ⟨⟩, ⟨-, -, hclosed, -⟩ | ⟨hkept, -⟩⟩ := rdrspOutcomes n T s h1 h2
    · exact hclosed
    · exact hkept.trans ho

/-- Whatever is no `OPEN` leaves a closed session closed. -/
theorem exec_on_closed {i : Instr} {s t : State} (hi : i ≠ .openSession) (ho : s.sessionOpen = false)
    (h : exec i s = .next t) : t.sessionOpen = false := by
  cases i with
  | openSession => exact absurd rfl hi
  | closeSession => cases h; rfl
  | sndack T =>
    obtain ⟨-, hclosed, -⟩ := sndAckOp_on_closed T.toNat ho
    cases h; exact hclosed
  | rdrsp n T => cases h; exact rdRspOp_on_closed n T ho
  | enc p => cases h; exact (sameExchange_encOp params p s).sessionOpen.trans ho
  | frameCmd p => cases h; exact (sameExchange_encOp params p s).sessionOpen.trans ho
  | dec b n c => cases h; exact (sameExchange_decOp params b n c s).sessionOpen.trans ho
  | vack b => cases h; exact ho
  | wrctrl v => cases h; exact ho
  | frameRsp p => cases h; exact ho
  | frameAck => cases h; exact ho
  | envelope st x pad => cases h; exact ho

/-- Settles O22: instruction by instruction, and `SNDACK` by its entry checks. -/
theorem onlyOpenReopens : Obligations.OnlyOpenReopens := by
  constructor
  · intro i s t
    exact exec_on_closed
  · intro T s ho
    obtain ⟨henv, hclosed, hresult⟩ := sndAckOp_on_closed T.toNat ho
    exact ⟨_, exec_sndack T s, sndAckOp_history_of_refused_or_closed (Or.inr ho), henv, hclosed, hresult⟩

end Sys2Proof.Machine
end

section
/-! PROOFS. The Command Catalog (43_host_sequences.md R190 to R202): what a command leaves behind when every block
operation answered `Ok`, that a block result is passed on unchanged, and the catalog's decodes. -/

namespace Sys2Proof.Machine

/-! ### The decodes -/

theorem decodeFirmware_of_signature {K : CatalogParams} {x : List Byte}
    (h : x.take K.gfvSignature.length = K.gfvSignature) : decodeFirmware K x = .ok (bigEndianWord x K.gfvOff) :=
  if_neg (not_not_intro h)

theorem decodeFirmware_of_wrong_signature {K : CatalogParams} {x : List Byte}
    (h : x.take K.gfvSignature.length ≠ K.gfvSignature) : decodeFirmware K x = .error .unexpectedSignature :=
  if_pos h

/-- Settles O55, by whether the signature is there; the word's value is computed from the bytes behind it. -/
theorem firmwareVersionIsBigEndian : Obligations.FirmwareVersionIsBigEndian := by
  refine ⟨?word, ?sourceExample, ?wrongSignature⟩
  case word => exact fun b6 b7 b8 b9 b10 b11 => decodeFirmware_of_signature rfl
  case sourceExample => exact decodeFirmware_of_signature rfl
  case wrongSignature => exact fun x => decodeFirmware_of_wrong_signature (K := catalogParams)

/-- The firmware version decode fails with the catalog's own kinds alone (43_host_sequences.md R199). -/
theorem decodeFirmware_ne_block (K : CatalogParams) (x : List Byte) (q : ResultCode) :
    decodeFirmware K x ≠ .error (.block q) := by
  unfold decodeFirmware
  split <;> nofun

theorem decodeSam_ne_block (K : CatalogParams) (x : List Byte) (q : ResultCode) :
    decodeSam K x ≠ .error (.block q) := by
  unfold decodeSam
  split <;> nofun

theorem decodeTarget_ne_block (K : CatalogParams) (x : List Byte) (q : ResultCode) :
    decodeTarget K x ≠ .error (.block q) := by
  unfold decodeTarget
  split
  · nofun
  · split <;> nofun

/-! ### What an `Ok` of the block leaves behind -/

theorem State.errorEntry_result_ne_ok (e : Raised) (s : State) : (s.errorEntry params e).result ≠ .ok := by
  obtain hr | hr := State.errorEntry_result e s <;> rw [hr] <;> nofun

/-- An `Ok` of `SNDACK` leaves the block waiting for the response, over the session it found (41_handshake_ops.md R151,
row T8). -/
theorem leftAwaiting_sndAckOp {T : Nat} {s : State} (h : (sndAckOp params T s).result = .ok) :
    LeftAwaiting (sndAckOp params T s) := by
  cases h1 : s.txValid with
  | false => rw [sndAckOp_refused h1] at h; cases h
  | true =>
    cases h2 : s.sessionOpen with
    | false => rw [sndAckOp_closed h1 h2] at h; cases h
    | true =>
      cases h3 : s.writeAns (s.txBytes s.txLen) with
      | false => rw [sndAckOp_writeFailed h1 h2 h3] at h; cases h
      | true =>
        obtain ⟨s', w, c, hm, -, -, -, -, -, -, hend⟩ := sndAckOp_cases (T := T) h1 h2 h3
        rcases hend with ⟨-, -, ht⟩ | ⟨-, ht⟩ | ⟨-, -, -, ht⟩ <;> rw [ht] at h ⊢
        · exact absurd h (State.errorEntry_result_ne_ok _ s')
        · exact absurd h (State.errorEntry_result_ne_ok _ s')
        · rw [ackVerdict_eq] at h ⊢
          split at h
          · next hx =>
            rw [if_pos hx]
            exact ⟨rfl, hm.rspValid, hm.txValid, hm.sessionOpen.trans h2⟩
          · cases h

/-- An `Ok` of the `RDRSP` that follows leaves its response, with neither Frame nor session changed (row T14). -/
theorem LeftAwaiting.leftDone_rdRspOp {n T : Nat} {s : State} (hs : LeftAwaiting s)
    (h : (rdRspOp params n T s).result = .ok) : LeftDone n (rdRspOp params n T s) := by
  obtain ht | ⟨-, -, s', bs, hu, -, ⟨e, ht⟩ | ⟨-, -, hn, ht⟩⟩ := rdRspOp_concludes n T s <;> rw [ht] at h ⊢
  · cases h
  · exact absurd h (State.errorEntry_result_ne_ok e s')
  · have hframe : s'.txValid = false := Bool.eq_false_iff.mpr (mt hu.txValid (Bool.eq_false_iff.mp hs.no_frame))
    rw [responseVerdict_eq hn] at h ⊢
    split at h
    · cases h
    · next hx =>
      rw [if_neg hx]
      exact ⟨rfl, rfl, rfl, hframe, hu.sessionOpen.trans hs.session⟩

/-! ### The two shapes of command -/

/-- Every way a command without a response ends (43_host_sequences.md R190, R198). -/
theorem sendCommand_cases (payload : List Byte) (tAck : Nat) (s : State) :
    ∃ t, (sendCommand params payload tAck s = (.ok (), t) ∧ t.result = .ok ∧ LeftAwaiting t) ∨
      (sendCommand params payload tAck s = (.error (.block t.result), t) ∧ t.result ≠ .ok) := by
  by_cases h1 : (encOp params payload s).result = .ok
  · by_cases h2 : (sndAckOp params tAck (encOp params payload s)).result = .ok
    · exact ⟨_, Or.inl ⟨by simp [sendCommand, h1, h2], h2, leftAwaiting_sndAckOp h2⟩⟩
    · exact ⟨_, Or.inr ⟨by simp [sendCommand, h1, h2], h2⟩⟩
  · exact ⟨_, Or.inr ⟨by simp [sendCommand, h1], h1⟩⟩

/-- Every way a command with a response ends (43_host_sequences.md R190, R198). -/
theorem commandWithResponse_cases (payload : List Byte) (tAck n tRsp : Nat) (s : State) :
    ∃ t, (commandWithResponse params payload tAck n tRsp s = (.ok (t.rxBytes 1 n), t) ∧ t.result = .ok ∧ LeftDone n t) ∨
      (commandWithResponse params payload tAck n tRsp s = (.error (.block t.result), t) ∧ t.result ≠ .ok) := by
  obtain ⟨u, ⟨hsend, -, hu⟩ | ⟨hsend, hne⟩⟩ := sendCommand_cases payload tAck s
  · by_cases h : (rdRspOp params n tRsp u).result = .ok
    · have hd := hu.leftDone_rdRspOp h
      have hpre : params.envPre = 1 := rfl
      exact ⟨_, Or.inl ⟨by simp [commandWithResponse, hsend, h, hd.rsp_len, hpre], h, hd⟩⟩
    · exact ⟨_, Or.inr ⟨by simp [commandWithResponse, hsend, h], h⟩⟩
  · exact ⟨u, Or.inr ⟨by rw [commandWithResponse, hsend], hne⟩⟩

/-! ### The four commands -/

/-- What the three commands with a response make of its answer: an error is passed on, the inner bytes are decoded. -/
def decodeAnswer {α : Type} (decoded : List Byte → Except CatalogError α) :
    Except CatalogError (List Byte) × State → Except CatalogError α × State
  | (.error e, t) => (.error e, t)
  | (.ok x, t) => (decoded x, t)

theorem getFirmwareVersion_eq (P : Params) (K : CatalogParams) (tAck tRsp : Nat) (s : State) :
    getFirmwareVersion P K tAck tRsp s =
      decodeAnswer (decodeFirmware K) (commandWithResponse P [K.gfvOp] tAck K.gfvLen tRsp s) :=
  rfl

theorem configureSam_eq (P : Params) (K : CatalogParams) (tAck tRsp : Nat) (s : State) :
    configureSam P K tAck tRsp s =
      decodeAnswer (decodeSam K) (commandWithResponse P K.samPayload tAck K.samLen tRsp s) :=
  rfl

theorem readPassiveTarget_eq (P : Params) (K : CatalogParams) (baudRate : Byte) (tAck timeoutMs : Nat) (s : State) :
    readPassiveTarget P K baudRate tAck timeoutMs s =
      decodeAnswer (decodeTarget K) (commandWithResponse P (K.rptStart ++ [baudRate]) tAck K.rptLen timeoutMs s) :=
  rfl

/-- A decode bears on the answer alone, not on the state left behind (43_host_sequences.md R202). -/
theorem commandEnds_of_decodeAnswer {α : Type} {decoded : List Byte → Except CatalogError α} {payload : List Byte}
    {tAck n tRsp : Nat} {s t : State} {r : Except CatalogError α}
    (h : decodeAnswer decoded (commandWithResponse params payload tAck n tRsp s) = (r, t)) :
    CommandEnds n decoded r t := by
  obtain ⟨u, ⟨hc, hok, hd⟩ | ⟨hc, hne⟩⟩ := commandWithResponse_cases payload tAck n tRsp s <;> rw [hc] at h <;> cases h
  · exact ⟨fun _ => ⟨hd, rfl⟩, fun hne => absurd hok hne⟩
  · exact ⟨fun hok => absurd hok hne, fun _ => rfl⟩

/-- Settles O56: the two shapes by the ways they end, and the commands as decodes of their answers. -/
theorem catalogCommandsLeaveState : Obligations.CatalogCommandsLeaveState := by
  refine ⟨?withResponse, ?withoutResponse, ?blockError, ?firmware, ?sam, ?target, ?retries, ?decodes⟩
  case withResponse =>
    intro payload tAck n tRsp s t x h
    obtain ⟨u, ⟨hc, hok, hd⟩ | ⟨hc, -⟩⟩ := commandWithResponse_cases payload tAck n tRsp s <;> rw [hc] at h <;> cases h
    exact ⟨hd, hok, rfl, Memory.slice_length _ _ _ _⟩
  case withoutResponse =>
    intro payload tAck s t h
    obtain ⟨u, ⟨hc, hok, hl⟩ | ⟨hc, -⟩⟩ := sendCommand_cases payload tAck s <;> rw [hc] at h <;> cases h
    exact ⟨hl, hok⟩
  case blockError =>
    intro payload tAck n tRsp s t e h
    obtain ⟨u, ⟨hc, -⟩ | ⟨hc, hne⟩⟩ := commandWithResponse_cases payload tAck n tRsp s <;> rw [hc] at h <;> cases h
    exact ⟨rfl, hne⟩
  case firmware =>
    intro K tAck tRsp s t r h
    exact commandEnds_of_decodeAnswer (getFirmwareVersion_eq params K tAck tRsp s ▸ h)
  case sam =>
    intro K tAck tRsp s t r h
    exact commandEnds_of_decodeAnswer (configureSam_eq params K tAck tRsp s ▸ h)
  case target =>
    intro K baudRate tAck timeoutMs s t r h
    exact commandEnds_of_decodeAnswer (readPassiveTarget_eq params K baudRate tAck timeoutMs s ▸ h)
  case retries =>
    intro K maxRetries tAck s t r h
    rw [setPassiveActivationRetries] at h
    obtain ⟨u, ⟨hc, hok, hl⟩ | ⟨hc, hne⟩⟩ := sendCommand_cases (K.rfCfgStart ++ [maxRetries]) tAck s <;>
      rw [hc] at h <;> cases h
    · exact ⟨fun _ => ⟨hl, rfl⟩, fun hne => absurd hok hne⟩
    · exact ⟨fun hok => absurd hok hne, fun _ => rfl⟩
  case decodes =>
    exact fun K x q => ⟨decodeFirmware_ne_block K x q, decodeSam_ne_block K x q, decodeTarget_ne_block K x q⟩

end Sys2Proof.Machine
end

section
/-! PROOFS. Results that are errors (60_exceptions.md R211 to R224): how `SNDACK` and `RDRSP` come to the error entry,
what `TimedOut` and `BusError` leave behind there, and the causes of `Refused`. -/

namespace Sys2Proof.Machine

/-! ### The error entry -/

/-- The result by which a raised error is reported (60_exceptions.md R221). -/
def Raised.result : Raised → ResultCode
  | .timedOut => .timedOut
  | .busError => .busError

theorem Raised.result_injective : Function.Injective Raised.result := by
  intro e e' h
  cases e <;> cases e' <;> trivial

theorem State.errorEntry_result_eq (e : Raised) (s : State) : (s.errorEntry params e).result = e.result := by
  cases e <;> rfl

/-- `s'` is where an operation of timeout `T` begun in `s` raises `e`, after the calls `evs`: none of them a `close`, the
session as it was, and a `TimedOut` only when the time slept exceeds `T` (60_exceptions.md R211, R220). -/
structure RaisedAt (T : Nat) (e : Raised) (s s' : State) (evs : List Event) : Prop where
  sessionOpen : s'.sessionOpen = s.sessionOpen
  history : s'.history = evs ++ s.history
  noClose : closeCount evs = 0
  notEarly : e = .timedOut → T < s'.elapsed ∧ s'.elapsed = sleptMs evs

/-- An operation of timeout `T` led from `s` to `t` through the error entry, or ended in a result that is not raised. -/
def RaisedOrNot (T : Nat) (s t : State) : Prop :=
  (∃ e s' evs, t = s'.errorEntry params e ∧ RaisedAt T e s s' evs) ∨ ∀ e, t.result ≠ Raised.result e

/-- A wait and data read begun in `r`, which the operation reached by the calls `pre`, neither closing nor sleeping. -/
theorem RaisedAt.of_moved {T : Nat} {e : Raised} {s r s' : State} {pre wait : List Event}
    (hm : Moved params { r with elapsed := 0 } s' wait) (ho : r.sessionOpen = s.sessionOpen)
    (hh : r.history = pre ++ s.history) (hc : closeCount pre = 0) (hs : sleptMs pre = 0)
    (hT : e = .timedOut → T < s'.elapsed) : RaisedAt T e s s' (wait ++ pre) where
  sessionOpen := hm.sessionOpen.trans ho
  history := by rw [hm.history, hh, List.append_assoc]
  noClose := by rw [closeCount_append, hm.noClose, hc]
  notEarly he := ⟨hT he, by simp [hm.elapsed, hs]⟩

theorem ackVerdict_result_ne_raised (s : State) (e : Raised) : (ackVerdict params s).result ≠ e.result := by
  rw [ackVerdict_eq]
  split <;> cases e <;> nofun

theorem responseVerdict_result_ne_raised {n : Nat} {s : State} (h : s.rxLen = n + 2) (e : Raised) :
    (responseVerdict params n s).result ≠ e.result := by
  rw [responseVerdict_eq h]
  split <;> cases e <;> nofun

/-- `SNDACK` raises on a closed session, after a failed write, or in its wait (41_handshake_ops.md R160, R161). -/
theorem sndAckOp_raisedOrNot (T : Nat) (s : State) : RaisedOrNot T s (sndAckOp params T s) := by
  cases h1 : s.txValid with
  | false =>
    rw [sndAckOp_refused h1]
    exact Or.inr fun e => by cases e <;> nofun
  | true =>
    cases h2 : s.sessionOpen with
    | false =>
      have ht : sndAckOp params T s = { s with rspValid := false }.errorEntry params .busError := by
        rw [sndAckOp, if_neg (by simp [h1]), if_pos h2]
      exact Or.inl ⟨.busError, _, [], ht, rfl, rfl, rfl, nofun⟩
    | true =>
      cases h3 : s.writeAns (s.txBytes s.txLen) with
      | false =>
        have ht : sndAckOp params T s =
            (writeFrame params { s with rspValid := false }).errorEntry params .busError := by
          rw [sndAckOp, if_neg (by simp [h1]), if_neg (by simp [h2]), if_pos h3]
        exact Or.inl ⟨.busError, _, [_], ht, rfl, rfl, rfl, nofun⟩
      | true =>
        obtain ⟨s', w, c, hm, -, -, -, -, -, -, hend⟩ := sndAckOp_cases (T := T) h1 h2 h3
        have hat := fun e => RaisedAt.of_moved (T := T) (e := e) (s := s) (pre := [_]) hm rfl rfl rfl rfl
        rcases hend with ⟨hT, -, ht⟩ | ⟨-, ht⟩ | ⟨-, -, -, ht⟩
        · exact Or.inl ⟨.timedOut, s', _, ht, hat _ fun _ => hT⟩
        · exact Or.inl ⟨.busError, s', _, ht, hat _ nofun⟩
        · exact Or.inr (ht ▸ ackVerdict_result_ne_raised s')

/-- `RDRSP` raises in its wait alone (41_handshake_ops.md R164). -/
theorem rdRspOp_raisedOrNot (n T : Nat) (s : State) : RaisedOrNot T s (rdRspOp params n T s) := by
  obtain hr | ⟨h1, h2⟩ := rdRspOp_refused_or_accepted n T s
  · rw [hr]
    exact Or.inr fun e => by cases e <;> nofun
  · obtain ⟨s', w, c, hm, -, -, -, -, -, -, hend⟩ := rdRspOp_cases (T := T) h1 h2
    have hat := fun e =>
      RaisedAt.of_moved (T := T) (e := e) (s := s) (r := { s with rspValid := false }) (pre := []) hm rfl rfl rfl rfl
    rcases hend with ⟨hT, -, ht⟩ | ⟨-, ht⟩ | ⟨-, hn, -, ht⟩
    · exact Or.inl ⟨.timedOut, s', _, ht, hat _ fun _ => hT⟩
    · exact Or.inl ⟨.busError, s', _, ht, hat _ nofun⟩
    · exact Or.inr (ht ▸ responseVerdict_result_ne_raised hn)

theorem exec_raisedOrNot {i : Instr} {T : BitVec 32} {s t : State} (hi : i = .sndack T ∨ ∃ n, i = .rdrsp n T)
    (h : exec i s = .next t) : RaisedOrNot T.toNat s t := by
  obtain rfl | ⟨n, rfl⟩ := hi <;> cases h
  · exact sndAckOp_raisedOrNot T.toNat s
  · exact rdRspOp_raisedOrNot n T.toNat s

/-- An operation that ended in a raised result took its error entry where it raised it. -/
theorem RaisedOrNot.raisedAt {T : Nat} {e : Raised} {s t : State} (h : RaisedOrNot T s t) (hr : t.result = e.result) :
    ∃ s' evs, t = s'.errorEntry params e ∧ RaisedAt T e s s' evs := by
  obtain ⟨e', s', evs, rfl, hat⟩ | hne := h
  · rw [State.errorEntry_result_eq] at hr
    obtain rfl := Raised.result_injective hr
    exact ⟨s', evs, rfl, hat⟩
  · exact absurd hr (hne e)

/-- Settles O38: `TimedOut` is raised with more than `T` slept, and its error entry makes no call. -/
theorem timedOutIsNeverEarly : Obligations.TimedOutIsNeverEarly := by
  intro i T s t hi h hr
  obtain ⟨s', evs, rfl, hat⟩ := (exec_raisedOrNot hi h).raisedAt (e := .timedOut) hr
  obtain ⟨hT, hslept⟩ := hat.notEarly rfl
  exact ⟨hT, rfl, hat.sessionOpen, evs, hat.history, hslept ▸ hT, hat.noClose⟩

/-- The one call of a `BusError`'s error entry (60_exceptions.md R221). -/
theorem State.errorEntry_busError_history (s : State) :
    (s.errorEntry params .busError).history =
      (if s.sessionOpen then [Event.busClose Config.busId] else []) ++ s.history := by
  have h : (s.errorEntry params .busError).history = (s.tearDown params).history := rfl
  rw [h, State.tearDown_history]
  split <;> rfl

/-- Settles O42: the calls before the error entry hold no `close`, and the entry makes the one. -/
theorem busErrorTearsDown : Obligations.BusErrorTearsDown := by
  intro i s t hi h hr
  obtain ⟨T, hi⟩ : ∃ T, i = .sndack T ∨ ∃ n, i = .rdrsp n T := by
    obtain ⟨T, hi⟩ | ⟨n, T, hi⟩ := hi
    · exact ⟨T, Or.inl hi⟩
    · exact ⟨T, Or.inr ⟨n, hi⟩⟩
  obtain ⟨s', evs, rfl, hat⟩ := (exec_raisedOrNot hi h).raisedAt (e := .busError) hr
  refine ⟨rfl, rfl, rfl, rfl, evs, hat.noClose, ?_⟩
  rw [State.errorEntry_busError_history, hat.sessionOpen, hat.history, List.append_assoc]

/-! ### `Refused` -/

/-- The statement of `Obligations.RefusedHasNoEffect` for one cause and one pair of states. -/
def RefusedExactlyBy (cause : Prop) (s t : State) : Prop :=
  (t.result = .refused ↔ cause) ∧ (cause → t = { s with result := .refused, value := .noValue })

theorem refusedExactlyBy_of {cause : Prop} {s t : State} (hy : cause → t = s.finish .refused .noValue)
    (hn : ¬ cause → t.result ≠ .refused) : RefusedExactlyBy cause s t where
  left := ⟨fun hr => by_contra fun hc => hn hc hr, fun hc => congrArg State.result (hy hc)⟩
  right := hy

/-- An operation that is never refused. -/
theorem refusedExactlyBy_false {s t : State} (h : t.result ≠ .refused) : RefusedExactlyBy False s t :=
  refusedExactlyBy_of False.elim fun _ => h

theorem encOp_refusedExactlyBy (p : List Byte) (s : State) :
    RefusedExactlyBy (params.maxPayload < p.length) s (encOp params p s) :=
  refusedExactlyBy_of (fun h => encOp_of_gt h s) fun h => by
    rw [encOp_of_le (Nat.not_lt.mp h)]
    nofun

theorem decOp_result_ne_refused (b : List Byte) (n : Nat) (c : Bool) (s : State) :
    (decOp params b n c s).result ≠ .refused := by
  unfold decOp
  split <;> nofun

theorem sndAckOp_result_ne_refused (T : BitVec 32) {s : State} (h : s.txValid = true) :
    (sndAckOp params T.toNat s).result ≠ .refused := by
  obtain ⟨_, ⟨⟩, -, ⟨hv, -⟩ | ⟨-, -, -, hend⟩⟩ := sndackOutcomes T s
  · simp [h] at hv
  · rcases hend with ⟨hr, -⟩ | ⟨-, -, -, ⟨hr, -⟩ | ⟨hr, -⟩ | ⟨hr, -⟩⟩ <;> rw [hr] <;> nofun

theorem rdRspOp_result_ne_refused {n : Nat} (T : BitVec 32) {s : State} (h1 : s.hsState = .awaitingResponse)
    (h2 : n ≤ 262) : (rdRspOp params n T.toNat s).result ≠ .refused := by
  obtain ⟨_, ⟨⟩, ⟨hr, -⟩ | ⟨-, -, ⟨hr, -⟩ | ⟨hr, -⟩ | ⟨hr, -⟩⟩⟩ := rdrspOutcomes n T s h1 h2 <;> rw [hr] <;> nofun

theorem openOp_result_ne_refused {s : State} (ho : s.sessionOpen = false) : (openOp params s).result ≠ .refused := by
  cases h1 : s.openAns with
  | false => rw [openOp_openFailed params ho h1]; nofun
  | true =>
    cases h2 : (s.tOpen params).addrAns with
    | false => rw [openOp_addressFailed params ho h1 h2]; nofun
    | true => rw [openOp_succeeded params ho h1 h2]; nofun

/-- Settles O43: operation by operation, the refusal under its cause and another result without it. -/
theorem refusedHasNoEffect : Obligations.RefusedHasNoEffect := by
  intro i s t hi h
  change RefusedExactlyBy (RefusalCause params s i) s t
  cases i with
  | enc p => cases h; exact encOp_refusedExactlyBy p s
  | frameCmd p => cases h; exact encOp_refusedExactlyBy p s
  | sndack T =>
    cases h
    exact refusedExactlyBy_of sndAckOp_refused fun hc =>
      sndAckOp_result_ne_refused T (Bool.eq_true_of_not_eq_false hc)
  | rdrsp n T =>
    cases h
    refine refusedExactlyBy_of rdRspOp_refused fun hc => ?_
    obtain ⟨h1, h2⟩ := not_or.mp hc
    exact rdRspOp_result_ne_refused T (not_not.mp h1) (Nat.not_lt.mp h2)
  | openSession =>
    cases h
    exact refusedExactlyBy_of (openOp_refused params) fun hc =>
      openOp_result_ne_refused (Bool.eq_false_of_not_eq_true hc)
  | vack b => cases h; exact refusedExactlyBy_false nofun
  | dec b n c => cases h; exact refusedExactlyBy_false (decOp_result_ne_refused b n c s)
  | closeSession => cases h; exact refusedExactlyBy_false nofun
  | wrctrl v => cases h; exact refusedExactlyBy_false nofun
  | frameRsp p => cases hi
  | frameAck => cases hi
  | envelope st x pad => cases hi

end Sys2Proof.Machine
end

section
/-! PROOFS. Reset (70_reset_and_hazards.md R240 to R244) and the hazards of using the block out of order (R242, R253): what
a step runs, what a reset leaves and which of an operation's calls it keeps, how long a Frame is good, and which buffer
bytes the host cannot read. -/

namespace Sys2Proof.Machine

/-! ### What a step runs (70_reset_and_hazards.md R244, R262) -/

theorem runIssued_decoded {s : State} {i : Instr} {rest : List Byte} (h : decode s.issue = .ok (i, rest)) :
    runIssued s = exec i { s with issue := rest } := by
  unfold runIssued
  split
  · next hs => rw [hs] at h; cases h
  · next hs => rw [← hs, h]

theorem runIssued_undecodable {s : State} {e : DecodeError} (hne : s.issue ≠ []) (h : decode s.issue = .error e) :
    runIssued s = .refused (.undecodable e) := by
  unfold runIssued
  split
  · next hs => exact absurd hs hne
  · next hs => rw [← hs, h]

theorem runIssued_nothing {s : State} (h : s.issue = []) : runIssued s = .next s := by
  rw [runIssued, h]

/-- The two ways on: nothing is issued and nothing changes, or the item at the port is taken off and run. -/
theorem runIssued_next {s t : State} (h : runIssued s = .next t) :
    t = s ∨ ∃ i rest, exec i { s with issue := rest } = .next t := by
  by_cases hs : s.issue = []
  · rw [runIssued_nothing hs] at h
    cases h
    exact Or.inl rfl
  · cases hd : decode s.issue with
    | error e =>
      rw [runIssued_undecodable hs hd] at h
      cases h
    | ok item =>
      obtain ⟨i, rest⟩ := item
      rw [runIssued_decoded hd] at h
      exact Or.inr ⟨i, rest, h⟩

theorem step_of_no_reset {s : State} (h : s.resetIn = .none) : step s = runIssued s := by
  rw [step, h]

/-- Settles O4: without a reset a step is `runIssued`, and that has one equation for each clause. -/
theorem stepRunsDecodedInstruction : Obligations.StepRunsDecodedInstruction := by
  intro s hn
  rw [step_of_no_reset hn]
  exact ⟨fun _ _ => runIssued_decoded, fun _ => runIssued_undecodable, runIssued_nothing⟩

/-! ### The state after reset (70_reset_and_hazards.md R241, R243) -/

/-- Settles O5, by the definition; a buffer without entries has no byte at any index. -/
theorem resetGivesTableValues : Obligations.ResetGivesTableValues :=
  ⟨rfl, rfl, rfl, rfl, rfl, rfl, rfl, rfl, rfl, rfl, rfl, fun _ => ⟨rfl, rfl⟩⟩

/-- Settles O51. -/
theorem resetMeetsBlockInvariants : Obligations.ResetMeetsBlockInvariants := inv_reset

/-- Settles O6: at a boundary the step is the reset of the block. -/
theorem resetMakesNoTransportCall : Obligations.ResetMakesNoTransportCall := by
  intro s h
  rw [step, h]
  rfl

/-! ### A reset during an operation (93_implementation_defined.md U16) -/

theorem CallsWithoutWrite.history_suffix {s t : State} (h : CallsWithoutWrite s t) : s.history <:+ t.history := by
  obtain ⟨evs, hh, -⟩ := h
  exact ⟨evs, hh.symm⟩

theorem sndAckOp_history_suffix (T : Nat) (s : State) : s.history <:+ (sndAckOp params T s).history := by
  by_cases hg : s.txValid = false ∨ s.sessionOpen = false
  · rw [sndAckOp_history_of_refused_or_closed hg]
  · obtain ⟨h1, h2⟩ : s.txValid = true ∧ s.sessionOpen = true := by simpa using hg
    have hwrite : s.history <:+ (frameWritten s).history := List.suffix_cons _ _
    exact hwrite.trans (callsWithoutWrite_sndAckOp h1 h2).history_suffix

/-- The history only grows: an instruction's calls come on top of those made before (60_exceptions.md R222). -/
theorem exec_history_suffix {i : Instr} {s t : State} (h : exec i s = .next t) : s.history <:+ t.history := by
  cases i with
  | enc p => cases h; exact (callsWithoutWrite_encOp params p s).history_suffix
  | vack b => cases h; exact List.suffix_rfl
  | dec b n c => cases h; exact (callsWithoutWrite_decOp params b n c s).history_suffix
  | sndack T => cases h; exact sndAckOp_history_suffix T.toNat s
  | rdrsp n T => cases h; exact (callsWithoutWrite_rdRspOp n T.toNat s).history_suffix
  | openSession => cases h; exact (callsWithoutWrite_openOp params s).history_suffix
  | closeSession => cases h; exact (callsWithoutWrite_closeOp params s).history_suffix
  | wrctrl v => cases h; exact List.suffix_rfl
  | frameCmd p => cases h; exact (callsWithoutWrite_encOp params p s).history_suffix
  | frameRsp p => cases h; exact List.suffix_rfl
  | frameAck => cases h; exact List.suffix_rfl
  | envelope st x pad => cases h; exact List.suffix_rfl

theorem runIssued_history_suffix {s t : State} (h : runIssued s = .next t) : s.history <:+ t.history := by
  obtain rfl | ⟨i, rest, hx⟩ := runIssued_next h
  · exact List.suffix_rfl
  · exact exec_history_suffix (s := { s with issue := rest }) hx

/-- Of the calls `evs` the oldest `calls` stay, or all of them where there are no more. -/
theorem State.abandon_history {calls : Nat} {s t : State} {evs : List Event} (h : t.history = evs ++ s.history) :
    (State.abandon calls s t).history = evs.drop (evs.length - calls) ++ s.history := by
  have hmade : t.history.length - s.history.length = evs.length := by simp [h]
  rw [State.abandon, hmade]
  split
  · next hall =>
    rw [Nat.sub_eq_zero_of_le hall]
    exact h
  · change t.history.drop (evs.length - calls) = _
    rw [h, List.drop_append_of_le_length (Nat.sub_le _ _)]

/-- Whatever the operation would have done to the block, the abandoned one leaves it reset. -/
theorem State.abandon_block (calls : Nat) (s t : State) :
    State.abandon calls s t =
      { State.reset with
        env := (State.abandon calls s t).env, history := (State.abandon calls s t).history, issue := t.issue
        freeCtr := (State.abandon calls s t).freeCtr } := by
  unfold State.abandon
  split <;> rfl

/-- The operation that a reset abandons is the one that would have run without it. -/
theorem step_during {s t : State} {k : Nat} (hn : s.resetIn = .none) (h : step s = .next t) :
    step { s with resetIn := .during k } = .next (State.abandon k s t) := by
  have hs : { s with resetIn := .none } = s := by rw [← hn]
  have hrun : runIssued { s with resetIn := .none } = .next t := by rw [hs, ← step_of_no_reset hn, h]
  simp only [step, hrun]
  rfl

/-- Settles O7: the operation's calls `evs` are those lost, the newest, and then those kept. -/
theorem resetAbandonsOperation : Obligations.ResetAbandonsOperation := by
  intro s t u k hn ht hu
  rw [step_during hn ht] at hu
  cases hu
  obtain ⟨evs, hevs⟩ := runIssued_history_suffix (step_of_no_reset hn ▸ ht)
  have hkept := State.abandon_history (calls := k) hevs.symm
  refine ⟨evs.drop (evs.length - k), evs.take (evs.length - k), ?_, hkept, ?_, ?_, State.abandon_block k s t⟩
  · rw [hkept, ← List.append_assoc, List.take_append_drop, hevs]
  · rw [List.length_drop]
    omega
  · obtain hall | hsome := Nat.le_total evs.length k
    · exact Or.inl (by rw [Nat.sub_eq_zero_of_le hall, List.take_zero])
    · exact Or.inr (by rw [List.length_drop, Nat.sub_sub_self hsome])

/-! ### A Frame is good for one write (70_reset_and_hazards.md R253) -/

theorem sndAckOp_txValid (T : BitVec 32) (s : State) : (sndAckOp params T.toNat s).txValid = false := by
  cases hv : s.txValid with
  | false => rw [sndAckOp_refused hv]; exact hv
  | true =>
    obtain ⟨_, ⟨⟩, -, ⟨hf, -⟩ | ⟨-, hdropped, -⟩⟩ := sndackOutcomes T s
    · rw [hv] at hf
      cases hf
    · exact hdropped

/-- `RDRSP` keeps the Frame as it is, or drops it with the session (41_handshake_ops.md R151, row T12). -/
theorem rdRspOp_txValid (n : Nat) (T : BitVec 32) {s : State} (hs : s.txValid = false) :
    (rdRspOp params n T.toNat s).txValid = false := by
  obtain hr | ⟨h1, h2⟩ := rdRspOp_refused_or_accepted n T.toNat s
  · rw [hr]
    exact hs
  · obtain ⟨_, ⟨⟩, ⟨-, -, -, hdropped, -⟩ | ⟨-, hkept, -⟩⟩ := rdrspOutcomes n T s h1 h2
    · exact hdropped
    · exact hkept.trans hs

theorem openOp_txValid (P : Params) {s : State} (hs : s.txValid = false) : (openOp P s).txValid = false := by
  cases ho : s.sessionOpen with
  | true => rw [openOp_refused P ho]; exact hs
  | false =>
    obtain ⟨hdropped, -⟩ := openOp_drops P ho
    exact hdropped

theorem decOp_txValid (P : Params) (bytes : List Byte) (n : Nat) (check : Bool) (s : State) :
    (decOp P bytes n check s).txValid = s.txValid := by
  obtain ⟨r, v, h⟩ := decOp_eq_finish P bytes n check s
  rw [h, State.finish_txValid]

/-- Whatever is no `ENC` leaves `TXBUF` without a Frame (10_state.md R33). -/
theorem exec_without_frame {i : Instr} {s t : State} (henc : ∀ p, i ≠ .enc p) (hcmd : ∀ p, i ≠ .frameCmd p)
    (h : exec i s = .next t) (hs : s.txValid = false) : t.txValid = false := by
  cases i with
  | enc p => exact absurd rfl (henc p)
  | frameCmd p => exact absurd rfl (hcmd p)
  | vack b => cases h; exact hs
  | dec b n c => cases h; exact (decOp_txValid params b n c s).trans hs
  | sndack T => cases h; exact sndAckOp_txValid T s
  | rdrsp n T => cases h; exact rdRspOp_txValid n T hs
  | openSession => cases h; exact openOp_txValid params hs
  | closeSession => cases h; rfl
  | wrctrl v => cases h; exact hs
  | frameRsp p => cases h; exact hs
  | frameAck => cases h; exact hs
  | envelope st x pad => cases h; exact hs

/-- Settles O31: every `SNDACK` leaves no Frame, and no instruction but the two that build one makes one valid. -/
theorem frameGoodForOneWrite : Obligations.FrameGoodForOneWrite := by
  constructor
  · rintro T T' s _ - ⟨⟩
    exact congrArg Host.Outcome.next (sndAckOp_refused (sndAckOp_txValid T s))
  · intro i s t h hs ht
    by_contra hno
    rw [exec_without_frame (fun p hi => hno ⟨p, Or.inl hi⟩) (fun p hi => hno ⟨p, Or.inr hi⟩) h hs] at ht
    cases ht

/-! ### Bytes the valid bits do not cover (70_reset_and_hazards.md R242; log entry 14) -/

theorem State.readTx_of_uncovered {s : State} {i : Nat} (h : s.txValid = false ∨ s.txLen ≤ i) :
    ∃ f, s.readTx params i = .error f := by
  have hc : ¬ (s.txValid && decide (i < s.txLen)) = true := by
    rcases h with h | h <;> simp [h]
  rw [State.readTx, if_neg hc]
  split <;> exact ⟨_, rfl⟩

theorem State.readRx_of_unreadable {s : State} {i : Nat} (h : s.rxReadable params i = false) :
    ∃ f, s.readRx params i = .error f := by
  rw [State.readRx, h]
  split <;> exact ⟨_, rfl⟩

/-- Without a response only `Done` covers bytes, and no more than `RXLEN` (10_state.md R34). -/
theorem State.rxReadable_without_response {s : State} {i : Nat} (hv : s.rspValid = false)
    (h : s.hsState ≠ .done ∨ s.rxLen ≤ i) : s.rxReadable params i = false := by
  rcases h with h | h <;> simp [State.rxReadable, hv, h]

/-- With a response neither the status prefix nor anything behind the inner bytes is covered (10_state.md R35). -/
theorem State.rxReadable_outside_response {s : State} {i : Nat} (hv : s.rspValid = true) (h : i = 0 ∨ s.rspLen < i) :
    s.rxReadable params i = false := by
  have hpre : params.envPre = 1 := rfl
  simp only [State.rxReadable, hv, hpre, if_true, Bool.and_eq_false_iff, decide_eq_false_iff_not]
  omega

/-- Settles O53: in each case the read's guard fails. -/
theorem hostReadsOfUnwrittenFault : Obligations.HostReadsOfUnwrittenFault := by
  intro s i
  exact ⟨State.readTx_of_uncovered,
    fun hv h => State.readRx_of_unreadable (State.rxReadable_without_response hv h),
    fun hv h => State.readRx_of_unreadable (State.rxReadable_outside_response hv h)⟩

end Sys2Proof.Machine
end
